-- ==== Sys2Proof/Word.lean ====
section
/-! DEFINITION. The word types of ILI9163-PCS and the plain data types its operands are made of
(spec 00_scope.md sections 3 and 4, 30_encoding.md R60 to R68). -/

namespace Sys2Proof

/-- One byte: a colour sample, a bus byte, a ROM byte (`SAMPLE_BITS` = 8). -/
abbrev Byte := BitVec 8

/-- A dimension, offset or coordinate (`DIM_BITS` = 16), and a packed pixel (`PIXEL_BITS` = 16). -/
abbrev Word16 := BitVec 16

/-- The level of an output line: `false` is 0 (low), `true` is 1 (high) (R101). -/
abbrev Level := Bool

/-- The lines a LINE micro-op may name (R62: 0 = RST, 1 = BL). -/
inductive LineName where
  | rst
  | bl
deriving DecidableEq, Repr

/-- Direction of one quarter-turn of the codec, the parameter `ROT_DIR` (00_scope.md section 3, R82). -/
inductive RotDir where
  | ccw
  | cw
deriving DecidableEq, Repr

/-- The operands of CONSTRUCT (R61, R141). An omitted offset is `none` (its `has_` bit is 0). -/
structure ConstructReq where
  panelW : Word16
  panelH : Word16
  width : Word16
  height : Word16
  rotationDeg : Word16
  offLeft : Option Word16
  offTop : Option Word16
  invert : Bool
  spiHz : BitVec 32
  hasRst : Bool
  hasBl : Bool
deriving DecidableEq, Repr

/-- The operands of SET_WINDOW (R61, R145). An omitted operand is `none` (its `has_` bit is 0). -/
structure WindowReq where
  x0 : Option Word16
  y0 : Option Word16
  x1 : Option Word16
  y1 : Option Word16
deriving DecidableEq, Repr

/-- A ROM entry of the init sequence, "(command, data-bytes, post-delay)" (R63). -/
structure Triple where
  command : Byte
  data : List Byte
  postDelay : BitVec 16
deriving DecidableEq, Repr

/-- The formats an instruction of the table can have (R60, R61 to R68). The three name spaces HOSTOP, UOP and DCS
overlap bit for bit, so a word is read in one format at a time. -/
inductive Format where
  | hostop
  | uop
  | dcs
  | rgb888
  | pix565
  | pixbytes
  | addr4
  | triple
deriving DecidableEq, Repr

/-- What the Bus Transport answers to one write (R104): success, failure after some prefix of the bytes, or never
(the hang of R104 and R214, again after some prefix). -/
inductive BusAnswer where
  | ok
  | fail (sent : Nat)
  | hang (sent : Nat)
deriving DecidableEq, Repr, Inhabited

end Sys2Proof
end

