-- ==== Sys2Proof/Syntax.lean ====
section
/-! DEFINITION. The instructions: one constructor per row of spec/opcode_table.json. -/

namespace Sys2Proof

/-- The rows of the opcode table: six host operations (R61), four micro-ops (R62), seventeen controller commands
(R68, R73) and five data formats (R63 to R67). -/
inductive Instr where
  -- host operations, format HOSTOP
  | construct (req : ConstructReq)
  | setWindow (req : WindowReq)
  | display (imgW imgH : Word16) (img : List Byte)
  | setBacklight (on : Level)
  | getWidth
  | getHeight
  -- micro-ops, format UOP
  | line (name : LineName) (level : Level)
  | wait (ms : BitVec 16)
  | cmd (c : Byte)
  | dat (bytes : List Byte)
  -- controller commands, format DCS
  | swreset
  | slpout
  | frmctr
  | pwctrA
  | pwctrB
  | pwctrC
  | invoff
  | invon
  | madctl
  | colmod
  | caset
  | raset
  | ramwr
  | gmctrp
  | gmctrn
  | noron
  | dispon
  -- data formats
  | rgb888 (r g b : Byte)
  | pix565 (r : BitVec 5) (g : BitVec 6) (b : BitVec 5)
  | pixbytes (first second : Byte)
  | addr4 (s e : Word16)
  | triple (entry : Triple)
deriving DecidableEq, Repr

end Sys2Proof
end

