-- ==== Sys2Proof/Machine/State.lean ====
section
/-! DEFINITION. The state of the block (spec 10_state.md), the controller's reference state (R58, R26), the inputs a
deterministic step must find in the state, and the state after block reset (R29, R200). -/

namespace Sys2Proof.Machine

/-- The lifecycle register's values (R19). -/
inductive Lifecycle where
  | uninitialized
  | resetting
  | initializing
  | ready
  | failed
deriving DecidableEq, Repr

/-- The six error kinds (R170). -/
inductive ErrorKind where
  | transportError
  | initError
  | invalidConfig
  | dimensionMismatch
  | notReady
  | invalidWindow
deriving DecidableEq, Repr

/-- The address-window registers `x[0]` to `x[3]`, in logical coordinates (R11). -/
structure Window where
  x0 : Word16
  y0 : Word16
  x1 : Word16
  y1 : Word16
deriving DecidableEq, Repr

/-- The control registers CR0 to CR10 (R14). -/
structure DisplayConfig where
  panelW : Word16
  panelH : Word16
  width : Word16
  height : Word16
  rot : BitVec 2
  offsetLeft : Word16
  offsetTop : Word16
  invert : Bool
  spiHz : BitVec 32
  hasRst : Bool
  hasBl : Bool
deriving DecidableEq, Repr

/-- One item of the trace (R27): a byte with the level of the select line, a line write, a delay. -/
inductive Item where
  | byte (dc : Level) (b : Byte)
  | line (name : LineName) (level : Level)
  | delay (ms : BitVec 16)
deriving DecidableEq, Repr

/-- A byte-addressed memory: a list of cells in canonical form (`Memory.wf`). -/
abbrev Memory := List Host.Cell

/-- What the controller does with the next data byte (R58): nothing, a column or row address parameter, or pixels (the
flag `open` of R58 is `pixels`). -/
inductive PanelPhase where
  | closed
  | columns
  | rows
  | pixels
deriving DecidableEq, Repr

/-- The controller's reference state (R58): its window, its write index, what it expects, the bytes of an unfinished
parameter or pixel, and its pixel memory. No rule of the block reads it. -/
structure Panel where
  xs : Word16
  xe : Word16
  ys : Word16
  ye : Word16
  index : Nat
  phase : PanelPhase
  buf : List Byte
  mem : Memory
deriving DecidableEq, Repr

/-- The state. The fields down to `trace` are the block's own (R10); `panel` is the controller's (R26, R58); the last five
are the model's: the host's coming requests (log entry 1), the collaborators' coming answers and the counter of free values
(log entries 5 and 6), and whether a collaborator hangs (R214). -/
structure State where
  win : Window
  res : Word16
  seq : List Instr
  seqPc : Nat
  cfg : DisplayConfig
  state : Lifecycle
  err : BitVec 3
  errCause : BitVec 3
  dc : Option Level
  rst : Option Level
  bl : Option Level
  trace : List Item
  panel : Panel
  requests : List Byte
  busAnswers : List BusAnswer
  delayReturns : List Bool
  draws : Nat
  hung : Bool
deriving DecidableEq, Repr

/-- What stops the machine with a fault. -/
inductive Fault where
  /-- Raised by DISPLAY when its buffer is not exactly `img_w * img_h * 3` bytes, so that the codec would read outside `IMG`
  (R41: "there is nothing outside it"; R90). Safe: no decoded request has such a buffer. -/
  | imageAccess
deriving DecidableEq, Repr

/-- Why a request or an instruction has no meaning. -/
inductive Refusal where
  /-- Raised by `exec`'s arm of an instruction not modelled yet. Safe. No arm raises it now. -/
  | notModelled (mnemonic : String)
  /-- Raised by `step` on a host record whose op is not 0x01 to 0x06 ("a model refuses such a request", R74). Safe. -/
  | illegalOp
  /-- Raised by `step` on host bytes that end before their record does: no request at all (R61). Safe. -/
  | truncatedRequest
  /-- Raised by the six host operations when one is presented while an operation is in flight ("the host must not present
  one while an operation is in flight", R140, V4). Safe. -/
  | busy
  /-- Raised by CONSTRUCT when `STATE` is not `Uninitialized` ("a model refuses it", R151, V2). Safe. -/
  | alreadyConstructed
deriving DecidableEq, Repr

/-- The machine right after block reset (R29, R200). The registers the spec leaves unspecified are 0 (log entries 7 to 11). -/
def State.reset : State where
  win := { x0 := 0, y0 := 0, x1 := 0, y1 := 0 }
  res := 0
  seq := []
  seqPc := 0
  cfg :=
    { panelW := 0, panelH := 0, width := 0, height := 0, rot := 0, offsetLeft := 0, offsetTop := 0, invert := false,
      spiHz := 0, hasRst := false, hasBl := false }
  state := .uninitialized
  err := 0
  errCause := 0
  dc := none
  rst := none
  bl := none
  trace := []
  panel := { xs := 0, xe := 0, ys := 0, ye := 0, index := 0, phase := .closed, buf := [], mem := [] }
  requests := []
  busAnswers := []
  delayReturns := []
  draws := 0
  hung := false

end Sys2Proof.Machine
end

