-- ==== Sys2Proof/Machine/Operands.lean ====
section
/-! DEFINITION. How operands are formed (R70): byte splitting, the rotation count, default and validated operands of
CONSTRUCT (R142, R143) and SET_WINDOW (R145), and the translation to panel coordinates (R46, R122). -/

namespace Sys2Proof.Machine

/-- `hi8(v) = v[15:8]` (R70). -/
def hi8 (v : Word16) : Byte := v.extractLsb' 8 8

/-- `lo8(v) = v[7:0]` (R70). -/
def lo8 (v : Word16) : Byte := v.extractLsb' 0 8

/-- `ADDR4(s, e)`: start high, start low, end high, end low (R67, R122). -/
def addr4Bytes (s e : Word16) : List Byte := [hi8 s, lo8 s, hi8 e, lo8 e]

/-- The quarter-turn count of a legal rotation in degrees; every other value is illegal (R18, R70(a), R142). -/
def quarterTurns (degrees : Nat) : Option (BitVec 2) :=
  if degrees = 0 then some 0
  else if degrees = 90 then some 1
  else if degrees = 180 then some 2
  else if degrees = 270 then some 3
  else none

/-- An explicit offset keeps the window inside the panel (R142); an omitted one always does (R143). -/
def offsetFits (offset : Option Word16) (logical panel : Word16) : Bool :=
  match offset with
  | some o => decide (o.toNat + logical.toNat ≤ panel.toNat)
  | none => true

/-- The validation of CONSTRUCT (R142), every line of it. -/
def constructValid (q : ConstructReq) : Bool :=
  (quarterTurns q.rotationDeg.toNat).isSome &&
  (decide (1 ≤ q.panelW.toNat) && decide (1 ≤ q.panelH.toNat) && decide (1 ≤ q.width.toNat) && decide (1 ≤ q.height.toNat)) &&
  (decide (q.width.toNat ≤ q.panelW.toNat) && decide (q.height.toNat ≤ q.panelH.toNat)) &&
  offsetFits q.offLeft q.width q.panelW &&
  offsetFits q.offTop q.height q.panelH

/-- An offset of CONSTRUCT: the one given, else the one that centres the window, floored (R143, R17). -/
def offsetOrCentre (offset : Option Word16) (logical panel : Word16) : Word16 :=
  match offset with
  | some o => o
  | none => BitVec.ofNat 16 ((panel.toNat - logical.toNat) / 2)

/-- The configuration a valid CONSTRUCT loads (R141). -/
def loadConfig (q : ConstructReq) : DisplayConfig where
  panelW := q.panelW
  panelH := q.panelH
  width := q.width
  height := q.height
  rot := (quarterTurns q.rotationDeg.toNat).getD 0
  offsetLeft := offsetOrCentre q.offLeft q.width q.panelW
  offsetTop := offsetOrCentre q.offTop q.height q.panelH
  invert := q.invert
  spiHz := q.spiHz
  hasRst := q.hasRst
  hasBl := q.hasBl

/-- The default window `(0, 0, WIDTH - 1, HEIGHT - 1)` (R121, R146). At a size of 0, which no loaded configuration has (R142), the
subtraction wraps to 65535: the model's choice (log entry 35). -/
def defaultWindow (cfg : DisplayConfig) : Window where
  x0 := 0
  y0 := 0
  x1 := cfg.width - 1
  y1 := cfg.height - 1

/-- The operands of SET_WINDOW after defaulting, each on its own (R145, R70(d)); at a size of 0 as in `defaultWindow` (log
entry 35). -/
def windowOf (cfg : DisplayConfig) (q : WindowReq) : Window where
  x0 := q.x0.getD 0
  y0 := q.y0.getD 0
  x1 := q.x1.getD (cfg.width - 1)
  y1 := q.y1.getD (cfg.height - 1)

/-- The AddressWindow invariant: not reversed, and the translated end inside the panel, the sums taken as mathematical
integers (R11, R122, R145). -/
def windowValid (cfg : DisplayConfig) (w : Window) : Bool :=
  decide (w.x0.toNat ≤ w.x1.toNat) && decide (w.y0.toNat ≤ w.y1.toNat) &&
  decide (w.x1.toNat + cfg.offsetLeft.toNat + 1 ≤ cfg.panelW.toNat) &&
  decide (w.y1.toNat + cfg.offsetTop.toNat + 1 ≤ cfg.panelH.toNat)

/-- The column parameter of the window: left offset added to both column coordinates (R46, R122). R122 gives it for a valid window,
whose translated values fit 16 bits; of a window that is not valid the model keeps the low 16 bits of a sum (log entry 35). -/
def columnBytes (cfg : DisplayConfig) (w : Window) : List Byte :=
  addr4Bytes (w.x0 + cfg.offsetLeft) (w.x1 + cfg.offsetLeft)

/-- The row parameter of the window: top offset added to both row coordinates (R46, R122); of a window that is not valid the low 16
bits of a sum (log entry 35). -/
def rowBytes (cfg : DisplayConfig) (w : Window) : List Byte :=
  addr4Bytes (w.y0 + cfg.offsetTop) (w.y1 + cfg.offsetTop)

end Sys2Proof.Machine
end

