-- ==== Sys2Proof/Machine/Flags.lean ====
section
/-! DEFINITION. The status the block shows and keeps: BUSY (R24), the codes of ERR, ERR_CAUSE and STATE (R170, R19), and the
lifecycle transitions a sequence position makes due (R20, R144). There are no arithmetic flags (R22). -/

namespace Sys2Proof.Machine

/-- `BUSY = SEQ_PC < len(SEQ)` (R13, R24). -/
def State.busy (s : State) : Bool := decide (s.seqPc < s.seq.length)

/-- The code of an error kind (R170). -/
def ErrorKind.code : ErrorKind → BitVec 3
  | .transportError => 1
  | .initError => 2
  | .invalidConfig => 3
  | .dimensionMismatch => 4
  | .notReady => 5
  | .invalidWindow => 6

/-- What ERR_CAUSE holds after an error: the transport error under an init error, else 0 (R21, R176). -/
def ErrorKind.causeCode : ErrorKind → BitVec 3
  | .initError => ErrorKind.code .transportError
  | .transportError => 0
  | .invalidConfig => 0
  | .dimensionMismatch => 0
  | .notReady => 0
  | .invalidWindow => 0

/-- What STATE becomes on an error: `Failed` on an init error, else unchanged (R176). -/
def ErrorKind.stateAfter (e : ErrorKind) (st : Lifecycle) : Lifecycle :=
  match e with
  | .initError => .failed
  | .transportError => st
  | .invalidConfig => st
  | .dimensionMismatch => st
  | .notReady => st
  | .invalidWindow => st

/-- The code of a lifecycle state (R19). -/
def Lifecycle.code : Lifecycle → Nat
  | .uninitialized => 0
  | .resetting => 1
  | .initializing => 2
  | .ready => 3
  | .failed => 4

/-- The error a failed micro-op ends its operation with, chosen by the lifecycle state (R107, R171, R172); outside the three
states a micro-op can fail in, log entry 15. -/
def failureKind : Lifecycle → ErrorKind
  | .uninitialized => .transportError
  | .resetting => .initError
  | .initializing => .initError
  | .ready => .transportError
  | .failed => .transportError

/-- The lifecycle state when the sequence position is `pc`: `Resetting` is due at `n1`, `Initializing` at `n1 + n2`, `Ready`
at the end; transitions due at one position follow each other at once (R144, R20). -/
def lifecycleAt (n1 n2 len pc : Nat) (st : Lifecycle) : Lifecycle :=
  let a := if st = .uninitialized ∧ n1 ≤ pc then .resetting else st
  let b := if a = .resetting ∧ n1 + n2 ≤ pc then .initializing else a
  if b = .initializing ∧ len ≤ pc then .ready else b

end Sys2Proof.Machine
end

