-- ==== Sys2Proof/Config.lean ====
section
/-! DEFINITION. What the spec leaves open: the shape of the ROM table (R116), its OPEN entries, and the free values.
Every free value here is opaque: it has no body, so nothing can be proved that depends on it. The values the spec
does give (default command bytes, delays, levels) stand in Sys2Proof/Machine/Rom.lean. -/

namespace Sys2Proof

/-- The named entries of the register-constant table (R116). -/
structure Rom where
  swreset : Byte
  slpout : Byte
  frmctr : Byte
  frmctrData : List Byte
  pwctrA : Byte
  pwctrAData : List Byte
  pwctrB : Byte
  pwctrBData : List Byte
  pwctrC : Byte
  pwctrCData : List Byte
  invoff : Byte
  invon : Byte
  madctl : Byte
  madctlData : Byte
  colmod : Byte
  colmodData : Byte
  caset : Byte
  raset : Byte
  ramwr : Byte
  gmctrp : Byte
  gmctrn : Byte
  gammaP : Vector Byte 16
  gammaN : Vector Byte 16
  noron : Byte
  dispon : Byte
deriving DecidableEq, Repr

/-- `ROM.FRMCTR_DATA`, OPEN (R116, N1; log entry 19). -/
opaque Config.frmctrData : List Byte
/-- The three power-control commands are OPEN and "three different commands" (R116): the images of 0, 1 and 2 under a free
permutation of the bytes, which are any three different bytes (log entry 19). -/
opaque Config.powerCommand : Equiv.Perm Byte
/-- `ROM.PWCTR_A`, OPEN (R116, N1; log entry 19). -/
def Config.pwctrA : Byte := Config.powerCommand 0
/-- `ROM.PWCTR_A_DATA`, OPEN (R116, N1; log entry 19). -/
opaque Config.pwctrAData : List Byte
/-- `ROM.PWCTR_B`, OPEN (R116, N1; log entry 19). -/
def Config.pwctrB : Byte := Config.powerCommand 1
/-- `ROM.PWCTR_B_DATA`, OPEN (R116, N1; log entry 19). -/
opaque Config.pwctrBData : List Byte
/-- `ROM.PWCTR_C`, OPEN (R116, N1; log entry 19). -/
def Config.pwctrC : Byte := Config.powerCommand 2
/-- `ROM.PWCTR_C_DATA`, OPEN (R116, N1; log entry 19). -/
opaque Config.pwctrCData : List Byte
/-- `ROM.MADCTL_DATA`, the fixed orientation byte, OPEN (R116, R126, N1; log entry 19). -/
opaque Config.madctlData : Byte
/-- `ROM.GAMMA_P`, 16 bytes, OPEN (R116, N1; log entry 19). -/
opaque Config.gammaP : Vector Byte 16
/-- `ROM.GAMMA_N`, 16 bytes, OPEN (R116, N1; log entry 19). -/
opaque Config.gammaN : Vector Byte 16

/-- The transport's answer to a write when State lists none: a free value, fresh at each draw (R104, R28; log entry 5). -/
opaque Config.busAnswer : Nat → BusAnswer
/-- Whether a Delay primitive's call returns when State lists no answer: a free value (R102, R214; log entry 6). -/
opaque Config.delayReturns : Nat → Bool
/-- Where the controller's write pointer stands after a failed DISPLAY: a free value (R26, U1; log entry 13). -/
opaque Config.writePointer : Nat → Nat
/-- The column pixel `n` of a burst goes to in a window whose last column lies before its first: a free value (R58; log
entry 30). -/
opaque Config.strayColumn : Word16 → Word16 → Nat → Nat
/-- The row pixel `n` of a burst goes to in such a window, or in one whose last row lies before its first: a free value (R58;
log entry 30). -/
opaque Config.strayRow : Word16 → Word16 → Nat → Nat
/-- What the codec used alone reads outside its buffer: a free value (R41, R90; log entry 23). -/
opaque Config.outsideImage : Nat → Byte

end Sys2Proof
end

