-- ==== Sys2Proof/Machine/Rom.lean ====
section
/-! DEFINITION. The parameters to which the spec gives a value: the ROM table with its default command bytes (R73, R116),
the settle delays (R183) and the two direction and polarity parameters (00_scope.md section 3). -/

namespace Sys2Proof.Machine

/-- The ROM table (R116). The command bytes and `colmodData` are the spec's defaults, "from general knowledge, not in
source" (PRESUMED, log entry 18); the other payloads and the power-control commands, which are three
different bytes, are OPEN (log entry 19). -/
def rom : Rom where
  swreset := 0x01
  slpout := 0x11
  frmctr := 0xB1
  frmctrData := Config.frmctrData
  pwctrA := Config.pwctrA
  pwctrAData := Config.pwctrAData
  pwctrB := Config.pwctrB
  pwctrBData := Config.pwctrBData
  pwctrC := Config.pwctrC
  pwctrCData := Config.pwctrCData
  invoff := 0x20
  invon := 0x21
  madctl := 0x36
  madctlData := Config.madctlData
  colmod := 0x3A
  colmodData := 0x05
  caset := 0x2A
  raset := 0x2B
  ramwr := 0x2C
  gmctrp := 0xE0
  gmctrn := 0xE1
  gammaP := Config.gammaP
  gammaN := Config.gammaN
  noron := 0x13
  dispon := 0x29

/-- `ROT_DIR`, counter-clockwise (D4, R82; log entry 16). -/
def rotDir : RotDir := .ccw

/-- `DC_CMD_LEVEL`, low (D5, R103; log entry 17). -/
def cmdLevel : Level := false

/-- The data level of the select line, `1 - DC_CMD_LEVEL` (R106). -/
def dataLevel : Level := !cmdLevel

/-- `T_BL_PULSE`, ms (R117). -/
def tBlPulse : BitVec 16 := 100
/-- `T_RST_HOLD`, ms (R118, D6; log entry 20). -/
def tRstHold : BitVec 16 := 500
/-- `T_SWRESET`, ms (R119). -/
def tSwreset : BitVec 16 := 150
/-- `T_SLPOUT`, ms (R119). -/
def tSlpout : BitVec 16 := 500
/-- `T_NORON`, ms (R119). -/
def tNoron : BitVec 16 := 10
/-- `T_DISPON`, ms (R119). -/
def tDispon : BitVec 16 := 100

end Sys2Proof.Machine
end

