-- ==== Sys2Proof/Machine/Panel.lean ====
section
/-! DEFINITION. The reference model of the controller (R58, R47). It is not part of the block: the block writes to it and
never reads it. -/

namespace Sys2Proof.Machine

/-- The flag `open` of R58: the controller takes data bytes as pixels. -/
def Panel.isOpen (p : Panel) : Bool := p.phase == .pixels

/-- The width of the controller's window, `xe - xs + 1` (R58). -/
def Panel.width (p : Panel) : Nat := p.xe.toNat + 1 - p.xs.toNat

/-- The height of the controller's window, `ye - ys + 1` (R58). -/
def Panel.height (p : Panel) : Nat := p.ye.toNat + 1 - p.ys.toNat

/-- The address of the high byte of the pixel at a column and row of the panel; its low byte lies next (R45, R48;
log entry 11). -/
def pixelAddr (col row : Nat) : Nat := 2 * (row * 65536 + col)

/-- The column of the panel where pixel `n` of a burst goes: window-relative column `n mod w` (R58); a free value in a window
whose last column lies before its first, to which the spec gives no meaning (log entry 30). -/
def Panel.column (p : Panel) (n : Nat) : Nat :=
  if p.xs.toNat ≤ p.xe.toNat then p.xs.toNat + n % p.width else Config.strayColumn p.xs p.xe n

/-- The row of the panel where pixel `n` of a burst goes: window-relative row `(n div w) mod h` (R58); a free value in a window
whose last column or row lies before its first (log entry 30). -/
def Panel.row (p : Panel) (n : Nat) : Nat :=
  if p.xs.toNat ≤ p.xe.toNat ∧ p.ys.toNat ≤ p.ye.toNat then p.ys.toNat + n / p.width % p.height
  else Config.strayRow p.ys p.ye n

/-- The pixel stored at a column and row of the panel, if any. -/
def Panel.pixel (p : Panel) (col row : Nat) : Option Word16 :=
  match Memory.read p.mem (pixelAddr col row), Memory.read p.mem (pixelAddr col row + 1) with
  | some h, some l => some (h ++ l)
  | _, _ => none

/-- Store the pixel `{h, l}` and advance the write index (R58, R47). -/
def Panel.storePixel (p : Panel) (h l : Byte) : Panel :=
  let a := pixelAddr (p.column p.index) (p.row p.index)
  { p with mem := Memory.write (Memory.write p.mem a h) (a + 1) l, index := p.index + 1, buf := [] }

/-- A command byte arrives (R58). The model's choice (log entry 12): every command but memory-write closes the pixel burst, and
every command, memory-write among them, drops the bytes of an unfinished parameter or pixel. -/
def Panel.command (p : Panel) (c : Byte) : Panel :=
  if c = rom.caset then { p with phase := .columns, buf := [] }
  else if c = rom.raset then { p with phase := .rows, buf := [] }
  else if c = rom.ramwr then { p with phase := .pixels, index := 0, buf := [] }
  else { p with phase := .closed, buf := [] }

/-- A data byte arrives: the fourth of an address parameter sets the window, the second of a pair stores a pixel (R58). -/
def Panel.data (p : Panel) (b : Byte) : Panel :=
  match p.phase, p.buf with
  | .closed, _ => p
  | .columns, [d0, d1, d2] => { p with xs := d0 ++ d1, xe := d2 ++ b, phase := .closed, buf := [] }
  | .columns, buf => { p with buf := buf ++ [b] }
  | .rows, [d0, d1, d2] => { p with ys := d0 ++ d1, ye := d2 ++ b, phase := .closed, buf := [] }
  | .rows, buf => { p with buf := buf ++ [b] }
  | .pixels, [h] => p.storePixel h b
  | .pixels, buf => { p with buf := buf ++ [b] }

/-- A byte arrives with the select line at level `dc`; the level alone tells a command from data (R68). -/
def Panel.receive (p : Panel) (dc : Level) (b : Byte) : Panel :=
  if dc = cmdLevel then p.command b else p.data b

end Sys2Proof.Machine
end

