-- ==== Sys2Proof/Machine/Codec.lean ====
section
/-! DEFINITION. The pixel codec, a family of pure functions without state (R80): EFFDIM, ROTQ, PACK565, BYTES565, ENCODE,
and UNPACK565, which the spec defines for testing only (R88). -/

namespace Sys2Proof.Machine

/-- An input pixel's samples (R64). -/
abbrev Rgb := Byte × Byte × Byte

/-- `k = 1 or k = 3`: the rotations that swap the two dimensions (R87). -/
def isOddTurn (k : BitVec 2) : Bool := k == 1 || k == 3

/-- EFFW (R87). -/
def effW (width height : Word16) (k : BitVec 2) : Word16 := if isOddTurn k then height else width

/-- EFFH (R87). -/
def effH (width height : Word16) (k : BitVec 2) : Word16 := if isOddTurn k then width else height

/-- The number of counter-clockwise quarter-turns that `k` turns in the direction `dir` are (R82). -/
def ccwTurns (dir : RotDir) (k : BitVec 2) : BitVec 2 :=
  match dir with
  | .ccw => k
  | .cw => -k

/-- ROTQ as an index map: the row and column of the image of `ih` rows and `iw` columns that stands at row `i` and column
`j` of the rotated image (R82). -/
def rotSource (dir : RotDir) (k : BitVec 2) (iw ih i j : Nat) : Nat × Nat :=
  let t := ccwTurns dir k
  if t = 0 then (i, j)
  else if t = 1 then (j, iw - 1 - i)
  else if t = 2 then (ih - 1 - i, iw - 1 - j)
  else (ih - 1 - j, i)

/-- The rows RH of the rotated image (R82). -/
def rotRows (k : BitVec 2) (iw ih : Nat) : Nat := if isOddTurn k then iw else ih

/-- The columns RW of the rotated image (R82). -/
def rotCols (k : BitVec 2) (iw ih : Nat) : Nat := if isOddTurn k then ih else iw

/-- PACK565 (R83), on samples extended to 16 bits. -/
def pack565 (r g b : Byte) : Word16 :=
  ((r.setWidth 16 &&& 0xF8) <<< 8) ||| ((g.setWidth 16 &&& 0xFC) <<< 3) ||| (b.setWidth 16 >>> 3)

/-- BYTES565: high byte first, then low byte (R84, R66). -/
def bytes565 (p : Word16) : List Byte := [hi8 p, lo8 p]

/-- UNPACK565, the decoder of the round-trip property (R88). -/
def unpack565 (p : Word16) : Rgb :=
  ((p >>> 8 &&& 0xF8).setWidth 8, (p >>> 3 &&& 0xFC).setWidth 8, (p <<< 3 &&& 0xF8).setWidth 8)

/-- `addr(r, c, ch)` of R41. -/
def imgAddr (iw r c ch : Nat) : Nat := (r * iw + c) * 3 + ch

/-- `MemRead(addr, 1)` on the pixel buffer; the callers stay inside it (R41, R90). -/
def imgRead (img : List Byte) (a : Nat) : Byte := img.getD a (Config.outsideImage a)

/-- The pixel in row `r` and column `c`: R, G, B at offsets 0, 1, 2 (R41, D29). -/
def imgPixel (img : List Byte) (iw r c : Nat) : Rgb :=
  (imgRead img (imgAddr iw r c 0), imgRead img (imgAddr iw r c 1), imgRead img (imgAddr iw r c 2))

/-- The two bus bytes of one input pixel (R83, R84). -/
def pixelBytes (p : Rgb) : List Byte := bytes565 (pack565 p.1 p.2.1 p.2.2)

/-- ENCODE: the rotated image row by row, each pixel packed and sent high byte first (R85). On a buffer that is not `IW * IH * 3`
bytes, where R90 leaves ENCODE undefined and which no operation of the block hands it, the model chooses: bytes past the image
are ignored, bytes missing are free values (log entry 23). -/
def encodeImage (dir : RotDir) (img : List Byte) (iw ih : Nat) (k : BitVec 2) : List Byte :=
  (List.range (rotRows k iw ih)).flatMap fun i =>
    (List.range (rotCols k iw ih)).flatMap fun j =>
      let src := rotSource dir k iw ih i j
      pixelBytes (imgPixel img iw src.1 src.2)

/-- The codec used alone on a rotation in degrees: an illegal rotation raises InvalidConfig and yields no output (R81). -/
def encodeDegrees (dir : RotDir) (img : List Byte) (iw ih degrees : Nat) : Except ErrorKind (List Byte) :=
  match quarterTurns degrees with
  | some k => .ok (encodeImage dir img iw ih k)
  | none => .error .invalidConfig

/-- Format SPI: the bits of a byte on the wire, most significant first (R69). -/
def spiBits (b : Byte) : List Bool :=
  [b.getLsbD 7, b.getLsbD 6, b.getLsbD 5, b.getLsbD 4, b.getLsbD 3, b.getLsbD 2, b.getLsbD 1, b.getLsbD 0]

/-- Format SPI, mode 0: clock and data levels, the clock idle low and each bit standing at the leading edge (R69, R44). -/
def spiWave (b : Byte) : List (Level × Level) :=
  (spiBits b).flatMap fun bit => [(false, bit), (true, bit)]

end Sys2Proof.Machine
end

