-- ==== Sys2Proof/Machine/Sequences.lean ====
section
/-! DEFINITION. The command sequences (42_sequences.md): pure functions from the ROM, the configuration, the window and the
image to a list of micro-ops (R115). The controller commands are the ROM's triples (R63, R119, R123). -/

namespace Sys2Proof.Machine

/-- The expansion of a triple: CMD, then DAT when it has data, then WAIT when its delay is not 0 (R63). -/
def expand (t : Triple) : List Instr :=
  [.cmd t.command] ++ (if t.data.isEmpty then [] else [.dat t.data]) ++ (if t.postDelay = 0 then [] else [.wait t.postDelay])

/-! ### The controller commands with their parameters and post-delays (R119, R123) -/

/-- Step 1, software reset. -/
def swresetTriple (rom : Rom) : Triple := ⟨rom.swreset, [], tSwreset⟩
/-- Step 2, sleep-out. -/
def slpoutTriple (rom : Rom) : Triple := ⟨rom.slpout, [], tSlpout⟩
/-- Step 3, frame-rate control. -/
def frmctrTriple (rom : Rom) : Triple := ⟨rom.frmctr, rom.frmctrData, 0⟩
/-- Step 4, the first power-control command. -/
def pwctrATriple (rom : Rom) : Triple := ⟨rom.pwctrA, rom.pwctrAData, 0⟩
/-- Step 5, the second power-control command. -/
def pwctrBTriple (rom : Rom) : Triple := ⟨rom.pwctrB, rom.pwctrBData, 0⟩
/-- Step 6, the third power-control command. -/
def pwctrCTriple (rom : Rom) : Triple := ⟨rom.pwctrC, rom.pwctrCData, 0⟩
/-- Inversion off. -/
def invoffTriple (rom : Rom) : Triple := ⟨rom.invoff, [], 0⟩
/-- Inversion on. -/
def invonTriple (rom : Rom) : Triple := ⟨rom.invon, [], 0⟩
/-- Step 7, chosen by the inversion flag (R120). -/
def inversionTriple (rom : Rom) (invert : Bool) : Triple := if invert then invonTriple rom else invoffTriple rom
/-- Step 8, memory access control, the same byte for every rotation (R126). -/
def madctlTriple (rom : Rom) : Triple := ⟨rom.madctl, [rom.madctlData], 0⟩
/-- Step 9, pixel format. -/
def colmodTriple (rom : Rom) : Triple := ⟨rom.colmod, [rom.colmodData], 0⟩
/-- Column address set, with the window's translated columns (R122). -/
def casetTriple (rom : Rom) (cfg : DisplayConfig) (w : Window) : Triple := ⟨rom.caset, columnBytes cfg w, 0⟩
/-- Row address set, with the window's translated rows (R122). -/
def rasetTriple (rom : Rom) (cfg : DisplayConfig) (w : Window) : Triple := ⟨rom.raset, rowBytes cfg w, 0⟩
/-- Memory write; no data bytes are sent with it (R123). -/
def ramwrTriple (rom : Rom) : Triple := ⟨rom.ramwr, [], 0⟩
/-- Step 12, the positive gamma table. -/
def gmctrpTriple (rom : Rom) : Triple := ⟨rom.gmctrp, rom.gammaP.toList, 0⟩
/-- Step 13, the negative gamma table. -/
def gmctrnTriple (rom : Rom) : Triple := ⟨rom.gmctrn, rom.gammaN.toList, 0⟩
/-- Step 14, normal display on. -/
def noronTriple (rom : Rom) : Triple := ⟨rom.noron, [], tNoron⟩
/-- Step 15, display on. -/
def disponTriple (rom : Rom) : Triple := ⟨rom.dispon, [], tDispon⟩

/-! ### The sequences -/

/-- SEQ_BLPULSE (R117). -/
def seqBlPulse (cfg : DisplayConfig) : List Instr :=
  if cfg.hasBl then [.line .bl false, .wait tBlPulse, .line .bl true] else []

/-- SEQ_RESET (R118). -/
def seqReset (cfg : DisplayConfig) : List Instr :=
  if cfg.hasRst then
    [.line .rst true, .wait tRstHold, .line .rst false, .wait tRstHold, .line .rst true, .wait tRstHold]
  else []

/-- The fifteen triples of the init sequence, in order; steps 10 and 11 carry the default window (R119, R121). -/
def initTriples (rom : Rom) (cfg : DisplayConfig) : List Triple :=
  [swresetTriple rom, slpoutTriple rom, frmctrTriple rom, pwctrATriple rom, pwctrBTriple rom, pwctrCTriple rom,
    inversionTriple rom cfg.invert, madctlTriple rom, colmodTriple rom, casetTriple rom cfg (defaultWindow cfg),
    rasetTriple rom cfg (defaultWindow cfg), gmctrpTriple rom, gmctrnTriple rom, noronTriple rom, disponTriple rom]

/-- SEQ_INIT (R119). -/
def seqInit (rom : Rom) (cfg : DisplayConfig) : List Instr := (initTriples rom cfg).flatMap expand

/-- SEQ_WINDOW (R123). -/
def seqWindow (rom : Rom) (cfg : DisplayConfig) (w : Window) : List Instr :=
  [.cmd rom.caset, .dat (columnBytes cfg w), .cmd rom.raset, .dat (rowBytes cfg w), .cmd rom.ramwr]

/-- SEQ_FRAME: the whole packed frame in one DAT (R124). -/
def seqFrame (dir : RotDir) (cfg : DisplayConfig) (img : List Byte) : List Instr :=
  [.dat (encodeImage dir img (effW cfg.width cfg.height cfg.rot).toNat (effH cfg.width cfg.height cfg.rot).toNat cfg.rot)]

/-- The sequence CONSTRUCT plays (R141, R144). -/
def constructSeq (rom : Rom) (cfg : DisplayConfig) : List Instr := seqBlPulse cfg ++ seqReset cfg ++ seqInit rom cfg

/-- The sequence SET_BACKLIGHT plays (R147). -/
def seqBacklight (cfg : DisplayConfig) (on : Level) : List Instr := if cfg.hasBl then [.line .bl on] else []

end Sys2Proof.Machine
end

