-- ==== Sys2Proof/Machine/Ops.lean ====
section
/-! DEFINITION. The named operations over the state: the trace, the lines, the bus write (R104), the four micro-op actions,
error entry (R176), completion (R108) and the advance of the sequencer (R100). -/

namespace Sys2Proof.Machine

/-! ### Output -/

/-- `emit item` for a line write or a delay (00_scope.md section 4, R27). -/
def State.emit (s : State) (it : Item) : State := { s with trace := s.trace ++ [it] }

/-- The bytes of a bus write reach the wire: one `B(dc, byte)` each, and the controller takes them in (R104, R58). -/
def State.emitBytes (s : State) (dc : Level) (bytes : List Byte) : State :=
  { s with
    trace := s.trace ++ bytes.map (Item.byte dc)
    panel := bytes.foldl (fun p b => p.receive dc b) s.panel }

/-- Line Control `setOutput(line, level)` on RST or BL (R101). -/
def State.driveLine (s : State) (name : LineName) (level : Level) : State :=
  match name with
  | .rst => { s with rst := some level }
  | .bl => { s with bl := some level }

/-- Line Control on the command/data-select line; it leaves no item (R103, R27). -/
def State.select (s : State) (level : Level) : State := { s with dc := some level }

/-! ### The collaborators' answers -/

/-- The transport's answer to the next write: the first one listed, else a free value (R104; log entry 5). -/
def State.busAnswer (s : State) : BusAnswer :=
  match s.busAnswers with
  | a :: _ => a
  | [] => Config.busAnswer s.draws

/-- The state once the transport's answer is drawn. -/
def State.afterBusAnswer (s : State) : State :=
  match s.busAnswers with
  | _ :: rest => { s with busAnswers := rest }
  | [] => { s with draws := s.draws + 1 }

/-- Whether the next call of the Delay primitive returns: the first answer listed, else a free value (R102; log entry 6). -/
def State.delayAnswer (s : State) : Bool :=
  match s.delayReturns with
  | a :: _ => a
  | [] => Config.delayReturns s.draws

/-- The state once the delay's answer is drawn. -/
def State.afterDelayAnswer (s : State) : State :=
  match s.delayReturns with
  | _ :: rest => { s with delayReturns := rest }
  | [] => { s with draws := s.draws + 1 }

/-! ### Micro-op actions -/

/-- How a collaborator call ended: it returned, it failed (R104), or it never returns (R102, R104, R214). -/
inductive Progress where
  | done
  | failed
  | hung
deriving DecidableEq, Repr

/-- `BusWrite(dc, bytes)` (R104): all bytes on success, some prefix of them on failure or on a hang. -/
def State.busWrite (s : State) (dc : Level) (bytes : List Byte) : Progress × State :=
  match s.busAnswer with
  | .ok => (.done, s.afterBusAnswer.emitBytes dc bytes)
  | .fail sent => (.failed, s.afterBusAnswer.emitBytes dc (bytes.take sent))
  | .hang sent => (.hung, s.afterBusAnswer.emitBytes dc (bytes.take sent))

/-- The action of CMD: select the command level, then write one byte (R105, R103). -/
def State.sendCommand (s : State) (c : Byte) : Progress × State := (s.select cmdLevel).busWrite cmdLevel [c]

/-- The action of DAT: select the data level, then write the bytes (R106, R103). -/
def State.sendData (s : State) (bytes : List Byte) : Progress × State := (s.select dataLevel).busWrite dataLevel bytes

/-- The action of WAIT: `emit T(ms)`, then block until the Delay primitive returns (R102). -/
def State.delay (s : State) (ms : BitVec 16) : Progress × State :=
  (if s.delayAnswer then .done else .hung, (s.emit (.delay ms)).afterDelayAnswer)

/-- The action of LINE: drive the line, then `emit L(line, level)`; it always succeeds (R101, D17). The reference controller does
not react to the reset line, though the pulse resets the real one (R202): the model's choice (log entry 33). -/
def State.setLine (s : State) (name : LineName) (level : Level) : Progress × State :=
  (.done, (s.driveLine name level).emit (.line name level))

/-- Go on with the next action only when the last one returned. -/
def andThen (r : Progress × State) (f : State → Progress × State) : Progress × State :=
  match r.1 with
  | .done => f r.2
  | .failed => r
  | .hung => r

/-- The micro-ops a triple expands to, one after the other (R63). -/
def State.playTriple (s : State) (t : Triple) : Progress × State :=
  andThen
    (andThen (s.sendCommand t.command) fun s1 => if t.data.isEmpty then (.done, s1) else s1.sendData t.data)
    fun s2 => if t.postDelay = 0 then (.done, s2) else s2.delay t.postDelay

/-! ### Error entry -/

/-- `raise E`: the block goes idle, ERR and ERR_CAUSE are written, and an init error sets STATE to `Failed` (R176). -/
def State.raise (s : State) (e : ErrorKind) : State :=
  { s with
    seq := []
    seqPc := 0
    err := e.code
    errCause := e.causeCode
    state := e.stateAfter s.state }

/-- Whether the operation in flight is a DISPLAY: the frame's micro-op comes directly after the window sequence of the default
window, and in no other operation's sequence (R146, R124; log entry 13). -/
def State.playsDisplay (s : State) : Bool :=
  s.busy && decide (s.seq.dropLast = seqWindow rom s.cfg (defaultWindow s.cfg))

/-- After a failed DISPLAY the controller's write pointer stands anywhere: a free value (R26, R210, U1). After a failed write of
another operation it is where the bytes sent have left it (R58; log entry 13). -/
def State.losePointer (s : State) : State :=
  { s with
    panel := { s.panel with index := if s.playsDisplay then Config.writePointer s.draws else s.panel.index }
    draws := if s.playsDisplay then s.draws + 1 else s.draws }

/-- The failure of a micro-op: the operation ends with the error the lifecycle state selects (R107), and the controller's write
pointer is lost where it was a DISPLAY (R26). -/
def State.failUop (s : State) : State := s.losePointer.raise (failureKind s.state)

/-! ### Block reset -/

/-- Block reset, in whatever state the block is, `Ready`, `Failed` or hung among them (R200, R29): every register of the block
is as after the first power-on, the lines are released and the trace is empty; nothing is sent to the controller, which keeps its
state. The host's coming requests and the collaborators' coming answers are not the block's and stay. It is applied from outside
between steps; no step applies it (log entry 34). -/
def State.blockReset (s : State) : State :=
  { State.reset with
    panel := s.panel
    requests := s.requests
    busAnswers := s.busAnswers
    delayReturns := s.delayReturns
    draws := s.draws }

/-! ### Completion and advance -/

/-- The operation completes without error (R108). -/
def State.complete (s : State) : State := { s with err := 0, errCause := 0 }

/-- Make the lifecycle transitions due at the present position (R144, R20; log entry 29). -/
def State.lifecycle (s : State) : State :=
  { s with state := lifecycleAt (seqBlPulse s.cfg).length (seqReset s.cfg).length s.seq.length s.seqPc s.state }

/-- A micro-op has finished: `pc <- pc + 1`, the lifecycle transitions due, and completion at the end (R100, R108, R144).
With no sequence in flight there is nothing to advance (log entry 31). -/
def State.advance (s : State) : State :=
  if s.busy then
    let s1 := { s with seqPc := s.seqPc + 1 }
    if s1.busy then s1.lifecycle else s1.lifecycle.complete
  else s

/-- What follows a micro-op's action: advance (R100), failure (R107), or a hang that lasts for ever (R214). -/
def State.settle (r : Progress × State) : State :=
  match r.1 with
  | .done => r.2.advance
  | .failed => r.2.failUop
  | .hung => { r.2 with hung := true }

/-- An accepted operation gets its sequence; an empty one completes at once (R141, R145 to R147, R108). -/
def State.start (s : State) (seq : List Instr) : State :=
  let s1 := { s with seq := seq, seqPc := 0 }
  if s1.busy then s1.lifecycle else s1.lifecycle.complete

end Sys2Proof.Machine
end

