-- ==== Sys2Proof/Machine/Commands.lean ====
section
/-! DEFINITION. The seventeen controller commands (R73). The sequencer emits a controller command as its table entry: the
command byte at the command level, its parameters at the data level, its settle delay (R63, R68, R119, R123; log entry 21).
The controller takes the bytes in by R58. -/

namespace Sys2Proof.Machine

/-- SWRESET, software reset (R119 step 1, R202). -/
def execSwreset (s : State) : Host.Outcome State Fault Refusal := .next (State.settle (s.playTriple (swresetTriple rom)))

/-- SLPOUT, sleep-out (R119 step 2, R187). -/
def execSlpout (s : State) : Host.Outcome State Fault Refusal := .next (State.settle (s.playTriple (slpoutTriple rom)))

/-- FRMCTR, frame-rate control (R119 step 3). -/
def execFrmctr (s : State) : Host.Outcome State Fault Refusal := .next (State.settle (s.playTriple (frmctrTriple rom)))

/-- PWCTR_A, the first power-control command (R119 step 4). -/
def execPwctrA (s : State) : Host.Outcome State Fault Refusal := .next (State.settle (s.playTriple (pwctrATriple rom)))

/-- PWCTR_B, the second power-control command (R119 step 5). -/
def execPwctrB (s : State) : Host.Outcome State Fault Refusal := .next (State.settle (s.playTriple (pwctrBTriple rom)))

/-- PWCTR_C, the third power-control command (R119 step 6). -/
def execPwctrC (s : State) : Host.Outcome State Fault Refusal := .next (State.settle (s.playTriple (pwctrCTriple rom)))

/-- INVOFF, inversion off (R120). -/
def execInvoff (s : State) : Host.Outcome State Fault Refusal := .next (State.settle (s.playTriple (invoffTriple rom)))

/-- INVON, inversion on (R120). -/
def execInvon (s : State) : Host.Outcome State Fault Refusal := .next (State.settle (s.playTriple (invonTriple rom)))

/-- MADCTL, memory access control with its fixed byte (R119 step 8, R126). -/
def execMadctl (s : State) : Host.Outcome State Fault Refusal := .next (State.settle (s.playTriple (madctlTriple rom)))

/-- COLMOD, pixel format (R119 step 9). -/
def execColmod (s : State) : Host.Outcome State Fault Refusal := .next (State.settle (s.playTriple (colmodTriple rom)))

/-- CASET, column address set with the window's translated columns (R122, R123, R121). -/
def execCaset (s : State) : Host.Outcome State Fault Refusal := .next (State.settle (s.playTriple (casetTriple rom s.cfg s.win)))

/-- RASET, row address set with the window's translated rows (R122, R123, R121). -/
def execRaset (s : State) : Host.Outcome State Fault Refusal := .next (State.settle (s.playTriple (rasetTriple rom s.cfg s.win)))

/-- RAMWR, memory write; the pixel burst follows as data of its own (R123). -/
def execRamwr (s : State) : Host.Outcome State Fault Refusal := .next (State.settle (s.playTriple (ramwrTriple rom)))

/-- GMCTRP, the positive gamma table (R119 step 12). -/
def execGmctrp (s : State) : Host.Outcome State Fault Refusal := .next (State.settle (s.playTriple (gmctrpTriple rom)))

/-- GMCTRN, the negative gamma table (R119 step 13). -/
def execGmctrn (s : State) : Host.Outcome State Fault Refusal := .next (State.settle (s.playTriple (gmctrnTriple rom)))

/-- NORON, normal display on (R119 step 14). -/
def execNoron (s : State) : Host.Outcome State Fault Refusal := .next (State.settle (s.playTriple (noronTriple rom)))

/-- DISPON, display on (R119 step 15, R187). -/
def execDispon (s : State) : Host.Outcome State Fault Refusal := .next (State.settle (s.playTriple (disponTriple rom)))

end Sys2Proof.Machine
end

