-- ==== Sys2Proof/Machine/Formats.lean ====
section
/-! DEFINITION. The five data formats of the opcode table. The spec gives them no request and no micro-op of their own; each
has here the effect the sequencer gives one such datum: a triple is played as its expansion (R63), an address parameter and a
pixel go out as data bytes, a pixel through the stages of the codec it has still to pass (R85; log entry 22). No sequence of
the block holds one of them. -/

namespace Sys2Proof.Machine

/-- RGB888: one input pixel is encoded, as a 1 by 1 image, and its stream is sent as display data (R64, R85, R124). -/
def execRgb888 (r g b : Byte) (s : State) : Host.Outcome State Fault Refusal :=
  .next (State.settle (s.sendData (encodeImage rotDir [r, g, b] 1 1 s.cfg.rot)))

/-- PIX565: one packed pixel, `rrrrrggggggbbbbb`, is sent as its two bytes (R65, R84). -/
def execPix565 (r : BitVec 5) (g : BitVec 6) (b : BitVec 5) (s : State) : Host.Outcome State Fault Refusal :=
  .next (State.settle (s.sendData (bytes565 (r ++ g ++ b))))

/-- PIXBYTES: the two bus bytes of one packed pixel are sent in order (R66). -/
def execPixbytes (first second : Byte) (s : State) : Host.Outcome State Fault Refusal :=
  .next (State.settle (s.sendData [first, second]))

/-- ADDR4: the four data bytes of an address-set command are sent (R67). -/
def execAddr4 (b e : Word16) (s : State) : Host.Outcome State Fault Refusal :=
  .next (State.settle (s.sendData (addr4Bytes b e)))

/-- TRIPLE: the micro-ops a ROM entry expands to are played (R63). -/
def execTriple (t : Triple) (s : State) : Host.Outcome State Fault Refusal := .next (State.settle (s.playTriple t))

end Sys2Proof.Machine
end

