-- ==== Sys2Proof/Machine/HostOps.lean ====
section
/-! DEFINITION. The six host operations (43_host_operations.md). Each checks first the lifecycle, then its operands, then
writes registers, then builds its sequence and hands it to the sequencer (R140). -/

namespace Sys2Proof.Machine

/-- A request is accepted only when the block is idle; a model that admits one while it is busy refuses it (R140, V4). A
block whose collaborator hangs is busy for ever (R214). -/
def whenIdle (s : State) (answer : Host.Outcome State Fault Refusal) : Host.Outcome State Fault Refusal :=
  if s.busy || s.hung then .refused .busy else answer

/-- The lifecycle check of every operation but CONSTRUCT (R152). -/
def whenReady (s : State) (answer : Host.Outcome State Fault Refusal) : Host.Outcome State Fault Refusal :=
  whenIdle s (if s.state = .ready then answer else .next (s.raise .notReady))

/-- CONSTRUCT (R141 to R144, R151). -/
def execConstruct (q : ConstructReq) (s : State) : Host.Outcome State Fault Refusal :=
  whenIdle s
    (if s.state = .uninitialized then
      if constructValid q then
        let cfg := loadConfig q
        .next (({ s with cfg := cfg, win := defaultWindow cfg }).start (constructSeq rom cfg))
      else .next (s.raise .invalidConfig)
    else .refused .alreadyConstructed)

/-- SET_WINDOW (R145). -/
def execSetWindow (q : WindowReq) (s : State) : Host.Outcome State Fault Refusal :=
  whenReady s
    (let w := windowOf s.cfg q
    if windowValid s.cfg w then .next (({ s with win := w }).start (seqWindow rom s.cfg w))
    else .next (s.raise .invalidWindow))

/-- DISPLAY (R146); a buffer that is not `img_w * img_h * 3` bytes is no request of R61 and faults (R41, R90). -/
def execDisplay (imgW imgH : Word16) (img : List Byte) (s : State) : Host.Outcome State Fault Refusal :=
  whenReady s
    (if imgW = effW s.cfg.width s.cfg.height s.cfg.rot ∧ imgH = effH s.cfg.width s.cfg.height s.cfg.rot then
      if img.length = imgW.toNat * imgH.toNat * 3 then
        let w := defaultWindow s.cfg
        .next (({ s with win := w }).start (seqWindow rom s.cfg w ++ seqFrame rotDir s.cfg img))
      else .fault .imageAccess
    else .next (s.raise .dimensionMismatch))

/-- SET_BACKLIGHT (R147). -/
def execSetBacklight (on : Level) (s : State) : Host.Outcome State Fault Refusal :=
  whenReady s (.next (s.start (seqBacklight s.cfg on)))

/-- GET_WIDTH (R148): no sequence is built; the operation completes at once (R108; log entry 26). -/
def execGetWidth (s : State) : Host.Outcome State Fault Refusal :=
  whenReady s (.next ({ s with res := effW s.cfg.width s.cfg.height s.cfg.rot }).complete)

/-- GET_HEIGHT (R149): no sequence is built; the operation completes at once (R108; log entry 26). -/
def execGetHeight (s : State) : Host.Outcome State Fault Refusal :=
  whenReady s (.next ({ s with res := effH s.cfg.width s.cfg.height s.cfg.rot }).complete)

end Sys2Proof.Machine
end

