-- ==== Sys2Proof/Machine/MicroOps.lean ====
section
/-! DEFINITION. The four micro-ops (41_sequencer_uops.md): the action of each, then the sequencer's advance, failure or hang. -/

namespace Sys2Proof.Machine

/-- LINE (R101). -/
def execLine (name : LineName) (level : Level) (s : State) : Host.Outcome State Fault Refusal :=
  .next (State.settle (s.setLine name level))

/-- WAIT (R102). -/
def execWait (ms : BitVec 16) (s : State) : Host.Outcome State Fault Refusal := .next (State.settle (s.delay ms))

/-- CMD (R105). -/
def execCmd (c : Byte) (s : State) : Host.Outcome State Fault Refusal := .next (State.settle (s.sendCommand c))

/-- DAT (R106). -/
def execDat (bytes : List Byte) (s : State) : Host.Outcome State Fault Refusal :=
  .next (State.settle (s.sendData bytes))

end Sys2Proof.Machine
end

