-- ==== Sys2Proof/Machine/Dispatch.lean ====
section
/-! DEFINITION. One arm per instruction. -/

namespace Sys2Proof.Machine

def exec (i : Instr) (s : State) : Host.Outcome State Fault Refusal :=
  match i with
  | .construct q => Sys2Proof.Machine.execConstruct q s
  | .setWindow q => Sys2Proof.Machine.execSetWindow q s
  | .display w h img => Sys2Proof.Machine.execDisplay w h img s
  | .setBacklight on => Sys2Proof.Machine.execSetBacklight on s
  | .getWidth => Sys2Proof.Machine.execGetWidth s
  | .getHeight => Sys2Proof.Machine.execGetHeight s
  | .line name level => Sys2Proof.Machine.execLine name level s
  | .wait ms => Sys2Proof.Machine.execWait ms s
  | .cmd c => Sys2Proof.Machine.execCmd c s
  | .dat bytes => Sys2Proof.Machine.execDat bytes s
  | .swreset => Sys2Proof.Machine.execSwreset s
  | .slpout => Sys2Proof.Machine.execSlpout s
  | .frmctr => Sys2Proof.Machine.execFrmctr s
  | .pwctrA => Sys2Proof.Machine.execPwctrA s
  | .pwctrB => Sys2Proof.Machine.execPwctrB s
  | .pwctrC => Sys2Proof.Machine.execPwctrC s
  | .invoff => Sys2Proof.Machine.execInvoff s
  | .invon => Sys2Proof.Machine.execInvon s
  | .madctl => Sys2Proof.Machine.execMadctl s
  | .colmod => Sys2Proof.Machine.execColmod s
  | .caset => Sys2Proof.Machine.execCaset s
  | .raset => Sys2Proof.Machine.execRaset s
  | .ramwr => Sys2Proof.Machine.execRamwr s
  | .gmctrp => Sys2Proof.Machine.execGmctrp s
  | .gmctrn => Sys2Proof.Machine.execGmctrn s
  | .noron => Sys2Proof.Machine.execNoron s
  | .dispon => Sys2Proof.Machine.execDispon s
  | .rgb888 r g b => Sys2Proof.Machine.execRgb888 r g b s
  | .pix565 r g b => Sys2Proof.Machine.execPix565 r g b s
  | .pixbytes first second => Sys2Proof.Machine.execPixbytes first second s
  | .addr4 b e => Sys2Proof.Machine.execAddr4 b e s
  | .triple t => Sys2Proof.Machine.execTriple t s

end Sys2Proof.Machine
end

