-- ==== Sys2Proof/Decode.lean ====
section
/-! DEFINITION. The decoder, total on any bytes and refusing by name, and after it the encoder.
The spec gives each format its fields and their widths (R61 to R68) and a tag or op in the leading bits; it places no bit.
The model packs the fields without gaps in the order listed, the first field in the least significant bits, the bytes of a
record lowest first, and fills the last byte with zeros (log entries 2 and 3). -/

namespace Sys2Proof

/-- Why bytes are no instruction of the format asked for. -/
inductive DecodeError where
  /-- A host `op` other than 0x01 to 0x06 (R74(a)). -/
  | illegalOp
  /-- The bytes end before the record does. -/
  | truncated
  /-- A WAIT of 0 ms (R102: at least 1). -/
  | zeroWait
  /-- A DAT of no byte (R74(e)). -/
  | emptyDat
  /-- A command byte that is in no entry of the ROM (R74(g)). -/
  | unknownCommand
deriving DecidableEq, Repr

/-! ### Bits and bytes -/

/-- The number whose bytes, lowest first, are these. -/
def leNat : List Byte → Nat
  | [] => 0
  | b :: bs => b.toNat + 256 * leNat bs

/-- The `n` lowest bytes of a number, lowest first. -/
def toBytes : Nat → Nat → List Byte
  | 0, _ => []
  | n + 1, w => BitVec.ofNat 8 w :: toBytes n (w / 256)

/-- Fields packed from bit 0 up: each entry is a width and a value. -/
def packFields : List (Nat × Nat) → Nat
  | [] => 0
  | (width, v) :: fs => v + 2 ^ width * packFields fs

/-- The field of `width` bits in the lowest bits of `w`, and what lies above it. -/
def nextField (width w : Nat) : BitVec width × Nat :=
  (BitVec.ofNat width w, w / 2 ^ width)

/-- A one-bit field as a Bool, and what lies above it. -/
def nextBit (w : Nat) : Bool × Nat :=
  (decide (w % 2 = 1), w / 2)

/-- A `has_` bit and the 16-bit operand it announces; a bit of 0 means the operand is omitted and its value ignored (R61). -/
def nextOptional (w : Nat) : Option Word16 × Nat :=
  let has := nextBit w
  let v := nextField 16 has.2
  (if has.1 then some v.1 else none, v.2)

/-- The packed form of an optional operand. -/
def packOptional : Option Word16 → List (Nat × Nat)
  | some v => [(1, 1), (16, v.toNat)]
  | none => [(1, 0), (16, 0)]

/-- A byte count of unbounded size (R62, R75), seven bits a byte, lowest first, the top bit set on every byte but the last. -/
def encodeCountFuel : Nat → Nat → List Byte
  | 0, _ => []
  | fuel + 1, n =>
    if n < 128 then [BitVec.ofNat 8 n] else BitVec.ofNat 8 (n % 128 + 128) :: encodeCountFuel fuel (n / 128)

/-- The encoding of a byte count. -/
def encodeCount (n : Nat) : List Byte := encodeCountFuel (n + 1) n

/-- A byte count and the bytes after it. -/
def decodeCount : List Byte → Option (Nat × List Byte)
  | [] => none
  | b :: bs =>
    if b.toNat < 128 then some (b.toNat, bs)
    else (decodeCount bs).map fun r => (b.toNat - 128 + 128 * r.1, r.2)

/-! ### Decoding, one format at a time -/

/-- The operands of CONSTRUCT, from the bits above the op byte (R61). -/
def readConstruct (w : Nat) : ConstructReq :=
  let panelW := nextField 16 w
  let panelH := nextField 16 panelW.2
  let width := nextField 16 panelH.2
  let height := nextField 16 width.2
  let rotationDeg := nextField 16 height.2
  let offLeft := nextOptional rotationDeg.2
  let offTop := nextOptional offLeft.2
  let invert := nextBit offTop.2
  let spiHz := nextField 32 invert.2
  let hasRst := nextBit spiHz.2
  let hasBl := nextBit hasRst.2
  { panelW := panelW.1, panelH := panelH.1, width := width.1, height := height.1, rotationDeg := rotationDeg.1,
    offLeft := offLeft.1, offTop := offTop.1, invert := invert.1, spiHz := spiHz.1, hasRst := hasRst.1, hasBl := hasBl.1 }

/-- The operands of SET_WINDOW, from the bits above the op byte (R61). -/
def readWindow (w : Nat) : WindowReq :=
  let x0 := nextOptional w
  let y0 := nextOptional x0.2
  let x1 := nextOptional y0.2
  let y1 := nextOptional x1.2
  { x0 := x0.1, y0 := y0.1, x1 := x1.1, y1 := y1.1 }

/-- The fixed part of a record of `n` bytes as a number, or a refusal when the bytes end early. -/
def takeRecord (n : Nat) (bytes : List Byte) : Except DecodeError (Nat × List Byte) :=
  if bytes.length < n then .error .truncated else .ok (leNat (bytes.take n), bytes.drop n)

/-- A list of `n` bytes and the bytes after it. -/
def takeBytes (n : Nat) (bytes : List Byte) : Except DecodeError (List Byte × List Byte) :=
  if bytes.length < n then .error .truncated else .ok (bytes.take n, bytes.drop n)

/-- A CONSTRUCT record: 157 bits in 20 bytes. -/
def decodeConstruct (bytes : List Byte) : Except DecodeError (Instr × List Byte) :=
  (takeRecord 20 bytes).map fun r => (.construct (readConstruct (r.1 / 256)), r.2)

/-- A SET_WINDOW record: 76 bits in 10 bytes. -/
def decodeSetWindow (bytes : List Byte) : Except DecodeError (Instr × List Byte) :=
  (takeRecord 10 bytes).map fun r => (.setWindow (readWindow (r.1 / 256)), r.2)

/-- A DISPLAY record: 40 bits in 5 bytes, then `img_w * img_h * 3` bytes of image (R75). -/
def decodeDisplay (bytes : List Byte) : Except DecodeError (Instr × List Byte) :=
  (takeRecord 5 bytes).bind fun r =>
    let w := nextField 16 (r.1 / 256)
    let h := nextField 16 w.2
    (takeBytes (w.1.toNat * h.1.toNat * 3) r.2).map fun img => (.display w.1 h.1 img.1, img.2)

/-- A SET_BACKLIGHT record: 9 bits in 2 bytes. -/
def decodeSetBacklight (bytes : List Byte) : Except DecodeError (Instr × List Byte) :=
  (takeRecord 2 bytes).map fun r => (.setBacklight (nextBit (r.1 / 256)).1, r.2)

/-- Format HOSTOP: the op byte selects the operation (R71); the others select none (R74(a)). -/
def decodeHostop (bytes : List Byte) : Except DecodeError (Instr × List Byte) :=
  match bytes with
  | [] => .error .truncated
  | op :: rest =>
    if op = 0x01 then decodeConstruct bytes
    else if op = 0x02 then decodeSetWindow bytes
    else if op = 0x03 then decodeDisplay bytes
    else if op = 0x04 then decodeSetBacklight bytes
    else if op = 0x05 then .ok (.getWidth, rest)
    else if op = 0x06 then .ok (.getHeight, rest)
    else .error .illegalOp

/-- A LINE micro-op: tag, line, level, 4 bits in a byte (R62, "00lv"). -/
def decodeLine (bytes : List Byte) : Except DecodeError (Instr × List Byte) :=
  (takeRecord 1 bytes).map fun r =>
    let l := nextBit (r.1 / 4)
    (.line (if l.1 then .bl else .rst) (nextBit l.2).1, r.2)

/-- A WAIT micro-op: tag and 16 bits of ms, 18 bits in 3 bytes (R62). -/
def decodeWait (bytes : List Byte) : Except DecodeError (Instr × List Byte) :=
  (takeRecord 3 bytes).bind fun r =>
    let ms := (nextField 16 (r.1 / 4)).1
    if ms = 0 then .error .zeroWait else .ok (.wait ms, r.2)

/-- A CMD micro-op: tag and command byte, 10 bits in 2 bytes (R62). -/
def decodeCmd (bytes : List Byte) : Except DecodeError (Instr × List Byte) :=
  (takeRecord 2 bytes).map fun r => (.cmd (nextField 8 (r.1 / 4)).1, r.2)

/-- A DAT micro-op: tag in a byte, then `n`, then `n` bytes (R62, R75); `n` is at least 1 (R74(e)). -/
def decodeDat (bytes : List Byte) : Except DecodeError (Instr × List Byte) :=
  match decodeCount (bytes.drop 1) with
  | none => .error .truncated
  | some (n, rest) =>
    if n = 0 then .error .emptyDat else (takeBytes n rest).map fun d => (.dat d.1, d.2)

/-- Format UOP: the tag in the leading two bits selects the micro-op (R72). The bits above a micro-op's fields (LINE 7:4, WAIT
23:18, CMD 15:10, the tag byte of DAT 7:2), of which the spec says nothing, are ignored: the model's choice (log entry 3). -/
def decodeUop (bytes : List Byte) : Except DecodeError (Instr × List Byte) :=
  match bytes with
  | [] => .error .truncated
  | first :: _ =>
    if first.toNat % 4 = 0 then decodeLine bytes
    else if first.toNat % 4 = 1 then decodeWait bytes
    else if first.toNat % 4 = 2 then decodeCmd bytes
    else decodeDat bytes

/-- The controller command with this byte (R73); the entries with a default are looked up before the OPEN ones. -/
def commandOf (rom : Rom) (c : Byte) : Option Instr :=
  if c = rom.swreset then some .swreset
  else if c = rom.slpout then some .slpout
  else if c = rom.frmctr then some .frmctr
  else if c = rom.invoff then some .invoff
  else if c = rom.invon then some .invon
  else if c = rom.madctl then some .madctl
  else if c = rom.colmod then some .colmod
  else if c = rom.caset then some .caset
  else if c = rom.raset then some .raset
  else if c = rom.ramwr then some .ramwr
  else if c = rom.gmctrp then some .gmctrp
  else if c = rom.gmctrn then some .gmctrn
  else if c = rom.noron then some .noron
  else if c = rom.dispon then some .dispon
  else if c = rom.pwctrA then some .pwctrA
  else if c = rom.pwctrB then some .pwctrB
  else if c = rom.pwctrC then some .pwctrC
  else none

/-- Format DCS: one command byte (R68, R73). -/
def decodeDcs (rom : Rom) (bytes : List Byte) : Except DecodeError (Instr × List Byte) :=
  match bytes with
  | [] => .error .truncated
  | c :: rest =>
    match commandOf rom c with
    | some i => .ok (i, rest)
    | none => .error .unknownCommand

/-- Format RGB888: R, G, B in address order (R64). -/
def decodeRgb888 (bytes : List Byte) : Except DecodeError (Instr × List Byte) :=
  match bytes with
  | r :: g :: b :: rest => .ok (.rgb888 r g b, rest)
  | _ => .error .truncated

/-- Format PIX565: a 16-bit word, red in bits 15 to 11, green in 10 to 5, blue in 4 to 0 (R65). -/
def decodePix565 (bytes : List Byte) : Except DecodeError (Instr × List Byte) :=
  (takeRecord 2 bytes).map fun r =>
    let b := nextField 5 r.1
    let g := nextField 6 b.2
    (.pix565 (nextField 5 g.2).1 g.1 b.1, r.2)

/-- Format PIXBYTES: the byte sent first, then the byte sent second (R66). -/
def decodePixbytes (bytes : List Byte) : Except DecodeError (Instr × List Byte) :=
  match bytes with
  | first :: second :: rest => .ok (.pixbytes first second, rest)
  | _ => .error .truncated

/-- Format ADDR4: start high, start low, end high, end low (R67). -/
def decodeAddr4 (bytes : List Byte) : Except DecodeError (Instr × List Byte) :=
  match bytes with
  | sh :: sl :: eh :: el :: rest => .ok (.addr4 (sh ++ sl) (eh ++ el), rest)
  | _ => .error .truncated

/-- Format TRIPLE: command, post-delay, count of data bytes, data bytes (R63 gives the parts and no bits; log entry 3). -/
def decodeTriple (bytes : List Byte) : Except DecodeError (Instr × List Byte) :=
  (takeRecord 3 bytes).bind fun r =>
    let c := nextField 8 r.1
    match decodeCount r.2 with
    | none => .error .truncated
    | some (n, rest) =>
      (takeBytes n rest).map fun d => (.triple ⟨c.1, d.1, (nextField 16 c.2).1⟩, d.2)

/-- The decoder: the instruction these bytes begin with, read in one format, and the bytes after it. -/
def decode (rom : Rom) : Format → List Byte → Except DecodeError (Instr × List Byte)
  | .hostop, bytes => decodeHostop bytes
  | .uop, bytes => decodeUop bytes
  | .dcs, bytes => decodeDcs rom bytes
  | .rgb888, bytes => decodeRgb888 bytes
  | .pix565, bytes => decodePix565 bytes
  | .pixbytes, bytes => decodePixbytes bytes
  | .addr4, bytes => decodeAddr4 bytes
  | .triple, bytes => decodeTriple bytes

/-! ### The encoder -/

/-- The format of an instruction (R60). -/
def Instr.format : Instr → Format
  | .construct _ => .hostop
  | .setWindow _ => .hostop
  | .display _ _ _ => .hostop
  | .setBacklight _ => .hostop
  | .getWidth => .hostop
  | .getHeight => .hostop
  | .line _ _ => .uop
  | .wait _ => .uop
  | .cmd _ => .uop
  | .dat _ => .uop
  | .swreset => .dcs
  | .slpout => .dcs
  | .frmctr => .dcs
  | .pwctrA => .dcs
  | .pwctrB => .dcs
  | .pwctrC => .dcs
  | .invoff => .dcs
  | .invon => .dcs
  | .madctl => .dcs
  | .colmod => .dcs
  | .caset => .dcs
  | .raset => .dcs
  | .ramwr => .dcs
  | .gmctrp => .dcs
  | .gmctrn => .dcs
  | .noron => .dcs
  | .dispon => .dcs
  | .rgb888 _ _ _ => .rgb888
  | .pix565 _ _ _ => .pix565
  | .pixbytes _ _ => .pixbytes
  | .addr4 _ _ => .addr4
  | .triple _ => .triple

/-- The fields of CONSTRUCT in the order of R61, the op byte first. -/
def constructFields (q : ConstructReq) : List (Nat × Nat) :=
  [(8, 0x01), (16, q.panelW.toNat), (16, q.panelH.toNat), (16, q.width.toNat), (16, q.height.toNat),
    (16, q.rotationDeg.toNat)] ++ packOptional q.offLeft ++ packOptional q.offTop ++
  [(1, q.invert.toNat), (32, q.spiHz.toNat), (1, q.hasRst.toNat), (1, q.hasBl.toNat)]

/-- The fields of SET_WINDOW in the order of R61, the op byte first. -/
def windowFields (q : WindowReq) : List (Nat × Nat) :=
  [(8, 0x02)] ++ packOptional q.x0 ++ packOptional q.y0 ++ packOptional q.x1 ++ packOptional q.y1

/-- The bytes of an instruction in its own format. -/
def encode (rom : Rom) : Instr → List Byte
  | .construct q => toBytes 20 (packFields (constructFields q))
  | .setWindow q => toBytes 10 (packFields (windowFields q))
  | .display w h img => toBytes 5 (packFields [(8, 0x03), (16, w.toNat), (16, h.toNat)]) ++ img
  | .setBacklight on => toBytes 2 (packFields [(8, 0x04), (1, on.toNat)])
  | .getWidth => [0x05]
  | .getHeight => [0x06]
  | .line name level =>
    toBytes 1 (packFields [(2, 0), (1, match name with | .rst => 0 | .bl => 1), (1, level.toNat)])
  | .wait ms => toBytes 3 (packFields [(2, 1), (16, ms.toNat)])
  | .cmd c => toBytes 2 (packFields [(2, 2), (8, c.toNat)])
  | .dat bytes => 0x03 :: (encodeCount bytes.length ++ bytes)
  | .swreset => [rom.swreset]
  | .slpout => [rom.slpout]
  | .frmctr => [rom.frmctr]
  | .pwctrA => [rom.pwctrA]
  | .pwctrB => [rom.pwctrB]
  | .pwctrC => [rom.pwctrC]
  | .invoff => [rom.invoff]
  | .invon => [rom.invon]
  | .madctl => [rom.madctl]
  | .colmod => [rom.colmod]
  | .caset => [rom.caset]
  | .raset => [rom.raset]
  | .ramwr => [rom.ramwr]
  | .gmctrp => [rom.gmctrp]
  | .gmctrn => [rom.gmctrn]
  | .noron => [rom.noron]
  | .dispon => [rom.dispon]
  | .rgb888 r g b => [r, g, b]
  | .pix565 r g b => toBytes 2 (packFields [(5, b.toNat), (6, g.toNat), (5, r.toNat)])
  | .pixbytes first second => [first, second]
  | .addr4 s e =>
    [s.extractLsb' 8 8, s.extractLsb' 0 8, e.extractLsb' 8 8, e.extractLsb' 0 8]
  | .triple t =>
    toBytes 3 (packFields [(8, t.command.toNat), (16, t.postDelay.toNat)]) ++ encodeCount t.data.length ++ t.data

/-! ### The words of spec/opcode_table.json -/

/-- The format the table's word of `nbits` bits is read in. The table's rows overlap (CONSTRUCT, WAIT and SWRESET all match
0x01), so the length of the word and then its low bits decide: one byte is a host op where it is one of the six, LINE where it
is 0, else a controller command; two bytes are CMD where the tag says so and nothing stands above it, else a packed pixel;
three bytes are WAIT where the tag says so, else an input pixel; four bytes an address parameter (log entry 4). -/
def tableFormat (nbits w : Nat) : Format :=
  if nbits ≤ 8 then
    if w % 256 = 0 then .uop else if w % 256 ≤ 6 then .hostop else .dcs
  else if nbits ≤ 16 then
    if w % 4 = 2 ∧ w < 1024 then .uop else .pix565
  else if nbits ≤ 24 then
    if w % 4 = 1 then .uop else .rgb888
  else .addr4

/-- The bytes of a table word: its own, lowest first, then zeros up to the longest fixed record (20 bytes). -/
def tableBytes (nbits w : Nat) : List Byte :=
  toBytes ((nbits + 7) / 8) w ++ List.replicate 20 0

/-- The instruction the decoder reads from a table word. -/
def decodeTableWord (nbits w : Nat) : Option Instr :=
  (decode Machine.rom (tableFormat nbits w) (tableBytes nbits w)).toOption.map Prod.fst

end Sys2Proof
end

