-- ==== Sys2Proof/Machine/Fetch.lean ====
section
/-! DEFINITION. Where the next instruction comes from. A busy block takes `SEQ[SEQ_PC]` (R100); an idle block takes the host's
next request (R140, R185); with neither it waits (R201). -/

namespace Sys2Proof.Machine

/-- What a fetch finds. -/
inductive Fetched where
  /-- Nothing to do: the block is idle and no request stands, or a collaborator hangs (R201, R214). -/
  | nothing
  /-- An instruction to run, and the state it runs in. -/
  | run (i : Instr) (s : State)
  /-- Bytes that are no request (R74). -/
  | refuse (r : Refusal)
deriving DecidableEq, Repr

/-- The refusal of a host record that does not decode. -/
def refusalOf : DecodeError → Refusal
  | .illegalOp => .illegalOp
  | .truncated => .truncatedRequest
  | .zeroWait => .illegalOp
  | .emptyDat => .illegalOp
  | .unknownCommand => .illegalOp

/-- The host's next request, taken off its bytes (R61, R140). -/
def fetchRequest (s : State) : Fetched :=
  match s.requests with
  | [] => .nothing
  | _ :: _ =>
    match decode rom .hostop s.requests with
    | .ok (i, rest) => .run i { s with requests := rest }
    | .error e => .refuse (refusalOf e)

/-- The next instruction. -/
def fetch (s : State) : Fetched :=
  if s.hung then .nothing
  else if s.busy then
    match s.seq[s.seqPc]? with
    | some u => .run u s
    | none => .nothing
  else fetchRequest s

/-- The state with a table word placed where the next step fetches: a host request at the host's port of an idle block, any
other instruction as the one entry of a sequence in flight; for a word that is no instruction the host's port gets the op 0x00,
which is refused (log entries 1 and 4). -/
def placeWord (s : State) (nbits w : Nat) : State :=
  match tableFormat nbits w, decodeTableWord nbits w with
  | .hostop, _ => { s with requests := tableBytes nbits w, seq := [], seqPc := 0, hung := false }
  | _, some i => { s with seq := [i], seqPc := 0, hung := false }
  | _, none => { s with requests := [0x00], seq := [], seqPc := 0, hung := false }

end Sys2Proof.Machine
end

