-- ==== Sys2Proof/Machine/Step.lean ====
section
/-! DEFINITION. One step of the machine, and where the host places a word to be run. -/

namespace Sys2Proof.Machine

/-- One step: fetch, then run (R100, R140, R185). A step with nothing to fetch changes nothing (R201, R214; log entry 28). -/
def step (s : State) : Host.Outcome State Fault Refusal :=
  match fetch s with
  | .nothing => .next s
  | .run i s1 => exec i s1
  | .refuse r => .refused r

/-- The state with the table word `w` stored where `step` fetches its next instruction. -/
def State.withFetchWord (s : State) (nbits w : Nat) : State := placeWord s nbits w

end Sys2Proof.Machine
end

