-- ==== Sys2Proof/WellFormed.lean ====
section
/-! DEFINITION. Which instructions are well formed: the limits on operands that their types do not already carry. -/

namespace Sys2Proof

/-- The limits of R61 (the image buffer of DISPLAY has `img_w * img_h * 3` bytes), R102 (WAIT waits at least 1 ms) and
R62 (a DAT carries at least one byte, R74(e)). Every other operand is bounded by its width alone. -/
def Instr.wellFormed : Instr → Bool
  | .display w h img => img.length == w.toNat * h.toNat * 3
  | .wait ms => ms != 0
  | .dat bytes => !bytes.isEmpty
  | .construct _ => true
  | .setWindow _ => true
  | .setBacklight _ => true
  | .getWidth => true
  | .getHeight => true
  | .line _ _ => true
  | .cmd _ => true
  | .swreset => true
  | .slpout => true
  | .frmctr => true
  | .pwctrA => true
  | .pwctrB => true
  | .pwctrC => true
  | .invoff => true
  | .invon => true
  | .madctl => true
  | .colmod => true
  | .caset => true
  | .raset => true
  | .ramwr => true
  | .gmctrp => true
  | .gmctrn => true
  | .noron => true
  | .dispon => true
  | .rgb888 _ _ _ => true
  | .pix565 _ _ _ => true
  | .pixbytes _ _ => true
  | .addr4 _ _ => true
  | .triple _ => true

/-- The four micro-ops, the only instructions a sequence holds (R13, R62). -/
def Instr.isMicroOp : Instr → Bool
  | .line _ _ => true
  | .wait _ => true
  | .cmd _ => true
  | .dat _ => true
  | _ => false

end Sys2Proof
end

