-- ==== Sys2Proof/Safety.lean ====
section
/-! DEFINITION. What holds in every state a run can meet: the legality of a loaded configuration (R14, R16) and the invariant
of the block, and the notions the statements share. -/

namespace Sys2Proof.Machine

/-- The legal values of a loaded DisplayConfig (R14, R16). -/
def DisplayConfig.legal (cfg : DisplayConfig) : Bool :=
  decide (1 ≤ cfg.width.toNat) && decide (1 ≤ cfg.height.toNat) &&
  decide (cfg.offsetLeft.toNat + cfg.width.toNat ≤ cfg.panelW.toNat) &&
  decide (cfg.offsetTop.toNat + cfg.height.toNat ≤ cfg.panelH.toNat)

/-- Whether a line is configured (R22, R23). -/
def lineConfigured (cfg : DisplayConfig) : LineName → Bool
  | .rst => cfg.hasRst
  | .bl => cfg.hasBl

/-- The block's invariant: the controller's memory is canonical; `SEQ_PC` stays within `SEQ` (R13); `SEQ` holds well-formed
micro-ops only (R13, R74(e)) and no LINE of a line that is not configured (R74(d)); ERR is a code and ERR_CAUSE goes with it
(R21, R170, R176); a loaded configuration is legal (R16) and its window valid (R11); while an operation is in flight outside
`Ready`, it is CONSTRUCT and STATE is the one due at its position (R20, R144); `Resetting` and `Initializing` are busy (R20);
only a configured line is driven, and none before CONSTRUCT (R23, R29). -/
structure State.Inv (s : State) : Prop where
  memory : Memory.wf s.panel.mem = true
  position : s.seqPc ≤ s.seq.length
  microOps : ∀ u ∈ s.seq, u.isMicroOp = true ∧ u.wellFormed = true
  lineNames : ∀ name level, Instr.line name level ∈ s.seq → lineConfigured s.cfg name = true
  errors : s.err.toNat ≤ 6 ∧ s.errCause = (if s.err = 2 then 1 else 0)
  loaded : s.state ≠ .uninitialized ∨ s.busy = true → s.cfg.legal = true ∧ windowValid s.cfg s.win = true
  constructing : s.busy = true → s.state ≠ .ready →
    s.seq = constructSeq rom s.cfg ∧
    s.state = lifecycleAt (seqBlPulse s.cfg).length (seqReset s.cfg).length s.seq.length s.seqPc .uninitialized
  transient : s.state = .resetting ∨ s.state = .initializing → s.busy = true
  idleLines : s.state = .uninitialized → s.busy = false → s.dc = none ∧ s.rst = none ∧ s.bl = none
  lines : (s.rst ≠ none → s.cfg.hasRst = true) ∧ (s.bl ≠ none → s.cfg.hasBl = true)

/-- The trace items a micro-op leaves when its collaborator calls return (R101, R102, R105, R106). -/
def itemsOf : Instr → List Item
  | .line name level => [.line name level]
  | .wait ms => [.delay ms]
  | .cmd c => [.byte cmdLevel c]
  | .dat bytes => bytes.map (Item.byte dataLevel)
  | _ => []

/-- What the controller takes in of a trace item: the bytes, nothing else (R58, R68). -/
def Panel.hear (p : Panel) : Item → Panel
  | .byte dc b => p.receive dc b
  | .line _ _ => p
  | .delay _ => p

/-- The milliseconds a sequence asks the Delay primitive for (R183). -/
def totalDelay (seq : List Instr) : Nat :=
  (seq.map fun u => match u with | .wait ms => ms.toNat | _ => 0).sum

/-- The command bytes of a ROM, in the order of R116. -/
def romCommands (rom : Rom) : List Byte :=
  [rom.swreset, rom.slpout, rom.frmctr, rom.pwctrA, rom.pwctrB, rom.pwctrC, rom.invoff, rom.invon, rom.madctl, rom.colmod,
    rom.caset, rom.raset, rom.ramwr, rom.gmctrp, rom.gmctrn, rom.noron, rom.dispon]

/-- The registers no micro-op writes: the window, RES, the configuration, and the host's coming requests. -/
def Kept (s t : State) : Prop :=
  t.win = s.win ∧ t.res = s.res ∧ t.cfg = s.cfg ∧ t.requests = s.requests

/-- The sequencer moved past one finished micro-op: `SEQ_PC` is one further, ERR and ERR_CAUSE are cleared when the sequence
ends there and untouched otherwise, and STATE is the one due at the new position (R100, R108, R144). With no sequence in
flight nothing of this moves. -/
def Advanced (s t : State) : Prop :=
  t.seq = s.seq ∧ t.hung = s.hung ∧
  (s.busy = false → t.seqPc = s.seqPc ∧ t.err = s.err ∧ t.errCause = s.errCause ∧ t.state = s.state) ∧
  (s.seqPc < s.seq.length → t.seqPc = s.seqPc + 1 ∧
    t.state = lifecycleAt (seqBlPulse s.cfg).length (seqReset s.cfg).length s.seq.length (s.seqPc + 1) s.state) ∧
  (s.seqPc + 1 < s.seq.length → t.err = s.err ∧ t.errCause = s.errCause) ∧
  (s.seqPc + 1 = s.seq.length → t.err = 0 ∧ t.errCause = 0)

/-- The operation in flight ended with an error: the block is idle, and ERR, ERR_CAUSE and STATE are these (R176). -/
def EndedWith (t : State) (err cause : BitVec 3) (st : Lifecycle) : Prop :=
  t.seq = [] ∧ t.seqPc = 0 ∧ t.err = err ∧ t.errCause = cause ∧ t.state = st

/-- The controller commands of the table with the bytes, parameters and delays the spec gives them: R73 for the command
bytes, R119 for the order, parameters and delays, R122 and R123 for the two address sets. -/
def commandTable (cfg : DisplayConfig) (w : Window) : List (Instr × Triple) :=
  [(.swreset, ⟨0x01, [], 150⟩), (.slpout, ⟨0x11, [], 500⟩), (.frmctr, ⟨0xB1, Config.frmctrData, 0⟩),
    (.pwctrA, ⟨Config.pwctrA, Config.pwctrAData, 0⟩), (.pwctrB, ⟨Config.pwctrB, Config.pwctrBData, 0⟩),
    (.pwctrC, ⟨Config.pwctrC, Config.pwctrCData, 0⟩), (.invoff, ⟨0x20, [], 0⟩), (.invon, ⟨0x21, [], 0⟩),
    (.madctl, ⟨0x36, [Config.madctlData], 0⟩), (.colmod, ⟨0x3A, [0x05], 0⟩),
    (.caset, ⟨0x2A, [(w.x0 + cfg.offsetLeft).extractLsb' 8 8, (w.x0 + cfg.offsetLeft).extractLsb' 0 8,
      (w.x1 + cfg.offsetLeft).extractLsb' 8 8, (w.x1 + cfg.offsetLeft).extractLsb' 0 8], 0⟩),
    (.raset, ⟨0x2B, [(w.y0 + cfg.offsetTop).extractLsb' 8 8, (w.y0 + cfg.offsetTop).extractLsb' 0 8,
      (w.y1 + cfg.offsetTop).extractLsb' 8 8, (w.y1 + cfg.offsetTop).extractLsb' 0 8], 0⟩),
    (.ramwr, ⟨0x2C, [], 0⟩), (.gmctrp, ⟨0xE0, Config.gammaP.toList, 0⟩), (.gmctrn, ⟨0xE1, Config.gammaN.toList, 0⟩),
    (.noron, ⟨0x13, [], 10⟩), (.dispon, ⟨0x29, [], 100⟩)]

/-- The trace items of a controller command or a triple whose collaborator calls return (R63, R68). -/
def tripleItems (t : Triple) : List Item :=
  [.byte false t.command] ++ t.data.map (Item.byte true) ++ (if t.postDelay = 0 then [] else [.delay t.postDelay])

/-- The bus writes of a triple in order, each with the level of the select line: its command, then its data where it has any
(R63, R68). -/
def tripleWrites (t : Triple) : List (Level × List Byte) :=
  (false, [t.command]) :: (if t.data.isEmpty then [] else [(true, t.data)])

/-- The trace items of a bus write that gets out whole (R104). -/
def writeItems (w : Level × List Byte) : List Item := w.2.map (Item.byte w.1)

/-- The data bytes of the four data formats that are sent as data: a pixel its packed value's high and low byte, an address
parameter start high, start low, end high, end low (R64 to R67, R83, R84). -/
def FormatBytes (i : Instr) (bytes : List Byte) : Prop :=
  (∃ r g b : Byte, i = .rgb888 r g b ∧ bytes = [(pack565 r g b).extractLsb' 8 8, (pack565 r g b).extractLsb' 0 8]) ∨
  (∃ (r : BitVec 5) (g : BitVec 6) (b : BitVec 5), i = .pix565 r g b ∧
    bytes = [(r ++ g ++ b).extractLsb' 8 8, (r ++ g ++ b).extractLsb' 0 8]) ∨
  (∃ x y : Byte, i = .pixbytes x y ∧ bytes = [x, y]) ∨
  (∃ b e : Word16, i = .addr4 b e ∧
    bytes = [b.extractLsb' 8 8, b.extractLsb' 0 8, e.extractLsb' 8 8, e.extractLsb' 0 8])

/-- The instruction plays this triple: one of the seventeen controller commands with its entry, or a triple itself. -/
def PlaysTriple (s : State) (u : Instr) (e : Triple) : Prop := (u, e) ∈ commandTable s.cfg s.win ∨ u = .triple e

/-- The bus writes an instruction asks for, in order: every row of the table that sends bytes. -/
def AsksWrites (s : State) (u : Instr) (writes : List (Level × List Byte)) : Prop :=
  (∃ c, u = .cmd c ∧ writes = [(false, [c])]) ∨ (∃ bytes, u = .dat bytes ∧ writes = [(true, bytes)]) ∨
  (∃ e, PlaysTriple s u e ∧ writes = tripleWrites e) ∨ (∃ bytes, FormatBytes u bytes ∧ writes = [(true, bytes)])

end Sys2Proof.Machine
end

