-- ==== Sys2Proof/Certificates/Slice0/Obligations.lean ====
section
/-! DEFINITION. The statements for the provers. Each says which rule of spec/ it formalises. -/

open Sys2Proof Sys2Proof.Machine

/-! ### Reset, waiting, fetching -/

/-- R29, R200 (10_state.md section 13, 70_reset_and_hazards.md section 1): the values the spec gives for block reset, and
that the block is then idle; and that a step of it, with no request, answers the same state, which is the model's choice (log
entry 28). The registers the spec leaves unspecified are not mentioned. Rests on decision D20 of 92_eei_decisions.md, the
spec's own. -/
def Obligations.ResetLeavesBlockIdleAndUninitialized : Prop :=
  State.reset.state = .uninitialized ∧ State.reset.err = 0 ∧ State.reset.errCause = 0 ∧ State.reset.seq = [] ∧
  State.reset.seqPc = 0 ∧ State.reset.dc = none ∧ State.reset.rst = none ∧ State.reset.bl = none ∧
  State.reset.trace = [] ∧ State.reset.busy = false ∧ ∃ t, step State.reset = .next t ∧ t = State.reset

/-- The block's invariant holds at reset (the model's own invariant; 10_state.md sections 1 to 13). Rests on decision D20 of
92_eei_decisions.md, the spec's own. -/
def Obligations.ResetMeetsBlockInvariant : Prop := State.reset.Inv

/-- R201 in every state: an idle block with no request waiting does nothing, however often it is stepped (that a step without
a request is a step that changes nothing is the model's choice, log entry 28). -/
def Obligations.IdleBlockWithoutRequestWaits : Prop :=
  ∀ (s : State) (n : Nat), s.busy = false → s.hung = false → s.requests = [] → core.run n s = .next s

/-- R214: when a collaborator has not returned, the operation never ends, and the block accepts no host operation. That a
hang is a flag of the state, and that a step of a hung block answers the unchanged state, are the model's choices (log
entries 6 and 28). Rests on decision D25 of 92_eei_decisions.md, the spec's own. -/
def Obligations.HungBlockNeverMovesAgain : Prop :=
  ∀ (s : State), s.hung = true →
    (∀ n, core.run n s = .next s) ∧ (∀ i : Instr, i.format = .hostop → exec i s = .refused .busy)

/-- R100, R140, R185: a busy block's step is `exec` of the micro-op at `SEQ_PC`; an idle block's step is `exec` of the
request its host's next bytes decode to, with those bytes taken off. That the requests stand in the state as bytes, the next
one first, is the model's choice (log entry 1). Rests on decisions D8, D9 of 92_eei_decisions.md, the spec's own. -/
def Obligations.StepRunsTheFetchedInstruction : Prop :=
  (∀ (s : State) (u : Instr), s.hung = false → s.seq[s.seqPc]? = some u → step s = exec u s) ∧
  (∀ (s : State) (i : Instr) (rest : List Byte), s.hung = false → s.busy = false → s.requests ≠ [] →
    decode rom .hostop s.requests = .ok (i, rest) → step s = exec i { s with requests := rest })

/-- R74(a): a host op of 0x00 or 0x07 to 0xFF selects no operation and is refused; and what does decode at the host's port is
one of the six host operations. Rests on decision D8 of 92_eei_decisions.md, the spec's own. -/
def Obligations.OnlySixHostOpsAreRequests : Prop :=
  (∀ (s : State) (op : Byte) (rest : List Byte), s.hung = false → s.busy = false → s.requests = op :: rest →
    (op = 0 ∨ 7 ≤ op.toNat) → step s = .refused .illegalOp) ∧
  (∀ (bytes rest : List Byte) (i : Instr), decode rom .hostop bytes = .ok (i, rest) → i.format = .hostop)

/-- A table word placed by `withFetchWord` is what the next step runs, in a state that differs from the given one only in the
host's bytes, the sequence, its position and the hang flag (log entries 1 and 4). Rests on decisions D8, D9 of
92_eei_decisions.md, the spec's own. -/
def Obligations.PlacedWordRunsNext : Prop :=
  ∀ (s : State) (nbits w : Nat) (i : Instr), decodeTableWord nbits w = some i →
    ∃ (bytes : List Byte) (seq : List Instr),
      step (s.withFetchWord nbits w) =
        exec i { s with requests := bytes, seq := seq, seqPc := 0, hung := false } ∧ (seq = [] ∨ seq = [i])

/-! ### Encodings -/

/-- R61, R62, R67, R68, R64 to R66: words written out from the spec's encodings decode to the instructions they stand for
(the places of the fields are the model's, log entries 2 and 3). Rests on decisions D8, D9, D14 of 92_eei_decisions.md, the
spec's own. -/
def Obligations.SpecWordsDecodeToTheirInstructions : Prop :=
  decode rom .hostop [0x04, 0x01] = .ok (.setBacklight true, []) ∧
  decode rom .hostop ([0x03, 0x01, 0x00, 0x01, 0x00] ++ [0x08, 0x04, 0xFF]) = .ok (.display 1 1 [0x08, 0x04, 0xFF], []) ∧
  decode rom .uop [0x04] = .ok (.line .bl false, []) ∧ decode rom .uop [0x08] = .ok (.line .rst true, []) ∧
  decode rom .uop [0x59, 0x02, 0x00] = .ok (.wait 150, []) ∧ decode rom .uop [0xB2, 0x00] = .ok (.cmd 0x2C, []) ∧
  decode rom .uop [0x03, 0x02, 0xAA, 0xBB] = .ok (.dat [0xAA, 0xBB], []) ∧
  decode rom .dcs [0x2A] = .ok (.caset, []) ∧ decode rom .dcs [0x29] = .ok (.dispon, []) ∧
  decode rom .addr4 [0x01, 0x2C, 0x01, 0x3F] = .ok (.addr4 300 319, []) ∧
  decode rom .pix565 [0x26, 0xCB] = .ok (.pix565 25 25 6, [])

/-- R61 to R68: for every well-formed instruction of every format the decoder reads back what the encoder wrote, operand for
operand, and leaves the bytes that follow: in every ROM, where for a controller command no two command bytes of it are equal;
and in the machine's own ROM, whose OPEN power-control bytes may be those of other commands, for every instruction but a
power-control command whose byte is one of the fourteen default bytes. The three power-control bytes of that ROM are
different (R116). The places of the fields are the model's (log entries 2 and 3), and the default bytes are presumed (log
entry 18). Rests on decisions D8, D9, D14 of 92_eei_decisions.md, the spec's own. -/
def Obligations.DecodeReadsBackEveryEncoding : Prop :=
  (∀ (table : Rom) (i : Instr) (rest : List Byte), (i.format = .dcs → (romCommands table).Nodup) → i.wellFormed = true →
    decode table i.format (encode table i ++ rest) = .ok (i, rest)) ∧
  (∀ (i : Instr) (rest : List Byte), i.wellFormed = true →
    (i = .pwctrA ∨ i = .pwctrB ∨ i = .pwctrC → ∀ c ∈ encode rom i,
      c ∉ [(0x01 : Byte), 0x11, 0xB1, 0x20, 0x21, 0x36, 0x3A, 0x2A, 0x2B, 0x2C, 0xE0, 0xE1, 0x13, 0x29]) →
    decode rom i.format (encode rom i ++ rest) = .ok (i, rest)) ∧
  rom.pwctrA ≠ rom.pwctrB ∧ rom.pwctrA ≠ rom.pwctrC ∧ rom.pwctrB ≠ rom.pwctrC

/-! ### Whole-machine rules -/

/-- Every step from a state that meets the block's invariant leads to one that meets it (R11, R13, R16, R20, R21, R23,
R74(d), R74(e), R144). Rests on decisions D2, D7, D32 of 92_eei_decisions.md, the spec's own. -/
def Obligations.EveryStepKeepsBlockInvariant : Prop :=
  ∀ s t : State, s.Inv → step s = .next t → t.Inv

/-- R13, R100: in every state, a step of a busy block moves `SEQ_PC` by exactly 1 within the same `SEQ`, or ends the
operation with an error, or hangs where it is. Rests on decisions D9, D17 of 92_eei_decisions.md, the spec's own. -/
def Obligations.SequencerAdvancesByOneMicroOp : Prop :=
  ∀ (s t : State) (u : Instr), s.hung = false → s.seq[s.seqPc]? = some u → u.isMicroOp = true → step s = .next t →
    (t.seq = s.seq ∧ t.seqPc = s.seqPc + 1 ∧ t.hung = false) ∨
    (t.seq = [] ∧ t.seqPc = 0 ∧ t.err ≠ 0 ∧ t.hung = false) ∨
    (t.seq = s.seq ∧ t.seqPc = s.seqPc ∧ t.hung = true)

/-- R20: over every instruction and every state, STATE only moves forward along the chain; `Ready` and `Failed` are never
left, and `Failed` is entered only from `Resetting` or `Initializing`. Rests on decisions D7, D32 of 92_eei_decisions.md, the
spec's own. -/
def Obligations.LifecycleOnlyMovesForward : Prop :=
  ∀ s t : State, step s = .next t →
    (s.state = .ready → t.state = .ready) ∧ (s.state = .failed → t.state = .failed) ∧
    (t.state = .uninitialized → s.state = .uninitialized) ∧
    (t.state = .resetting → s.state = .uninitialized ∨ s.state = .resetting) ∧
    (t.state = .failed → s.state = .resetting ∨ s.state = .initializing ∨ s.state = .failed)

/-- R144: while CONSTRUCT plays its sequence, STATE is `Uninitialized` before position n1, `Resetting` from n1,
`Initializing` from n1 + n2, where n1 is 3 with a backlight line and n2 is 6 with a reset line, else 0; and a step that
reaches `Ready` is the one that reaches the end. That a busy block outside `Ready` is playing CONSTRUCT is read off the state
(log entry 29). Rests on decisions D7, D32 of 92_eei_decisions.md, the spec's own. -/
def Obligations.LifecycleFollowsSequencePosition : Prop :=
  ∀ s : State, s.Inv → s.busy = true → s.state ≠ .ready →
    let n1 := if s.cfg.hasBl then 3 else 0
    let n2 := if s.cfg.hasRst then 6 else 0
    (s.state = .uninitialized ↔ s.seqPc < n1) ∧
    (s.state = .resetting ↔ n1 ≤ s.seqPc ∧ s.seqPc < n1 + n2) ∧
    (s.state = .initializing ↔ n1 + n2 ≤ s.seqPc) ∧ s.state ≠ .failed ∧
    (∀ t, step s = .next t → t.state = .ready → t.seq = s.seq ∧ t.seqPc = s.seq.length)

/-- R15: in every state, a step that changes a control register is the acceptance of a valid CONSTRUCT by an idle block in
`Uninitialized`, and it loads what that request says; and once a configuration is loaded, no run of any length changes it or
leads back to an idle `Uninitialized` block, where alone a CONSTRUCT is accepted. -/
def Obligations.ConfigIsWrittenOnceByAValidConstruct : Prop :=
  (∀ s t : State, step s = .next t → t.cfg ≠ s.cfg →
    s.state = .uninitialized ∧ s.busy = false ∧
    ∃ (q : ConstructReq) (rest : List Byte), decode rom .hostop s.requests = .ok (.construct q, rest) ∧
      constructValid q = true ∧ t.cfg = loadConfig q) ∧
  (∀ (s t : State) (n : Nat), s.Inv → (s.state ≠ .uninitialized ∨ s.busy = true) → core.run n s = .next t →
    t.cfg = s.cfg ∧ (t.state ≠ .uninitialized ∨ t.busy = true))

/-- R16: a step that loads a configuration leaves one whose logical size is at most the panel's and whose offsets keep the
logical window inside the panel: CONSTRUCT checks it before loading. -/
def Obligations.LoadedConfigFitsThePanel : Prop :=
  ∀ s t : State, step s = .next t → t.cfg ≠ s.cfg →
    t.cfg.width.toNat ≤ t.cfg.panelW.toNat ∧ t.cfg.height.toNat ≤ t.cfg.panelH.toNat ∧
    t.cfg.offsetLeft.toNat + t.cfg.width.toNat ≤ t.cfg.panelW.toNat ∧
    t.cfg.offsetTop.toNat + t.cfg.height.toNat ≤ t.cfg.panelH.toNat

/-- R27, R50, R58: every step only appends to the trace, and the controller takes in exactly the bytes appended; its write
index aside where the step ends a DISPLAY with an error: it is then a free value (R26; that a DISPLAY in flight is told by
`SEQ`: log entry 13). Rests on decisions D19, D30 of 92_eei_decisions.md, the spec's own. -/
def Obligations.TraceGrowsAndPanelHearsIt : Prop :=
  ∀ s t : State, step s = .next t →
    ∃ items : List Item, t.trace = s.trace ++ items ∧
      { t.panel with index := 0 } = { items.foldl Panel.hear s.panel with index := 0 } ∧
      (s.playsDisplay = false ∨ t.seq ≠ [] → t.panel = items.foldl Panel.hear s.panel)

/-- R26, R58: nothing the block does depends on the controller: two states that differ only in it run every instruction, and
step, to the same outcome, in states that again differ only in it. Rests on decision D30 of 92_eei_decisions.md, the spec's
own. -/
def Obligations.BlockNeverReadsThePanel : Prop :=
  ∀ (s : State) (p : Panel),
    (∀ (i : Instr) (t : State), exec i s = .next t →
      ∃ t', exec i { s with panel := p } = .next t' ∧ { t' with panel := t.panel } = t) ∧
    (∀ (i : Instr) (f : Fault), exec i s = .fault f → exec i { s with panel := p } = .fault f) ∧
    (∀ (i : Instr) (r : Refusal), exec i s = .refused r → exec i { s with panel := p } = .refused r) ∧
    (∀ t, step s = .next t → ∃ t', step { s with panel := p } = .next t' ∧ { t' with panel := t.panel } = t) ∧
    (∀ r, step s = .refused r → step { s with panel := p } = .refused r)

/-- R41, R49, R90: no step faults, in any state: the codec never reads outside the image of a request, because a request
carries exactly `img_w * img_h * 3` bytes (R61). Rests on decision D29 of 92_eei_decisions.md, the spec's own. -/
def Obligations.NoStepFaults : Prop := ∀ (s : State) (f : Fault), step s ≠ .fault f

/-- R47, R58: pixel `n` of a burst goes to window-relative column `n mod w` and row `(n div w) mod h`, counted from the
window's start (adding the start, and the two cells of a pixel, are the model's, log entry 11); and in every window data
bytes change the controller's memory at most at the pixels their pairs complete, from the write index on (in a window that
ends before it starts a pixel's place is a free value, log entry 30): every other address reads as before. Rests on decision
D30 of 92_eei_decisions.md, the spec's own. -/
def Obligations.DataBytesWriteOnlyAddressedPixels : Prop :=
  (∀ (p : Panel) (n w h : Nat), p.xs.toNat + w = p.xe.toNat + 1 → p.ys.toNat + h = p.ye.toNat + 1 → 0 < w → 0 < h →
    p.column n = p.xs.toNat + n % w ∧ p.row n = p.ys.toNat + n / w % h) ∧
  (∀ (p : Panel) (bytes : List Byte) (a : Nat),
    (∀ k, k < (p.buf.length + bytes.length) / 2 →
      a ≠ pixelAddr (p.column (p.index + k)) (p.row (p.index + k)) ∧
      a ≠ pixelAddr (p.column (p.index + k)) (p.row (p.index + k)) + 1) →
    Memory.read (bytes.foldl (fun q b => q.receive dataLevel b) p).mem a = Memory.read p.mem a)

/-! ### Micro-ops -/

/-- R101: LINE drives the line named, whatever it was, and adds one trace item; it always succeeds; the other lines stay, and
so do the reference controller of R58 and every byte of its memory, which no line write reaches (log entry 33) (the position,
STATE and the cleared error as the model advances them: log entry 29; with no sequence in flight nothing advances: log entry
31). Rests on decisions D17, D30 of 92_eei_decisions.md, the spec's own. -/
def Obligations.LineDrivesTheLine : Prop :=
  ∀ (name : LineName) (level : Level) (s : State), ∃ t, exec (.line name level) s = .next t ∧
    t.trace = s.trace ++ [.line name level] ∧
    t.rst = (match name with | .rst => some level | .bl => s.rst) ∧
    t.bl = (match name with | .rst => s.bl | .bl => some level) ∧
    t.dc = s.dc ∧ t.panel = s.panel ∧ t.busAnswers = s.busAnswers ∧ t.delayReturns = s.delayReturns ∧
    t.draws = s.draws ∧ Kept s t ∧ Advanced s t

/-- R102: WAIT adds `T(ms)`, and nothing else happens while the Delay primitive runs; one that returns completes the
micro-op (the position, STATE and the cleared error as the model advances them: log entry 29; with no sequence in flight
nothing advances: log entry 31); one that never returns is a hang: the block stays where it is, for ever (the flag and the
unchanged step are the model's, log entries 6 and 28). -/
def Obligations.WaitAddsItsDelayOrHangs : Prop :=
  ∀ (ms : BitVec 16) (s : State) (more : List Bool),
    (s.delayReturns = true :: more →
      ∃ t, exec (.wait ms) s = .next t ∧ t.trace = s.trace ++ [.delay ms] ∧ t.delayReturns = more ∧
        t.rst = s.rst ∧ t.bl = s.bl ∧ t.dc = s.dc ∧ t.panel = s.panel ∧ t.busAnswers = s.busAnswers ∧ t.draws = s.draws ∧
        Kept s t ∧ Advanced s t) ∧
    (s.delayReturns = false :: more →
      ∃ t, exec (.wait ms) s = .next t ∧
        t = { s with trace := s.trace ++ [.delay ms], delayReturns := more, hung := true } ∧
        ∀ n, core.run n t = .next t)

/-- R103, R104, R105, R58: CMD drives the select line to the command level (0, log entry 17) and sends one byte; no byte of
the memory of R58's reference controller changes, whatever the command, software reset among them (the model's choice, log
entry 33) (the position, STATE and the cleared error as the model advances them: log entry 29; with no sequence in flight
nothing advances: log entry 31). Rests on decisions D5, D30 of 92_eei_decisions.md, the spec's own. -/
def Obligations.CmdSendsOneCommandByte : Prop :=
  ∀ (c : Byte) (s : State) (more : List BusAnswer), s.busAnswers = .ok :: more →
    ∃ t, exec (.cmd c) s = .next t ∧ t.trace = s.trace ++ [.byte false c] ∧ t.dc = some false ∧
      t.rst = s.rst ∧ t.bl = s.bl ∧ t.busAnswers = more ∧ t.delayReturns = s.delayReturns ∧ t.draws = s.draws ∧
      t.panel = s.panel.receive false c ∧ (∀ a, Memory.read t.panel.mem a = Memory.read s.panel.mem a) ∧
      Kept s t ∧ Advanced s t

/-- R103, R104, R106, R58: DAT drives the select line to the data level (1, log entry 17) and sends its bytes in order; the
memory of R58's reference controller stays unless it is open for pixels (log entry 12) (the position, STATE and the cleared
error as the model advances them: log entry 29; with no sequence in flight nothing advances: log entry 31). Rests on
decisions D5, D30 of 92_eei_decisions.md, the spec's own. -/
def Obligations.DatSendsItsBytesAsData : Prop :=
  ∀ (bytes : List Byte) (s : State) (more : List BusAnswer), s.busAnswers = .ok :: more →
    ∃ t, exec (.dat bytes) s = .next t ∧ t.trace = s.trace ++ bytes.map (Item.byte true) ∧ t.dc = some true ∧
      t.rst = s.rst ∧ t.bl = s.bl ∧ t.busAnswers = more ∧ t.delayReturns = s.delayReturns ∧ t.draws = s.draws ∧
      t.panel = bytes.foldl (fun p b => p.receive true b) s.panel ∧
      (s.panel.isOpen = false → ∀ a, Memory.read t.panel.mem a = Memory.read s.panel.mem a) ∧
      Kept s t ∧ Advanced s t

/-- R26, R73, R104, R107, R171, R172, R181: of every instruction that writes to the bus (CMD, DAT, the seventeen controller
commands, a triple, the four data formats; that the last three are one instruction each is the model's choice, log entries 21
and 22), the write that fails, whichever of its writes it is, leaves exactly a prefix of its bytes after the writes before
it, and ends the operation: InitError with cause TransportError and `Failed` while resetting or initializing, TransportError
in `Ready`, which stays `Ready`. The controller has taken in exactly the bytes sent, its write index aside where the
operation is a DISPLAY: it is then a free value (R26). A DISPLAY in flight is read off `SEQ`, the model's reading (log entry
13): every position of its six micro-ops (R146, R124) is read as one, and none of a SET_WINDOW's, of a CONSTRUCT's, of a
SET_BACKLIGHT's, or of an idle block; the select levels are those of log entry 17, and the bytes of a controller command are
the ROM's, the spec's presumed defaults (log entry 18) where it gives any. A failure in `Uninitialized` or `Failed`, which no
run meets (log entry 15), is left out. Of a window that is not valid, which R122 leaves out, the address parameters are the
low 16 bits of the sums, the model's choice (log entry 35). Rests on decisions D5, D10, D14, D16, D17, D31 of
92_eei_decisions.md, the spec's own. -/
def Obligations.FailedBusWriteEndsTheOperation : Prop :=
  (∀ (u : Instr) (before later : List (Level × List Byte)) (dc : Level) (bytes : List Byte) (sent : Nat) (s : State)
    (more : List BusAnswer),
    AsksWrites s u (before ++ (dc, bytes) :: later) →
    s.busAnswers = List.replicate before.length .ok ++ .fail sent :: more →
    (s.state = .resetting ∨ s.state = .initializing ∨ s.state = .ready) →
    ∃ t, exec u s = .next t ∧ t.trace = s.trace ++ before.flatMap writeItems ++ writeItems (dc, bytes.take sent) ∧
      t.dc = some dc ∧
      EndedWith t (if s.state = .ready then 1 else 2) (if s.state = .ready then 0 else 1)
        (if s.state = .ready then .ready else .failed) ∧
      t.rst = s.rst ∧ t.bl = s.bl ∧ t.busAnswers = more ∧ t.delayReturns = s.delayReturns ∧ t.hung = s.hung ∧
      { t.panel with index := 0 } =
        { (before.flatMap writeItems ++ writeItems (dc, bytes.take sent)).foldl Panel.hear s.panel with index := 0 } ∧
      (s.playsDisplay = false →
        t.panel = (before.flatMap writeItems ++ writeItems (dc, bytes.take sent)).foldl Panel.hear s.panel) ∧ Kept s t) ∧
  (∀ (s : State) (w : Window) (img : List Byte) (on : Level) (pc : Nat),
    (pc < 6 → ({ s with seq := seqWindow rom s.cfg (defaultWindow s.cfg) ++ seqFrame rotDir s.cfg img, seqPc := pc } :
      State).playsDisplay = true) ∧
    ({ s with seq := seqWindow rom s.cfg w, seqPc := pc } : State).playsDisplay = false ∧
    ({ s with seq := constructSeq rom s.cfg, seqPc := pc } : State).playsDisplay = false ∧
    ({ s with seq := seqBacklight s.cfg on, seqPc := pc } : State).playsDisplay = false ∧
    (s.busy = false → s.playsDisplay = false))

/-- R73, R102, R104, R214: of every instruction that writes to the bus, the write the transport never answers hangs the block
with the writes before it and some prefix of its own bytes sent: it stays where it is in its sequence, with no error; and the
settle delay of a controller command or triple that never returns hangs it with all its bytes and the delay's item out. That
a hanging write may have sent a prefix, and the flag, are the model's (log entries 5 and 6), as is that a command, a triple
and a data format are one instruction each (log entries 21 and 22); the select levels are those of log entry 17, and the
bytes of a controller command are the ROM's, the spec's presumed defaults (log entry 18) where it gives any. Of a window that
is not valid, which R122 leaves out, the address parameters are the low 16 bits of the sums, the model's choice (log entry
35). Rests on decisions D5, D14 of 92_eei_decisions.md, the spec's own. -/
def Obligations.UnansweredBusWriteHangs : Prop :=
  (∀ (u : Instr) (before later : List (Level × List Byte)) (dc : Level) (bytes : List Byte) (sent : Nat) (s : State)
    (more : List BusAnswer),
    AsksWrites s u (before ++ (dc, bytes) :: later) →
    s.busAnswers = List.replicate before.length .ok ++ .hang sent :: more →
    exec u s = .next
      { s with
        dc := some dc
        trace := s.trace ++ before.flatMap writeItems ++ writeItems (dc, bytes.take sent)
        panel := (before.flatMap writeItems ++ writeItems (dc, bytes.take sent)).foldl Panel.hear s.panel
        busAnswers := more
        hung := true }) ∧
  (∀ (u : Instr) (e : Triple) (s : State) (bs : List BusAnswer) (ds : List Bool),
    PlaysTriple s u e → e.postDelay ≠ 0 →
    s.busAnswers = List.replicate (tripleWrites e).length .ok ++ bs → s.delayReturns = false :: ds →
    exec u s = .next
      { s with
        dc := some (!e.data.isEmpty)
        trace := s.trace ++ tripleItems e
        panel := (tripleItems e).foldl Panel.hear s.panel
        busAnswers := bs
        delayReturns := ds
        hung := true })

/-! ### Controller commands and data formats -/

/-- R58, R63, R68, R73, R116, R119, R122, R123, R126 and the settle delays of R183: each of the seventeen controller commands
sends its byte at the command level, then its parameters at the data level, then waits its settle delay, in one instruction
(that a command is one instruction is the model's choice, log entry 21; the byte values are the spec's defaults, log entry
18; the levels are those of log entry 17). No byte of the memory of R58's reference controller changes, whether or not it was
open for pixels (that an address set closes the burst before its parameters come is the model's reading, log entry 12; that
software reset leaves the memory is its choice, log entry 33), except that nothing is known of the power-control commands,
whose bytes are OPEN (the position, STATE and the cleared error as the model advances them: log entry 29; with no sequence in
flight nothing advances: log entry 31). Of a window that is not valid, which R122 leaves out, the address parameters are the
low 16 bits of the sums, the model's choice (log entry 35). Rests on decisions D5, D14, D30 of 92_eei_decisions.md, the
spec's own. -/
def Obligations.ControllerCommandsSendTheirEntries : Prop :=
  ∀ (s : State) (i : Instr) (e : Triple) (bs : List BusAnswer) (ds : List Bool),
    (i, e) ∈ commandTable s.cfg s.win → s.busAnswers = .ok :: .ok :: bs → s.delayReturns = true :: ds →
    ∃ t, exec i s = .next t ∧ t.trace = s.trace ++ tripleItems e ∧
      t.panel = (tripleItems e).foldl Panel.hear s.panel ∧ t.dc = some (!e.data.isEmpty) ∧
      t.rst = s.rst ∧ t.bl = s.bl ∧ t.draws = s.draws ∧
      t.busAnswers = (if e.data.isEmpty then .ok :: bs else bs) ∧
      t.delayReturns = (if e.postDelay = 0 then true :: ds else ds) ∧
      (i ≠ .pwctrA → i ≠ .pwctrB → i ≠ .pwctrC →
        ∀ a, Memory.read t.panel.mem a = Memory.read s.panel.mem a) ∧
      Kept s t ∧ Advanced s t

/-- R58: the controller's reaction to the three commands it knows, with their parameters: CASET and RASET set its columns and
rows from the four data bytes (that the instruction sends them with the command is the model's choice, log entry 21), RAMWR
opens it for pixels at index 0, and every other command of the table whose byte the spec gives closes it (that an address set
closes it too is the model's reading, log entry 12; that software reset does no more, log entry 33). The three power-control
commands, whose bytes are OPEN, are left out. Of a window that is not valid, which R122 leaves out, the address parameters
are the low 16 bits of the sums, the model's choice (log entry 35). Rests on decisions D14, D30 of 92_eei_decisions.md, the
spec's own. -/
def Obligations.ControllerReactsToItsCommands : Prop :=
  ∀ (s : State) (bs : List BusAnswer) (ds : List Bool), s.busAnswers = .ok :: .ok :: bs → s.delayReturns = true :: ds →
    (∃ t, exec .caset s = .next t ∧ t.panel.isOpen = false ∧ t.panel.xs = s.win.x0 + s.cfg.offsetLeft ∧
      t.panel.xe = s.win.x1 + s.cfg.offsetLeft ∧ t.panel.ys = s.panel.ys ∧ t.panel.ye = s.panel.ye) ∧
    (∃ t, exec .raset s = .next t ∧ t.panel.isOpen = false ∧ t.panel.ys = s.win.y0 + s.cfg.offsetTop ∧
      t.panel.ye = s.win.y1 + s.cfg.offsetTop ∧ t.panel.xs = s.panel.xs ∧ t.panel.xe = s.panel.xe) ∧
    (∃ t, exec .ramwr s = .next t ∧ t.panel.isOpen = true ∧ t.panel.index = 0) ∧
    (∀ i ∈ [Instr.swreset, .slpout, .frmctr, .invoff, .invon, .madctl, .colmod, .gmctrp, .gmctrn, .noron, .dispon],
      ∃ t, exec i s = .next t ∧ t.panel.isOpen = false ∧ t.panel.xs = s.panel.xs ∧ t.panel.xe = s.panel.xe ∧
        t.panel.ys = s.panel.ys ∧ t.panel.ye = s.panel.ye)

/-- R63: a triple sends its command, then its data when there is any, then waits when its delay is not 0: the trace items are
those of the micro-ops it expands to. That this is one instruction is the model's choice (log entry 22); the levels are those
of log entry 17 (the position, STATE and the cleared error as the model advances them: log entry 29; with no sequence in
flight nothing advances: log entry 31). Rests on decision D5 of 92_eei_decisions.md, the spec's own. -/
def Obligations.TripleIsPlayedAsItsExpansion : Prop :=
  ∀ (e : Triple) (s : State) (bs : List BusAnswer) (ds : List Bool),
    s.busAnswers = .ok :: .ok :: bs → s.delayReturns = true :: ds →
    ∃ t, exec (.triple e) s = .next t ∧ t.trace = s.trace ++ (expand e).flatMap itemsOf ∧
      t.panel = (tripleItems e).foldl Panel.hear s.panel ∧ t.dc = some (!e.data.isEmpty) ∧
      t.rst = s.rst ∧ t.bl = s.bl ∧ t.draws = s.draws ∧ Kept s t ∧ Advanced s t

/-- R58, R64 to R67, R83, R84: what each of the four remaining data formats sends as data (that one datum is sent so is the
model's choice, log entry 22; the data level is that of log entry 17): an input pixel its packed value's high and low byte, a
packed pixel likewise, a pixel's two bytes in order, an address parameter start high, start low, end high, end low; the
memory of R58's reference controller stays unless it is open for pixels (log entry 12; the position, STATE and the cleared
error as the model advances them: log entry 29; with no sequence in flight nothing advances: log entry 31). Rests on
decisions D5, D30 of 92_eei_decisions.md, the spec's own. -/
def Obligations.DataFormatsSendTheirBytes : Prop :=
  ∀ (s : State) (bs : List BusAnswer) (i : Instr) (bytes : List Byte), s.busAnswers = .ok :: bs →
    ((∃ r g b : Byte, i = .rgb888 r g b ∧
        bytes = [(pack565 r g b).extractLsb' 8 8, (pack565 r g b).extractLsb' 0 8]) ∨
      (∃ (r : BitVec 5) (g : BitVec 6) (b : BitVec 5), i = .pix565 r g b ∧
        bytes = [(r ++ g ++ b).extractLsb' 8 8, (r ++ g ++ b).extractLsb' 0 8]) ∨
      (∃ x y : Byte, i = .pixbytes x y ∧ bytes = [x, y]) ∨
      (∃ b e : Word16, i = .addr4 b e ∧
        bytes = [b.extractLsb' 8 8, b.extractLsb' 0 8, e.extractLsb' 8 8, e.extractLsb' 0 8])) →
    ∃ t, exec i s = .next t ∧ t.trace = s.trace ++ bytes.map (Item.byte true) ∧ t.dc = some true ∧
      t.rst = s.rst ∧ t.bl = s.bl ∧ t.busAnswers = bs ∧ t.delayReturns = s.delayReturns ∧ t.draws = s.draws ∧
      t.panel = bytes.foldl (fun p b => p.receive true b) s.panel ∧
      (s.panel.isOpen = false → ∀ a, Memory.read t.panel.mem a = Memory.read s.panel.mem a) ∧
      Kept s t ∧ Advanced s t

/-! ### Host operations -/

/-- R176: error entry, whichever the error: the block is idle, ERR holds the error's code and ERR_CAUSE 1 under an init error
and 0 otherwise, an init error alone sets STATE to `Failed`, and nothing else changes: nothing is saved. -/
def Obligations.ErrorEntryWritesErrAndIdles : Prop :=
  ∀ (s : State) (e : ErrorKind),
    s.raise e =
      { s with
        seq := []
        seqPc := 0
        err := e.code
        errCause := if e = .initError then 1 else 0
        state := if e = .initError then .failed else s.state } ∧
    (s.raise e).busy = false

/-- R140: no host operation is accepted while one is in flight (a model that admits such a request refuses it, V4). Rests on
decision D25 of 92_eei_decisions.md, the spec's own. -/
def Obligations.BusyBlockRefusesRequests : Prop :=
  ∀ (s : State) (i : Instr), s.busy = true → i.format = .hostop → exec i s = .refused .busy

/-- R141, R142, R143, R144: a CONSTRUCT in `Uninitialized` that passes every line of the validation loads the configuration
with its offsets given or centred, sets the default window, and starts the construction sequence; nothing else changes. Rests
on decisions D7, D15, D33 of 92_eei_decisions.md, the spec's own. -/
def Obligations.ValidConstructLoadsAndStarts : Prop :=
  ∀ (q : ConstructReq) (s : State) (k : BitVec 2), s.busy = false → s.hung = false → s.state = .uninitialized →
    q.rotationDeg.toNat = 90 * k.toNat →
    (1 ≤ q.panelW.toNat ∧ 1 ≤ q.panelH.toNat ∧ 1 ≤ q.width.toNat ∧ 1 ≤ q.height.toNat) →
    (q.width.toNat ≤ q.panelW.toNat ∧ q.height.toNat ≤ q.panelH.toNat) →
    (∀ o, q.offLeft = some o → o.toNat + q.width.toNat ≤ q.panelW.toNat) →
    (∀ o, q.offTop = some o → o.toNat + q.height.toNat ≤ q.panelH.toNat) →
    ∃ ol ot : Word16,
      ol.toNat = (match q.offLeft with | some o => o.toNat | none => (q.panelW.toNat - q.width.toNat) / 2) ∧
      ot.toNat = (match q.offTop with | some o => o.toNat | none => (q.panelH.toNat - q.height.toNat) / 2) ∧
      exec (.construct q) s = .next
        { s with
          cfg :=
            { panelW := q.panelW, panelH := q.panelH, width := q.width, height := q.height, rot := k, offsetLeft := ol,
              offsetTop := ot, invert := q.invert, spiHz := q.spiHz, hasRst := q.hasRst, hasBl := q.hasBl }
          win := { x0 := 0, y0 := 0, x1 := q.width - 1, y1 := q.height - 1 }
          seq := constructSeq rom (loadConfig q)
          seqPc := 0
          state := if q.hasBl then .uninitialized else if q.hasRst then .resetting else .initializing }

/-- R142, R173: a CONSTRUCT that fails a line of the validation raises InvalidConfig: no control register, no line and no
trace item is written, STATE stays `Uninitialized`; the state but for ERR, ERR_CAUSE and the emptied sequence is as before.
Rests on decisions D3, D10, D15 of 92_eei_decisions.md, the spec's own. -/
def Obligations.InvalidConstructRaisesInvalidConfig : Prop :=
  ∀ (q : ConstructReq) (s : State), s.busy = false → s.hung = false → s.state = .uninitialized →
    (q.rotationDeg.toNat ∉ [0, 90, 180, 270] ∨
      (q.panelW = 0 ∨ q.panelH = 0 ∨ q.width = 0 ∨ q.height = 0) ∨
      (q.panelW.toNat < q.width.toNat ∨ q.panelH.toNat < q.height.toNat) ∨
      (∃ o, q.offLeft = some o ∧ q.panelW.toNat < o.toNat + q.width.toNat) ∨
      (∃ o, q.offTop = some o ∧ q.panelH.toNat < o.toNat + q.height.toNat)) →
    exec (.construct q) s = .next { s with seq := [], seqPc := 0, err := 3, errCause := 0 }

/-- R151: a CONSTRUCT outside `Uninitialized` has no meaning and is refused. Rests on decision D21 of 92_eei_decisions.md,
the spec's own. -/
def Obligations.SecondConstructIsRefused : Prop :=
  ∀ (q : ConstructReq) (s : State), s.busy = false → s.hung = false → s.state ≠ .uninitialized →
    exec (.construct q) s = .refused .alreadyConstructed

/-- R175, R152, R178: each of the five other operations raises NotReady in every state but `Ready`, whatever its operands,
and writes no register but ERR and ERR_CAUSE, the sequence being emptied by error entry (R176; log entry 14); no trace item
is added. The code 5, that NotReady is raised in `Failed` too, and that the accessors raise it, are decisions of the spec's
own. Rests on decisions D7, D10, D24 of 92_eei_decisions.md, the spec's own. -/
def Obligations.OperationsOutsideReadyRaiseNotReady : Prop :=
  ∀ (i : Instr) (s : State), i.format = .hostop → (∀ q, i ≠ .construct q) → s.busy = false → s.hung = false →
    s.state ≠ .ready → exec i s = .next { s with seq := [], seqPc := 0, err := 5, errCause := 0 }

/-- R145, R122, R123: SET_WINDOW in `Ready` with a window that is valid after defaulting writes WIN and starts the five
micro-ops of the window sequence with the offsets added to all four coordinates; nothing else changes. Rests on decisions D2,
D14, D23 of 92_eei_decisions.md, the spec's own. -/
def Obligations.SetWindowStartsWindowSequence : Prop :=
  ∀ (q : WindowReq) (s : State) (a0 b0 a1 b1 : Word16), s.busy = false → s.hung = false → s.state = .ready →
    a0 = q.x0.getD 0 → b0 = q.y0.getD 0 → a1 = q.x1.getD (s.cfg.width - 1) → b1 = q.y1.getD (s.cfg.height - 1) →
    a0.toNat ≤ a1.toNat → b0.toNat ≤ b1.toNat →
    a1.toNat + s.cfg.offsetLeft.toNat < s.cfg.panelW.toNat → b1.toNat + s.cfg.offsetTop.toNat < s.cfg.panelH.toNat →
    exec (.setWindow q) s = .next
      { s with
        win := { x0 := a0, y0 := b0, x1 := a1, y1 := b1 }
        seq :=
          [.cmd 0x2A, .dat (addr4Bytes (a0 + s.cfg.offsetLeft) (a1 + s.cfg.offsetLeft)),
            .cmd 0x2B, .dat (addr4Bytes (b0 + s.cfg.offsetTop) (b1 + s.cfg.offsetTop)), .cmd 0x2C]
        seqPc := 0 }

/-- R177, R178: a SET_WINDOW in `Ready` whose window breaks the invariant raises InvalidWindow with no register write but ERR
and ERR_CAUSE (the sequence being emptied, R176), no trace item and no draw from the bus. At a WIDTH or HEIGHT of 0, which no
loaded configuration has, the default end is 65535, the model's choice (log entry 35). Rests on decisions D10, D11, D26 of
92_eei_decisions.md, the spec's own. -/
def Obligations.BadWindowRaisesInvalidWindow : Prop :=
  ∀ (q : WindowReq) (s : State) (a0 b0 a1 b1 : Word16), s.busy = false → s.hung = false → s.state = .ready →
    a0 = q.x0.getD 0 → b0 = q.y0.getD 0 → a1 = q.x1.getD (s.cfg.width - 1) → b1 = q.y1.getD (s.cfg.height - 1) →
    (a1.toNat < a0.toNat ∨ b1.toNat < b0.toNat ∨ s.cfg.panelW.toNat ≤ a1.toNat + s.cfg.offsetLeft.toNat ∨
      s.cfg.panelH.toNat ≤ b1.toNat + s.cfg.offsetTop.toNat) →
    exec (.setWindow q) s = .next { s with seq := [], seqPc := 0, err := 6, errCause := 0 }

/-- R146, R124: DISPLAY in `Ready` of an image of the effective size writes the default window and starts the window sequence
followed by one DAT with the whole encoded frame; nothing else changes. In a configuration that CONSTRUCT would not load the
coordinates of the default window are the low 16 bits, the model's choice (log entry 35). Rests on decisions D4, D12, D14 of
92_eei_decisions.md, the spec's own. -/
def Obligations.DisplayStartsWindowAndFrame : Prop :=
  ∀ (imgW imgH : Word16) (img : List Byte) (s : State), s.busy = false → s.hung = false → s.state = .ready →
    imgW = effW s.cfg.width s.cfg.height s.cfg.rot → imgH = effH s.cfg.width s.cfg.height s.cfg.rot →
    img.length = imgW.toNat * imgH.toNat * 3 →
    exec (.display imgW imgH img) s = .next
      { s with
        win := { x0 := 0, y0 := 0, x1 := s.cfg.width - 1, y1 := s.cfg.height - 1 }
        seq :=
          [.cmd 0x2A, .dat (addr4Bytes (0 + s.cfg.offsetLeft) (s.cfg.width - 1 + s.cfg.offsetLeft)),
            .cmd 0x2B, .dat (addr4Bytes (0 + s.cfg.offsetTop) (s.cfg.height - 1 + s.cfg.offsetTop)), .cmd 0x2C,
            .dat (encodeImage .ccw img imgW.toNat imgH.toNat s.cfg.rot)]
        seqPc := 0 }

/-- R174: an image that is not exactly `EFFW` by `EFFH` raises DimensionMismatch before any register is written but ERR and
ERR_CAUSE (the sequence being emptied, R176) and before any byte is sent. Rests on decisions D10, D12 of 92_eei_decisions.md,
the spec's own. -/
def Obligations.WrongImageSizeRaisesDimensionMismatch : Prop :=
  ∀ (imgW imgH : Word16) (img : List Byte) (s : State), s.busy = false → s.hung = false → s.state = .ready →
    (imgW ≠ effW s.cfg.width s.cfg.height s.cfg.rot ∨ imgH ≠ effH s.cfg.width s.cfg.height s.cfg.rot) →
    exec (.display imgW imgH img) s = .next { s with seq := [], seqPc := 0, err := 4, errCause := 0 }

/-- R41, R90: a DISPLAY of the right size whose buffer is not `img_w * img_h * 3` bytes faults, since there is nothing
outside IMG; and no decoded request is one (the fault is the model's choice, log entry 23). Rests on decision D29 of
92_eei_decisions.md, the spec's own. -/
def Obligations.DisplayOfWrongBufferFaults : Prop :=
  (∀ (imgW imgH : Word16) (img : List Byte) (s : State), s.busy = false → s.hung = false → s.state = .ready →
    imgW = effW s.cfg.width s.cfg.height s.cfg.rot → imgH = effH s.cfg.width s.cfg.height s.cfg.rot →
    img.length ≠ imgW.toNat * imgH.toNat * 3 → exec (.display imgW imgH img) s = .fault .imageAccess) ∧
  (∀ (bytes rest img : List Byte) (imgW imgH : Word16),
    decode rom .hostop bytes = .ok (.display imgW imgH img, rest) → img.length = imgW.toNat * imgH.toNat * 3)

/-- R147: SET_BACKLIGHT in `Ready` starts one LINE to the level asked for when a backlight line exists, and otherwise
completes at once with nothing written but ERR, ERR_CAUSE and the empty sequence. Rests on decision D22 of
92_eei_decisions.md, the spec's own. -/
def Obligations.SetBacklightDrivesConfiguredLine : Prop :=
  ∀ (on : Level) (s : State), s.busy = false → s.hung = false → s.state = .ready →
    exec (.setBacklight on) s = .next
      (if s.cfg.hasBl then { s with seq := [.line .bl on], seqPc := 0 }
      else { s with seq := [], seqPc := 0, err := 0, errCause := 0 })

/-- R148, R149: GET_WIDTH and GET_HEIGHT in `Ready` put the effective dimension in RES, swapped at one and three
quarter-turns (R87), clear ERR and ERR_CAUSE (R108), and add no trace item; that SEQ and SEQ_PC stay as they are is the
model's reading (log entry 26); nothing else changes. In every other state they raise NotReady (log entry 14). The rules'
examples. Rests on decisions D10, D24 of 92_eei_decisions.md, the spec's own. -/
def Obligations.AccessorsReportEffectiveSize : Prop :=
  (∀ s : State, s.busy = false → s.hung = false → s.state = .ready →
    exec .getWidth s = .next
      { s with res := if s.cfg.rot = 1 ∨ s.cfg.rot = 3 then s.cfg.height else s.cfg.width, err := 0, errCause := 0 } ∧
    exec .getHeight s = .next
      { s with res := if s.cfg.rot = 1 ∨ s.cfg.rot = 3 then s.cfg.width else s.cfg.height, err := 0, errCause := 0 }) ∧
  (∀ s : State, s.busy = false → s.hung = false → s.state ≠ .ready →
    exec .getWidth s = .next { s with seq := [], seqPc := 0, err := 5, errCause := 0 } ∧
    exec .getHeight s = .next { s with seq := [], seqPc := 0, err := 5, errCause := 0 }) ∧
  effW 128 160 3 = 160 ∧ effH 128 160 3 = 128 ∧ effH 128 160 2 = 160

/-! ### Sequences -/

/-- R117, R118: the backlight pulse and the reset pulse, each empty when its line is not configured. Rests on decisions D6,
D28 of 92_eei_decisions.md, the spec's own. -/
def Obligations.PulsesAreEmptyWithoutTheirLine : Prop :=
  ∀ cfg : DisplayConfig,
    (cfg.hasBl = true → seqBlPulse cfg = [.line .bl false, .wait 100, .line .bl true]) ∧
    (cfg.hasBl = false → seqBlPulse cfg = []) ∧
    (cfg.hasRst = true → seqReset cfg =
      [.line .rst true, .wait 500, .line .rst false, .wait 500, .line .rst true, .wait 500]) ∧
    (cfg.hasRst = false → seqReset cfg = [])

/-- R119, R120, R121: the init sequence is the expansion of the fifteen triples in this order; with every OPEN payload
non-empty it has 29 micro-ops, and its waits sum to 760 ms. In a configuration that CONSTRUCT would not load the coordinates
of the default window are the low 16 bits, the model's choice (log entry 35). Rests on decision D13 of 92_eei_decisions.md,
the spec's own. -/
def Obligations.InitSequenceIsTheFifteenTriples : Prop :=
  ∀ (table : Rom) (cfg : DisplayConfig),
    seqInit table cfg =
      ([⟨table.swreset, [], 150⟩, ⟨table.slpout, [], 500⟩, ⟨table.frmctr, table.frmctrData, 0⟩,
        ⟨table.pwctrA, table.pwctrAData, 0⟩, ⟨table.pwctrB, table.pwctrBData, 0⟩, ⟨table.pwctrC, table.pwctrCData, 0⟩,
        ⟨if cfg.invert then table.invon else table.invoff, [], 0⟩, ⟨table.madctl, [table.madctlData], 0⟩,
        ⟨table.colmod, [table.colmodData], 0⟩,
        ⟨table.caset, addr4Bytes cfg.offsetLeft (cfg.width - 1 + cfg.offsetLeft), 0⟩,
        ⟨table.raset, addr4Bytes cfg.offsetTop (cfg.height - 1 + cfg.offsetTop), 0⟩,
        ⟨table.gmctrp, table.gammaP.toList, 0⟩, ⟨table.gmctrn, table.gammaN.toList, 0⟩, ⟨table.noron, [], 10⟩,
        ⟨table.dispon, [], 100⟩] : List Triple).flatMap expand ∧
    totalDelay (seqInit table cfg) = 760 ∧
    (table.frmctrData ≠ [] → table.pwctrAData ≠ [] → table.pwctrBData ≠ [] → table.pwctrCData ≠ [] →
      (seqInit table cfg).length = 29)

/-- R126: the rotation enters no sequence but the frame's: the pulses, the init sequence with its memory-access-control byte,
the window sequence and the backlight sequence are the same for every rotation; and the default window always has the
configured, unswapped, width and height. In a configuration that CONSTRUCT would not load the coordinates of the default
window are the low 16 bits, the model's choice (log entry 35). -/
def Obligations.RotationEntersOnlyTheFrame : Prop :=
  ∀ (table : Rom) (cfg : DisplayConfig) (k : BitVec 2) (w : Window) (on : Level),
    seqBlPulse { cfg with rot := k } = seqBlPulse cfg ∧ seqReset { cfg with rot := k } = seqReset cfg ∧
    seqInit table { cfg with rot := k } = seqInit table cfg ∧
    seqWindow table { cfg with rot := k } w = seqWindow table cfg w ∧
    seqBacklight { cfg with rot := k } on = seqBacklight cfg on ∧
    defaultWindow { cfg with rot := k } = { x0 := 0, y0 := 0, x1 := cfg.width - 1, y1 := cfg.height - 1 }

/-- R183, and the sums of `90_conflicts.md` C4: the delays of a construction are 760 ms, 1500 more with a reset line, 100
more with a backlight line; no sequence of another operation waits. Rests on decision D6 of 92_eei_decisions.md, the spec's
own. -/
def Obligations.OnlyConstructionWaits : Prop :=
  ∀ (table : Rom) (cfg : DisplayConfig) (w : Window) (img : List Byte) (on : Level),
    totalDelay (constructSeq table cfg) = 760 + (if cfg.hasRst then 1500 else 0) + (if cfg.hasBl then 100 else 0) ∧
    totalDelay (seqWindow table cfg w ++ seqFrame rotDir cfg img) = 0 ∧ totalDelay (seqBacklight cfg on) = 0

/-- R122: a window is valid when it is not reversed and its translated end lies inside the panel, the sums taken as mathematical
integers; for a valid window the four translated coordinates are those sums, none wraps, and all lie inside the panel; the
address-set parameters carry them, left offset to the columns, top offset to the rows, high byte first. The rule's example. -/
def Obligations.ValidWindowTranslatesInsidePanel : Prop :=
  (∀ (cfg : DisplayConfig) (w : Window), windowValid cfg w = true ↔
    w.x0.toNat ≤ w.x1.toNat ∧ w.y0.toNat ≤ w.y1.toNat ∧ w.x1.toNat + cfg.offsetLeft.toNat < cfg.panelW.toNat ∧
      w.y1.toNat + cfg.offsetTop.toNat < cfg.panelH.toNat) ∧
  (∀ (cfg : DisplayConfig) (w : Window), windowValid cfg w = true →
    ∃ xs xe ys ye : Word16,
      xs.toNat = w.x0.toNat + cfg.offsetLeft.toNat ∧ xe.toNat = w.x1.toNat + cfg.offsetLeft.toNat ∧
      ys.toNat = w.y0.toNat + cfg.offsetTop.toNat ∧ ye.toNat = w.y1.toNat + cfg.offsetTop.toNat ∧
      xs.toNat ≤ xe.toNat ∧ xe.toNat < cfg.panelW.toNat ∧ ys.toNat ≤ ye.toNat ∧ ye.toNat < cfg.panelH.toNat ∧
      columnBytes cfg w = [xs.extractLsb' 8 8, xs.extractLsb' 0 8, xe.extractLsb' 8 8, xe.extractLsb' 0 8] ∧
      rowBytes cfg w = [ys.extractLsb' 8 8, ys.extractLsb' 0 8, ye.extractLsb' 8 8, ye.extractLsb' 0 8]) ∧
  (∀ cfg : DisplayConfig, cfg.offsetLeft = 0 → cfg.offsetTop = 16 →
    columnBytes cfg ⟨0, 0, 127, 127⟩ = [0x00, 0x00, 0x00, 0x7F] ∧
    rowBytes cfg ⟨0, 0, 127, 127⟩ = [0x00, 0x10, 0x00, 0x8F])

/-- R205, R86: the frame burst has exactly two bytes for each pixel of the default window's rectangle, at every rotation. For
an image of `WIDTH * HEIGHT * 3` bytes this is R86's; that it holds for a buffer of another size, where R90 leaves ENCODE
undefined, is the model's choice (log entry 23). -/
def Obligations.FrameBurstFillsTheRectangle : Prop :=
  ∀ (cfg : DisplayConfig) (img : List Byte), cfg.legal = true →
    ∃ bytes, seqFrame rotDir cfg img = [.dat bytes] ∧
      bytes.length =
        ((defaultWindow cfg).x1.toNat - (defaultWindow cfg).x0.toNat + 1) *
        ((defaultWindow cfg).y1.toNat - (defaultWindow cfg).y0.toNat + 1) * 2

/-- R17, R143: of the offsets CONSTRUCT loads, one that is given is loaded as given; one that is omitted centres the window,
floored, the left one from the widths and the top one from the heights, and keeps it inside the panel, whatever the other; no
other control register has a default. R143's four examples. Rests on decision D33 of 92_eei_decisions.md, the spec's own. -/
def Obligations.OmittedOffsetsCentreTheWindow : Prop :=
  (∀ q : ConstructReq, q.width.toNat ≤ q.panelW.toNat → q.height.toNat ≤ q.panelH.toNat →
    (∀ o, q.offLeft = some o → (loadConfig q).offsetLeft = o) ∧ (∀ o, q.offTop = some o → (loadConfig q).offsetTop = o) ∧
    (q.offLeft = none → (loadConfig q).offsetLeft.toNat = (q.panelW.toNat - q.width.toNat) / 2 ∧
      (loadConfig q).offsetLeft.toNat + q.width.toNat ≤ q.panelW.toNat) ∧
    (q.offTop = none → (loadConfig q).offsetTop.toNat = (q.panelH.toNat - q.height.toNat) / 2 ∧
      (loadConfig q).offsetTop.toNat + q.height.toNat ≤ q.panelH.toNat)) ∧
  (∀ q : ConstructReq, (loadConfig q).panelW = q.panelW ∧ (loadConfig q).panelH = q.panelH ∧ (loadConfig q).width = q.width ∧
    (loadConfig q).height = q.height ∧ (∀ k : BitVec 2, q.rotationDeg.toNat = 90 * k.toNat → (loadConfig q).rot = k) ∧
    (loadConfig q).invert = q.invert ∧ (loadConfig q).spiHz = q.spiHz ∧ (loadConfig q).hasRst = q.hasRst ∧
    (loadConfig q).hasBl = q.hasBl) ∧
  (∀ q : ConstructReq, q.offLeft = none → q.offTop = none →
    (q.panelW = 128 → q.panelH = 160 → q.width = 128 → q.height = 160 →
      (loadConfig q).offsetLeft = 0 ∧ (loadConfig q).offsetTop = 0) ∧
    (q.panelW = 128 → q.panelH = 160 → q.width = 128 → q.height = 128 →
      (loadConfig q).offsetLeft = 0 ∧ (loadConfig q).offsetTop = 16) ∧
    (q.panelW = 132 → q.panelH = 162 → q.width = 128 → q.height = 160 →
      (loadConfig q).offsetLeft = 2 ∧ (loadConfig q).offsetTop = 1) ∧
    (q.panelW = 128 → q.panelH = 160 → q.width = 125 → q.height = 155 →
      (loadConfig q).offsetLeft = 1 ∧ (loadConfig q).offsetTop = 2))

/-! ### The codec -/

/-- R87: the effective size is the configured size, swapped exactly at one and at three quarter-turns; the rule's example. -/
def Obligations.EffectiveSizeSwapsAtOddTurns : Prop :=
  (∀ (w h : Word16) (k : BitVec 2),
    effW w h k = (if k = 1 ∨ k = 3 then h else w) ∧ effH w h k = (if k = 1 ∨ k = 3 then w else h) ∧
    (effW w h k = h ∧ effH w h k = w ↔ k = 1 ∨ k = 3 ∨ w = h)) ∧
  effW 128 160 1 = 160 ∧ effH 128 160 1 = 128

/-- R83, R65: a pixel packs to red's top five bits, green's top six, blue's top five, in this order from the top; the values
the document gives. -/
def Obligations.PackKeepsTopBitsInPlace : Prop :=
  (∀ r g b : Byte, pack565 r g b =
    ((r.setWidth 16 &&& 0xF8#16) <<< 8) ||| ((g.setWidth 16 &&& 0xFC#16) <<< 3) ||| (b.setWidth 16 >>> 3)) ∧
  (∀ r g b : Byte, pack565 r g b = r.extractLsb' 3 5 ++ g.extractLsb' 2 6 ++ b.extractLsb' 3 5) ∧
  (∀ r g b : Byte, (pack565 r g b).toNat = r.toNat / 8 * 2048 + g.toNat / 4 * 32 + b.toNat / 8) ∧
  pack565 0xFF 0xFF 0xFF = 0xFFFF ∧ pack565 0 0 0 = 0 ∧ pack565 248 0 0 = 0xF800 ∧ pack565 0 252 0 = 0x07E0 ∧
  pack565 0 0 255 = 0x001F ∧ pack565 4 0 0 = 0 ∧ pack565 7 3 7 = 0 ∧ pack565 8 4 8 = 0x0821

/-- R88: unpacking puts the kept bits back and zeros in the dropped ones; packing undoes unpacking on every 16-bit word;
unpacking a packed pixel gives the kept bits of its samples; and packing reads the kept bits only, so that any decoder that
restores them packs back alike. The rule's example. -/
def Obligations.PackAfterUnpackIsIdentity : Prop :=
  (∀ p : Word16, pack565 (unpack565 p).1 (unpack565 p).2.1 (unpack565 p).2.2 = p) ∧
  (∀ p : Word16, (unpack565 p).1 = (p >>> 8).setWidth 8 &&& 0xF8 ∧ (unpack565 p).2.1 = (p >>> 3).setWidth 8 &&& 0xFC ∧
    (unpack565 p).2.2 = (p <<< 3).setWidth 8 &&& 0xF8) ∧
  (∀ r g b : Byte, unpack565 (pack565 r g b) = (r &&& 0xF8, g &&& 0xFC, b &&& 0xF8)) ∧
  (∀ r g b r' g' b' : Byte, r' &&& 0xF8 = r &&& 0xF8 → g' &&& 0xFC = g &&& 0xFC → b' &&& 0xF8 = b &&& 0xF8 →
    pack565 r' g' b' = pack565 r g b) ∧
  pack565 200 100 50 = 0xCB26 ∧ unpack565 0xCB26 = (200, 100, 48) ∧ pack565 200 100 48 = 0xCB26

/-- R82: the rotated image's places are a permutation of the image's pixels for each turn and direction: sources lie inside
the image and different places have different sources; the sources of each turn, in both directions; and four
counter-clockwise quarter-turns, one after the other, are the identity. Rests on decision D4 of 92_eei_decisions.md, the
spec's own. -/
def Obligations.RotationPermutesPixels : Prop :=
  (∀ (dir : RotDir) (k : BitVec 2) (iw ih i j i' j' : Nat),
    i < rotRows k iw ih → j < rotCols k iw ih → i' < rotRows k iw ih → j' < rotCols k iw ih →
    ((rotSource dir k iw ih i j).1 < ih ∧ (rotSource dir k iw ih i j).2 < iw) ∧
    (rotSource dir k iw ih i j = rotSource dir k iw ih i' j' → i = i' ∧ j = j')) ∧
  (∀ (dir : RotDir) (iw ih i j : Nat),
    rotSource dir 0 iw ih i j = (i, j) ∧ rotSource dir 2 iw ih i j = (ih - 1 - i, iw - 1 - j) ∧
    rotSource .ccw 1 iw ih i j = (j, iw - 1 - i) ∧ rotSource .ccw 3 iw ih i j = (ih - 1 - j, i) ∧
    rotSource .cw 1 iw ih i j = (ih - 1 - j, i) ∧ rotSource .cw 3 iw ih i j = (j, iw - 1 - i)) ∧
  (∀ iw ih i j : Nat, i < ih → j < iw →
    let s1 := rotSource .ccw 1 ih iw i j
    let s2 := rotSource .ccw 1 iw ih s1.1 s1.2
    let s3 := rotSource .ccw 1 ih iw s2.1 s2.2
    rotSource .ccw 1 iw ih s3.1 s3.2 = (i, j))

/-- R84, R85: a packed pixel goes out high byte first; the encoded frame has, for the pixel at row i and column j of the
rotated image, these two bytes at 2(i*RW + j) and 2(i*RW + j) + 1, and nothing else; packing first and rotating the packed
words gives the same bytes. The rules' examples. For a buffer of `iw * ih * 3` bytes this is the rules'; that it holds for
one of another size, where R90 leaves ENCODE undefined, is the model's choice: bytes past that size are ignored and missing
ones read as free values (log entry 23). -/
def Obligations.EncodedFrameIsRowMajorBigEndian : Prop :=
  (∀ p : Word16, bytes565 p = [p.extractLsb' 8 8, p.extractLsb' 0 8]) ∧
  (∀ (dir : RotDir) (img : List Byte) (iw ih : Nat) (k : BitVec 2),
    (encodeImage dir img iw ih k).length = rotRows k iw ih * rotCols k iw ih * 2 ∧
    (encodeImage dir img iw ih k).length = iw * ih * 2 ∧
    (∀ i j, i < rotRows k iw ih → j < rotCols k iw ih →
      let p := imgPixel img iw (rotSource dir k iw ih i j).1 (rotSource dir k iw ih i j).2
      (encodeImage dir img iw ih k)[2 * (i * rotCols k iw ih + j)]? = some ((pack565 p.1 p.2.1 p.2.2).extractLsb' 8 8) ∧
      (encodeImage dir img iw ih k)[2 * (i * rotCols k iw ih + j) + 1]? = some ((pack565 p.1 p.2.1 p.2.2).extractLsb' 0 8)) ∧
    (let packed : Nat → Nat → Word16 := fun r c =>
      pack565 (imgPixel img iw r c).1 (imgPixel img iw r c).2.1 (imgPixel img iw r c).2.2
     ∀ i j, i < rotRows k iw ih → j < rotCols k iw ih →
      ((encodeImage dir img iw ih k).drop (2 * (i * rotCols k iw ih + j))).take 2 =
        bytes565 (packed (rotSource dir k iw ih i j).1 (rotSource dir k iw ih i j).2))) ∧
  bytes565 0xF800 = [0xF8, 0x00] ∧ bytes565 0x07E0 = [0x07, 0xE0] ∧ bytes565 0x001F = [0x00, 0x1F] ∧
  encodeImage .ccw ([255, 0, 0, 0, 255, 0, 0, 0, 255] ++ [255, 255, 255, 0, 0, 0, 8, 4, 8]) 3 2 1 =
    [0x00, 0x1F, 0x08, 0x21, 0x07, 0xE0, 0x00, 0x00, 0xF8, 0x00, 0xFF, 0xFF]

/-- R81: the codec used alone on degrees outside 0, 90, 180 and 270 raises InvalidConfig with no output, and on those four
encodes with k = degrees / 90; that it does so on a buffer that is not `iw * ih * 3` bytes, where R90 leaves ENCODE
undefined, is the model's choice (log entry 23). Rests on decision D3 of 92_eei_decisions.md, the spec's own. -/
def Obligations.CodecAloneChecksDegrees : Prop :=
  ∀ (dir : RotDir) (img : List Byte) (iw ih degrees : Nat),
    (degrees ∉ [0, 90, 180, 270] → encodeDegrees dir img iw ih degrees = .error .invalidConfig) ∧
    (∀ k : BitVec 2, degrees = 90 * k.toNat → encodeDegrees dir img iw ih degrees = .ok (encodeImage dir img iw ih k))

/-! ### Whole operations -/

/-- R100, R108, R53: a sequence of micro-ops in flight in `Ready`, with a transport and a Delay primitive that answer every
call, is played to its end in as many steps as it has micro-ops left: the trace gains exactly their items in order, and the
operation completes without error. Rests on decision D9 of 92_eei_decisions.md, the spec's own. -/
def Obligations.SequenceIsPlayedInOrder : Prop :=
  ∀ (s : State) (n : Nat), s.hung = false → s.state = .ready → s.seqPc + n = s.seq.length → 0 < n →
    (∀ u ∈ s.seq, u.isMicroOp = true) →
    (n ≤ s.busAnswers.length ∧ ∀ a ∈ s.busAnswers, a = .ok) → (n ≤ s.delayReturns.length ∧ ∀ d ∈ s.delayReturns, d = true) →
    ∃ t, core.run n s = .next t ∧ t.trace = s.trace ++ (s.seq.drop s.seqPc).flatMap itemsOf ∧
      t.panel = ((s.seq.drop s.seqPc).flatMap itemsOf).foldl Panel.hear s.panel ∧
      t.seq = s.seq ∧ t.seqPc = s.seq.length ∧ t.state = .ready ∧ t.err = 0 ∧ t.errCause = 0 ∧ t.hung = false ∧ Kept s t

/-- R144, R29, R108, R202, R212: a valid CONSTRUCT of an idle block in `Uninitialized`, with collaborators that answer every
call, reaches `Ready`: the trace gains the items of the backlight pulse, the reset pulse and the init sequence in this order;
the configuration is loaded, the window is the default one, DC ends at the command level (log entry 17), RST and BL end high
when they exist. The request stands in the state as bytes in the model's layout (log entries 1 and 2). Rests on decisions D5,
D7, D13, D20 of 92_eei_decisions.md, the spec's own. -/
def Obligations.ConstructRunReachesReady : Prop :=
  ∀ (s : State) (q : ConstructReq) (rest : List Byte), s.busy = false → s.hung = false → s.state = .uninitialized →
    s.requests = encode rom (.construct q) ++ rest → constructValid q = true →
    (60 ≤ s.busAnswers.length ∧ ∀ a ∈ s.busAnswers, a = .ok) → (60 ≤ s.delayReturns.length ∧ ∀ d ∈ s.delayReturns, d = true) →
    ∃ t, core.run (1 + (constructSeq rom (loadConfig q)).length) s = .next t ∧ t.state = .ready ∧
      t.trace = s.trace ++ (seqBlPulse (loadConfig q) ++ seqReset (loadConfig q) ++ seqInit rom (loadConfig q)).flatMap itemsOf ∧
      t.cfg = loadConfig q ∧ t.win = defaultWindow (loadConfig q) ∧ t.err = 0 ∧ t.errCause = 0 ∧ t.busy = false ∧
      t.dc = some false ∧ t.rst = (if q.hasRst then some true else s.rst) ∧ t.bl = (if q.hasBl then some true else s.bl) ∧
      t.res = s.res ∧ t.requests = rest

/-- R146, R123, R124, R204, R205, R211: a DISPLAY of an image of the effective size, in `Ready` with a transport that answers
every write, sends in seven steps the eleven bytes of the default window and then the encoded frame as data, with no command
byte among or after them (the levels are those of log entry 17, the command bytes those of log entry 18, the turn that of log
entry 16; the request stands in the state as bytes, log entries 1 and 2); the window is the default one, DC ends at the data
level, ERR and ERR_CAUSE are clear, the block is idle in `Ready`, and the configuration, RES, RST and BL are as before. In a
configuration that CONSTRUCT would not load the coordinates of the default window are the low 16 bits, the model's choice
(log entry 35). Rests on decisions D4, D5, D12, D14 of 92_eei_decisions.md, the spec's own. -/
def Obligations.DisplayRunSendsWindowThenFrame : Prop :=
  ∀ (s : State) (imgW imgH : Word16) (img rest : List Byte) (more : List BusAnswer),
    s.busy = false → s.hung = false → s.state = .ready →
    imgW = effW s.cfg.width s.cfg.height s.cfg.rot → imgH = effH s.cfg.width s.cfg.height s.cfg.rot →
    img.length = imgW.toNat * imgH.toNat * 3 → s.requests = encode rom (.display imgW imgH img) ++ rest →
    s.busAnswers = List.replicate 6 .ok ++ more →
    ∃ t, core.run 7 s = .next t ∧
      t.trace = s.trace ++ [.byte false 0x2A] ++
        (addr4Bytes s.cfg.offsetLeft (s.cfg.width - 1 + s.cfg.offsetLeft)).map (Item.byte true) ++ [.byte false 0x2B] ++
        (addr4Bytes s.cfg.offsetTop (s.cfg.height - 1 + s.cfg.offsetTop)).map (Item.byte true) ++ [.byte false 0x2C] ++
        (encodeImage .ccw img imgW.toNat imgH.toNat s.cfg.rot).map (Item.byte true) ∧
      t.win = { x0 := 0, y0 := 0, x1 := s.cfg.width - 1, y1 := s.cfg.height - 1 } ∧ t.dc = some true ∧ t.err = 0 ∧
      t.errCause = 0 ∧ t.state = .ready ∧ t.busy = false ∧ t.hung = false ∧ t.cfg = s.cfg ∧ t.res = s.res ∧ t.rst = s.rst ∧
      t.bl = s.bl ∧ t.requests = rest ∧ t.busAnswers = more ∧ t.delayReturns = s.delayReturns ∧ t.draws = s.draws

/-- R58, R47, R45, R85, R124, R205: after such a DISPLAY the controller's memory holds the rotated image, packed, pixel for
pixel, in the rectangle of the configured size at the offsets; every pixel outside the rectangle, and every byte that is none
of the rectangle's, reads as before, and the write index is back at the rectangle's start (that a controller left open by an
earlier operation stores nothing of the address-set parameters is the model's reading, log entry 12; that pixels are
addressed in panel coordinates is the model's reading, log entry 11; the turn is that of log entry 16). Rests on decisions
D4, D30 of 92_eei_decisions.md, the spec's own. -/
def Obligations.DisplayRunFillsThePanel : Prop :=
  ∀ (s : State) (imgW imgH : Word16) (img rest : List Byte) (more : List BusAnswer),
    s.busy = false → s.hung = false → s.state = .ready → s.cfg.legal = true →
    imgW = effW s.cfg.width s.cfg.height s.cfg.rot → imgH = effH s.cfg.width s.cfg.height s.cfg.rot →
    img.length = imgW.toNat * imgH.toNat * 3 → s.requests = encode rom (.display imgW imgH img) ++ rest →
    s.busAnswers = List.replicate 6 .ok ++ more →
    ∃ t, core.run 7 s = .next t ∧
      (∀ i j, i < s.cfg.height.toNat → j < s.cfg.width.toNat →
        let src := rotSource .ccw s.cfg.rot imgW.toNat imgH.toNat i j
        let p := imgPixel img imgW.toNat src.1 src.2
        t.panel.pixel (s.cfg.offsetLeft.toNat + j) (s.cfg.offsetTop.toNat + i) = some (pack565 p.1 p.2.1 p.2.2)) ∧
      (∀ col row, col < 65536 →
        ¬ (s.cfg.offsetLeft.toNat ≤ col ∧ col < s.cfg.offsetLeft.toNat + s.cfg.width.toNat ∧
          s.cfg.offsetTop.toNat ≤ row ∧ row < s.cfg.offsetTop.toNat + s.cfg.height.toNat) →
        t.panel.pixel col row = s.panel.pixel col row) ∧
      (∀ a, (∀ i j, i < s.cfg.height.toNat → j < s.cfg.width.toNat →
          a ≠ pixelAddr (s.cfg.offsetLeft.toNat + j) (s.cfg.offsetTop.toNat + i) ∧
          a ≠ pixelAddr (s.cfg.offsetLeft.toNat + j) (s.cfg.offsetTop.toNat + i) + 1) →
        Memory.read t.panel.mem a = Memory.read s.panel.mem a) ∧
      t.panel.index % (s.cfg.width.toNat * s.cfg.height.toNat) = 0

/-! ### Block reset -/

/-- R200, R29: block reset of a block in any state, `Ready`, `Failed` or hung among them, leaves it idle in `Uninitialized`
with no error, an empty trace and its lines released; it sends nothing to the controller; and a valid CONSTRUCT is then
accepted and loaded. That the host's coming requests and the collaborators' coming answers stay, and that it is applied from
outside between steps, are the model's choices (log entry 34). The registers the spec leaves unspecified are not mentioned.
The state meets the block's invariant if the controller's memory is canonical. Rests on decision D20 of 92_eei_decisions.md,
the spec's own. -/
def Obligations.BlockResetIsTheWayOutOfReadyAndFailed : Prop :=
  ∀ s : State,
    s.blockReset.state = .uninitialized ∧ s.blockReset.err = 0 ∧ s.blockReset.errCause = 0 ∧ s.blockReset.seq = [] ∧
    s.blockReset.seqPc = 0 ∧ s.blockReset.trace = [] ∧ s.blockReset.dc = none ∧ s.blockReset.rst = none ∧
    s.blockReset.bl = none ∧ s.blockReset.busy = false ∧ s.blockReset.hung = false ∧ s.blockReset.panel = s.panel ∧
    s.blockReset.requests = s.requests ∧ s.blockReset.busAnswers = s.busAnswers ∧
    s.blockReset.delayReturns = s.delayReturns ∧ s.blockReset.draws = s.draws ∧
    (Memory.wf s.panel.mem = true → s.blockReset.Inv) ∧
    (∀ q, constructValid q = true → ∃ t, exec (.construct q) s.blockReset = .next t ∧ t.cfg = loadConfig q ∧
      t.seq = constructSeq rom (loadConfig q) ∧ t.panel = s.panel)
end

