-- ==== Sys2Proof/Laws/Codec.lean ====
section
/-! SUPPORT. Laws the codec rests on: a value from its two bytes, rows joined to a stream, the shape of a rotated image. -/

namespace Sys2Proof.Machine

/-- A 16-bit value is its high byte followed by its low byte. -/
theorem hi8_append_lo8 (v : Word16) : hi8 v ++ lo8 v = v := by
  apply BitVec.eq_of_toNat_eq
  have h := v.isLt
  simp only [hi8, lo8, BitVec.toNat_append, BitVec.extractLsb'_toNat, Nat.shiftRight_eq_div_pow]
  rw [← Nat.shiftLeft_add_eq_or_of_lt (by omega), Nat.shiftLeft_eq]
  omega

theorem length_flatMap_const {α β : Type} (l : List α) (f : α → List β) (c : Nat) (h : ∀ a ∈ l, (f a).length = c) :
    (l.flatMap f).length = l.length * c := by
  induction l with
  | nil => simp
  | cons a l ih =>
    rw [List.flatMap_cons, List.length_append, ih (fun b hb => h b (by simp [hb])), h a (by simp)]
    simp [Nat.add_mul, Nat.add_comm]

/-- The entry of a stream of equal rows. -/
theorem getElem?_flatMap_range {β : Type} (n c : Nat) (f : Nat → List β) (h : ∀ a, a < n → (f a).length = c) (a k : Nat)
    (ha : a < n) (hk : k < c) : ((List.range n).flatMap f)[a * c + k]? = (f a)[k]? := by
  induction n with
  | zero => omega
  | succ n ih =>
    rw [List.range_succ, List.flatMap_append]
    have hl : ((List.range n).flatMap f).length = n * c := by
      rw [length_flatMap_const _ _ c]
      · simp
      · intro b hb
        exact h b (by have := List.mem_range.mp hb; omega)
    by_cases hn : a < n
    · have h2 : a * c + k < n * c := by
        calc a * c + k < a * c + c := by omega
          _ = (a + 1) * c := by ring
          _ ≤ n * c := Nat.mul_le_mul_right _ hn
      rw [List.getElem?_append_left (by rw [hl]; exact h2)]
      exact ih (fun b hb => h b (by omega)) hn
    · have : a = n := by omega
      subst this
      rw [List.getElem?_append_right (by rw [hl]; omega), hl]
      simp

theorem rotRows_mul_rotCols (k : BitVec 2) (iw ih : Nat) : rotRows k iw ih * rotCols k iw ih = iw * ih := by
  unfold rotRows rotCols
  split
  · rfl
  · exact Nat.mul_comm _ _

theorem quarterTurn_cases : ∀ k : BitVec 2, k = 0 ∨ k = 1 ∨ k = 2 ∨ k = 3 := by decide

end Sys2Proof.Machine
end

