-- ==== Sys2Proof/Laws/Decode.lean ====
section
/-! SUPPORT. The laws of packed fields, bytes and counts, on which the round trip of decoder and encoder rests. -/

namespace Sys2Proof

@[simp] theorem toBytes_length (n w : Nat) : (toBytes n w).length = n := by
  induction n generalizing w with
  | zero => rfl
  | succ n ih => simp [toBytes, ih]

/-- Reading back the bytes of a number that fits them. -/
theorem leNat_toBytes (n w : Nat) (h : w < 256 ^ n) : leNat (toBytes n w) = w := by
  induction n generalizing w with
  | zero => simp [toBytes, leNat] at *; omega
  | succ n ih =>
    have : w / 256 < 256 ^ n := by
      rw [Nat.div_lt_iff_lt_mul (by norm_num)]
      rwa [pow_succ] at h
    simp only [toBytes, leNat, ih _ this, BitVec.toNat_ofNat]
    omega

/-- A record read back from its bytes. -/
theorem takeRecord_toBytes (n w : Nat) (rest : List Byte) (h : w < 256 ^ n) :
    takeRecord n (toBytes n w ++ rest) = .ok (w, rest) := by
  have h1 : ¬ (toBytes n w ++ rest).length < n := by simp
  have h2 : (toBytes n w ++ rest).take n = toBytes n w := by
    rw [List.take_append_of_le_length (by simp)]
    exact List.take_of_length_le (by simp)
  have h3 : (toBytes n w ++ rest).drop n = rest := by
    rw [List.drop_append_of_le_length (by simp), List.drop_of_length_le (by simp), List.nil_append]
  simp only [takeRecord, h1, if_false, h2, h3, leNat_toBytes n w h]

theorem takeBytes_append (bytes rest : List Byte) : takeBytes bytes.length (bytes ++ rest) = .ok (bytes, rest) := by
  simp [takeBytes]

/-- The lowest field of a packed number, and what is packed above it. -/
theorem nextField_pack {width : Nat} (v : BitVec width) (r : Nat) : nextField width (v.toNat + 2 ^ width * r) = (v, r) := by
  have hv := v.isLt
  refine Prod.ext ?_ ?_
  · apply BitVec.eq_of_toNat_eq
    simp [nextField]
  · simp only [nextField]
    rw [Nat.add_mul_div_left _ _ (Nat.two_pow_pos width), Nat.div_eq_of_lt hv, Nat.zero_add]

theorem nextBit_pack (b : Bool) (r : Nat) : nextBit (b.toNat + 2 ^ 1 * r) = (b, r) := by
  cases b
  · refine Prod.ext ?_ ?_ <;> simp [nextBit]
  · refine Prod.ext ?_ ?_
    · simp [nextBit]
    · simp only [nextBit, Bool.toNat_true]; omega

theorem nextOptional_pack (o : Option Word16) (fs : List (Nat × Nat)) :
    nextOptional (packFields (packOptional o ++ fs)) = (o, packFields fs) := by
  cases o with
  | none =>
    have h1 : nextBit (0 + 2 ^ 1 * (0 + 2 ^ 16 * packFields fs)) = (false, 0 + 2 ^ 16 * packFields fs) :=
      nextBit_pack false _
    have h2 : nextField 16 (0 + 2 ^ 16 * packFields fs) = (0, packFields fs) := nextField_pack (0 : BitVec 16) _
    simp only [packOptional, List.cons_append, List.nil_append, packFields, nextOptional, h1, h2]
    simp
  | some v =>
    have h1 : nextBit (1 + 2 ^ 1 * (v.toNat + 2 ^ 16 * packFields fs)) = (true, v.toNat + 2 ^ 16 * packFields fs) :=
      nextBit_pack true _
    have h2 := nextField_pack v (packFields fs)
    simp only [packOptional, List.cons_append, List.nil_append, packFields, nextOptional, h1, h2]
    simp

/-- A count read back from its bytes. -/
theorem decodeCount_encodeCountFuel (fuel n : Nat) (h : n < fuel) (rest : List Byte) :
    decodeCount (encodeCountFuel fuel n ++ rest) = some (n, rest) := by
  induction fuel generalizing n with
  | zero => omega
  | succ fuel ih =>
    simp only [encodeCountFuel]
    by_cases hn : n < 128
    · have : n % 256 = n := by omega
      simp [hn, decodeCount, this]
    · have h1 : (n % 128 + 128) % 256 = n % 128 + 128 := by omega
      have h2 := ih (n / 128) (by omega)
      have h3 : ¬ n % 128 + 128 < 128 := by omega
      simp only [hn, if_false, List.cons_append, decodeCount, BitVec.toNat_ofNat]
      norm_num [h1, h2, h3]
      omega

theorem decodeCount_encodeCount (n : Nat) (rest : List Byte) : decodeCount (encodeCount n ++ rest) = some (n, rest) :=
  decodeCount_encodeCountFuel (n + 1) n (by omega) rest

/-- The bound under which packed fields fit their bytes. -/
theorem packFields_lt (fs : List (Nat × Nat)) (h : ∀ f ∈ fs, f.2 < 2 ^ f.1) :
    packFields fs < 2 ^ (fs.map Prod.fst).sum := by
  induction fs with
  | nil => simp [packFields]
  | cons f fs ih =>
    obtain ⟨width, v⟩ := f
    have hv := h (width, v) (by simp)
    have hr := ih fun g hg => h g (by simp [hg])
    simp only [packFields, List.map_cons, List.sum_cons, pow_add] at *
    calc v + 2 ^ width * packFields fs < 2 ^ width + 2 ^ width * packFields fs := by omega
      _ = 2 ^ width * (packFields fs + 1) := by ring
      _ ≤ 2 ^ width * 2 ^ (fs.map Prod.fst).sum := Nat.mul_le_mul_left _ hr

theorem packOptional_lt (o : Option Word16) : ∀ f ∈ packOptional o, f.2 < 2 ^ f.1 := by
  cases o with
  | none => simp [packOptional]
  | some v => simp only [packOptional, List.mem_cons, List.not_mem_nil, or_false]; rintro f (rfl | rfl); · simp
              · exact v.isLt

theorem packOptional_bits (o : Option Word16) : ((packOptional o).map Prod.fst).sum = 17 := by cases o <;> rfl

/-- The three power-control commands of the machine's ROM are different (R116). -/
theorem rom_powerCommands_ne :
    Machine.rom.pwctrA ≠ Machine.rom.pwctrB ∧ Machine.rom.pwctrA ≠ Machine.rom.pwctrC ∧
    Machine.rom.pwctrB ≠ Machine.rom.pwctrC :=
  ⟨Config.powerCommand.injective.ne (by decide), Config.powerCommand.injective.ne (by decide),
    Config.powerCommand.injective.ne (by decide)⟩

end Sys2Proof
end

