-- ==== Sys2Proof/Laws/Lifecycle.lean ====
section
/-! SUPPORT. The lifecycle state due at a sequence position (R144), read off from the position, and the lengths of the two
pulses it is counted in. -/

namespace Sys2Proof.Machine

variable {n1 n2 len pc : Nat}

/-- One more position: the state due next is the state due there from the start. -/
theorem lifecycleAt_succ (h : pc < len) :
    lifecycleAt n1 n2 len (pc + 1) (lifecycleAt n1 n2 len pc .uninitialized) =
      lifecycleAt n1 n2 len (pc + 1) .uninitialized := by
  unfold lifecycleAt
  by_cases a : n1 ≤ pc <;> by_cases b : n1 + n2 ≤ pc <;> by_cases c : n1 ≤ pc + 1 <;> by_cases d : n1 + n2 ≤ pc + 1 <;>
    by_cases e : len ≤ pc + 1 <;> simp [a, b, c, d, e, Nat.not_le.mpr h] <;> omega

theorem lifecycleAt_uninitialized_iff : lifecycleAt n1 n2 len pc .uninitialized = .uninitialized ↔ pc < n1 := by
  unfold lifecycleAt
  by_cases a : n1 ≤ pc <;> by_cases b : n1 + n2 ≤ pc <;> by_cases e : len ≤ pc <;> simp [a, b, e] <;> omega

theorem lifecycleAt_resetting_iff : lifecycleAt n1 n2 len pc .uninitialized = .resetting ↔ n1 ≤ pc ∧ pc < n1 + n2 := by
  unfold lifecycleAt
  by_cases a : n1 ≤ pc <;> by_cases b : n1 + n2 ≤ pc <;> by_cases e : len ≤ pc <;> simp [a, b, e] <;> omega

theorem lifecycleAt_initializing_iff : lifecycleAt n1 n2 len pc .uninitialized = .initializing ↔ n1 + n2 ≤ pc ∧ pc < len := by
  unfold lifecycleAt
  by_cases a : n1 ≤ pc <;> by_cases b : n1 + n2 ≤ pc <;> by_cases e : len ≤ pc <;> simp [a, b, e] <;> omega

theorem lifecycleAt_ready_iff : lifecycleAt n1 n2 len pc .uninitialized = .ready ↔ n1 + n2 ≤ pc ∧ len ≤ pc := by
  unfold lifecycleAt
  by_cases a : n1 ≤ pc <;> by_cases b : n1 + n2 ≤ pc <;> by_cases e : len ≤ pc <;> simp [a, b, e]
  omega

theorem lifecycleAt_ne_failed : lifecycleAt n1 n2 len pc .uninitialized ≠ .failed := by
  unfold lifecycleAt
  by_cases a : n1 ≤ pc <;> by_cases b : n1 + n2 ≤ pc <;> by_cases e : len ≤ pc <;> simp [a, b, e]

/-- `Ready` and `Failed` stay at every position. -/
theorem lifecycleAt_fixed {st : Lifecycle} (h : st = .ready ∨ st = .failed) : lifecycleAt n1 n2 len pc st = st := by
  rcases h with rfl | rfl <;> simp [lifecycleAt]

theorem seqBlPulse_length (cfg : DisplayConfig) : (seqBlPulse cfg).length = if cfg.hasBl then 3 else 0 := by
  unfold seqBlPulse; split <;> rfl

theorem seqReset_length (cfg : DisplayConfig) : (seqReset cfg).length = if cfg.hasRst then 6 else 0 := by
  unfold seqReset; split <;> rfl

end Sys2Proof.Machine
end

