-- ==== Sys2Proof/Laws/Memory.lean ====
section
/-! SUPPORT. The laws of the memory (read after write, canonical form) and that every controller operation keeps the form. -/

namespace Sys2Proof.Machine

theorem Memory.read_write_same (m : Memory) (a : Nat) (b : Byte) : Memory.read (Memory.write m a b) a = some b := by
  induction m with
  | nil => simp [Memory.write, Memory.read]
  | cons e rest ih =>
    obtain ⟨k, v⟩ := e
    simp only [Memory.write]
    split
    · simp [Memory.read]
    · split
      · simp [Memory.read]
      · have : k ≠ a := by omega
        simp [Memory.read, this, ih]

theorem Memory.read_write_other (m : Memory) (a c : Nat) (b : Byte) (h : c ≠ a) :
    Memory.read (Memory.write m a b) c = Memory.read m c := by
  induction m with
  | nil => simp [Memory.write, Memory.read, Ne.symm h]
  | cons e rest ih =>
    obtain ⟨k, v⟩ := e
    simp only [Memory.write]
    split
    · simp [Memory.read, Ne.symm h]
    · split
      · rename_i _ h2
        subst h2
        simp [Memory.read, Ne.symm h]
      · simp [Memory.read, ih]

/-- Every address of a memory lies above `lo`. -/
def Memory.above (lo : Nat) (m : Memory) : Prop := ∀ e ∈ m, lo < e.1

theorem Memory.wf_cons (a : Nat) (v : Byte) (m : Memory) :
    Memory.wf ((a, v) :: m) = true ↔ Memory.above a m ∧ Memory.wf m = true := by
  induction m generalizing a v with
  | nil => simp [Memory.wf, Memory.above]
  | cons e rest ih =>
    obtain ⟨b, y⟩ := e
    have hb := ih b y
    simp only [Memory.wf, Bool.and_eq_true, decide_eq_true_eq, Memory.above, List.mem_cons, forall_eq_or_imp] at *
    constructor
    · rintro ⟨h1, h2⟩
      exact ⟨⟨h1, fun e he => lt_trans h1 ((hb.mp h2).1 e he)⟩, h2⟩
    · rintro ⟨⟨h1, _⟩, h2⟩
      exact ⟨h1, h2⟩

theorem Memory.above_write {lo : Nat} {m : Memory} {a : Nat} {b : Byte} (h : Memory.above lo m) (ha : lo < a) :
    Memory.above lo (Memory.write m a b) := by
  induction m with
  | nil => simpa [Memory.write, Memory.above] using ha
  | cons e rest ih =>
    obtain ⟨k, v⟩ := e
    simp only [Memory.above, List.mem_cons, forall_eq_or_imp] at h
    simp only [Memory.write]
    split
    · simpa [Memory.above] using ⟨ha, h.1, fun x y hy => h.2 (x, y) hy⟩
    · split
      · simpa [Memory.above] using ⟨ha, fun x y hy => h.2 (x, y) hy⟩
      · have := ih (fun e he => h.2 e he)
        simp only [Memory.above, List.mem_cons, forall_eq_or_imp]
        exact ⟨h.1, this⟩

/-- A write keeps the canonical form. -/
theorem Memory.wf_write {m : Memory} (h : Memory.wf m = true) (a : Nat) (b : Byte) :
    Memory.wf (Memory.write m a b) = true := by
  induction m with
  | nil => simp [Memory.write, Memory.wf]
  | cons e rest ih =>
    obtain ⟨k, v⟩ := e
    have hk := (Memory.wf_cons k v rest).mp h
    simp only [Memory.write]
    split
    · rename_i h1
      refine (Memory.wf_cons a b _).mpr ⟨?_, h⟩
      simp only [Memory.above, List.mem_cons, forall_eq_or_imp]
      exact ⟨h1, fun e he => lt_trans h1 (hk.1 e he)⟩
    · split
      · rename_i h2
        subst h2
        exact (Memory.wf_cons a b _).mpr hk
      · exact (Memory.wf_cons k v _).mpr ⟨Memory.above_write hk.1 (by omega), ih hk.2⟩

/-- A canonical memory holds no value at an address below all of its own. -/
theorem Memory.read_of_above {m : Memory} {a : Nat} (h : Memory.above a m) : Memory.read m a = none := by
  induction m with
  | nil => rfl
  | cons e rest ih =>
    obtain ⟨k, v⟩ := e
    simp only [Memory.above, List.mem_cons, forall_eq_or_imp] at h
    have : k ≠ a := by have := h.1; omega
    simp [Memory.read, this, ih h.2]

/-- Equal reads are equal data: two canonical memories that read alike everywhere are the same list. -/
theorem Memory.eq_of_read {m m' : Memory} (h : Memory.wf m = true) (h' : Memory.wf m' = true)
    (hr : ∀ a, Memory.read m a = Memory.read m' a) : m = m' := by
  induction m generalizing m' with
  | nil =>
    cases m' with
    | nil => rfl
    | cons e rest =>
      have := hr e.1
      simp [Memory.read] at this
  | cons e rest ih =>
    obtain ⟨k, v⟩ := e
    cases m' with
    | nil =>
      have := hr k
      simp [Memory.read] at this
    | cons e' rest' =>
      obtain ⟨k', v'⟩ := e'
      have hk := (Memory.wf_cons k v rest).mp h
      have hk' := (Memory.wf_cons k' v' rest').mp h'
      have heq : k = k' := by
        rcases Nat.lt_trichotomy k k' with hlt | heq | hgt
        · have := hr k
          have h1 : Memory.read rest' k = none :=
            Memory.read_of_above (fun e he => lt_trans hlt (hk'.1 e he))
          simp [Memory.read, h1, Nat.ne_of_gt hlt] at this
        · exact heq
        · have := hr k'
          have h1 : Memory.read rest k' = none :=
            Memory.read_of_above (fun e he => lt_trans hgt (hk.1 e he))
          simp [Memory.read, h1, Nat.ne_of_gt hgt] at this
      subst heq
      have hv : v = v' := by simpa [Memory.read] using hr k
      subst hv
      have : rest = rest' := by
        refine ih hk.2 hk'.2 fun a => ?_
        by_cases ha : k = a
        · subst ha
          rw [Memory.read_of_above hk.1, Memory.read_of_above hk'.1]
        · simpa [Memory.read, ha] using hr a
      rw [this]

/-! ### The controller keeps the form -/

theorem Panel.command_mem (p : Panel) (c : Byte) : (p.command c).mem = p.mem := by
  unfold Panel.command
  split
  · rfl
  · split
    · rfl
    · split <;> rfl

theorem Panel.storePixel_wf {p : Panel} (h : Memory.wf p.mem = true) (hi lo : Byte) :
    Memory.wf (p.storePixel hi lo).mem = true :=
  Memory.wf_write (Memory.wf_write h _ _) _ _

theorem Panel.data_wf {p : Panel} (h : Memory.wf p.mem = true) (b : Byte) : Memory.wf (p.data b).mem = true := by
  unfold Panel.data
  split <;> first | exact h | exact Panel.storePixel_wf h _ _

theorem Panel.receive_wf {p : Panel} (h : Memory.wf p.mem = true) (dc : Level) (b : Byte) :
    Memory.wf (p.receive dc b).mem = true := by
  unfold Panel.receive
  split
  · rw [Panel.command_mem]; exact h
  · exact Panel.data_wf h b

/-- The bytes of a bus write keep the controller's memory in canonical form. -/
theorem Panel.receiveAll_wf {p : Panel} (h : Memory.wf p.mem = true) (dc : Level) (bytes : List Byte) :
    Memory.wf (bytes.foldl (fun p b => p.receive dc b) p).mem = true := by
  induction bytes generalizing p with
  | nil => exact h
  | cons b bs ih => exact ih (Panel.receive_wf h dc b)

/-- Outside the pixel phase a data byte stores nothing and does not open the phase. -/
theorem Panel.data_closed {p : Panel} (h : p.phase ≠ .pixels) (b : Byte) :
    (p.data b).phase ≠ .pixels ∧ (p.data b).mem = p.mem ∧ (p.data b).index = p.index := by
  unfold Panel.data
  split <;> simp_all

/-- Outside the pixel phase no data bytes change the controller's memory. -/
theorem Panel.dataAll_closed {p : Panel} (h : p.phase ≠ .pixels) (bytes : List Byte) :
    (bytes.foldl (fun q b => q.receive true b) p).mem = p.mem := by
  induction bytes generalizing p with
  | nil => rfl
  | cons b bs ih =>
    have hd := Panel.data_closed h b
    rw [List.foldl_cons, ih (by exact hd.1)]
    exact hd.2.1

theorem reset_memory_wf : Memory.wf State.reset.panel.mem = true := rfl

end Sys2Proof.Machine
end

