-- ==== Sys2Proof/Laws/Operands.lean ====
section
/-! SUPPORT. The validation of CONSTRUCT and its default offsets in arithmetic. -/

namespace Sys2Proof.Machine

theorem quarterTurns_isSome_iff (degrees : Nat) : (quarterTurns degrees).isSome = true ↔ degrees ∈ [0, 90, 180, 270] := by
  unfold quarterTurns
  simp only [List.mem_cons, List.not_mem_nil, or_false]
  split_ifs <;> simp <;> omega

theorem offsetFits_iff (offset : Option Word16) (logical panel : Word16) :
    offsetFits offset logical panel = true ↔ ∀ o, offset = some o → o.toNat + logical.toNat ≤ panel.toNat := by
  cases offset <;> simp [offsetFits]

/-- The five lines of R142. -/
theorem constructValid_iff (q : ConstructReq) :
    constructValid q = true ↔
      q.rotationDeg.toNat ∈ [0, 90, 180, 270] ∧
      (1 ≤ q.panelW.toNat ∧ 1 ≤ q.panelH.toNat ∧ 1 ≤ q.width.toNat ∧ 1 ≤ q.height.toNat) ∧
      (q.width.toNat ≤ q.panelW.toNat ∧ q.height.toNat ≤ q.panelH.toNat) ∧
      (∀ o, q.offLeft = some o → o.toNat + q.width.toNat ≤ q.panelW.toNat) ∧
      (∀ o, q.offTop = some o → o.toNat + q.height.toNat ≤ q.panelH.toNat) := by
  unfold constructValid
  rw [Bool.and_eq_true, Bool.and_eq_true, Bool.and_eq_true, Bool.and_eq_true, quarterTurns_isSome_iff, offsetFits_iff,
    offsetFits_iff]
  simp only [Bool.and_eq_true, decide_eq_true_eq, and_assoc]

/-- An offset in arithmetic, where the logical size fits the panel. -/
theorem offsetOrCentre_toNat (offset : Option Word16) (logical panel : Word16) (h : logical.toNat ≤ panel.toNat) :
    (offsetOrCentre offset logical panel).toNat =
      (match offset with | some o => o.toNat | none => (panel.toNat - logical.toNat) / 2) := by
  cases offset with
  | some o => rfl
  | none =>
    simp only [offsetOrCentre, BitVec.toNat_ofNat]
    have := panel.isLt
    apply Nat.mod_eq_of_lt
    omega

/-- A valid CONSTRUCT loads a legal configuration (R16). -/
theorem loadConfig_legal (q : ConstructReq) (h : constructValid q = true) : (loadConfig q).legal = true := by
  obtain ⟨_, ⟨_, _, h3, h4⟩, ⟨h5, h6⟩, h7, h8⟩ := (constructValid_iff q).mp h
  simp only [DisplayConfig.legal, Bool.and_eq_true, decide_eq_true_eq]
  simp only [loadConfig, offsetOrCentre_toNat _ _ _ h5, offsetOrCentre_toNat _ _ _ h6]
  refine ⟨⟨⟨h3, h4⟩, ?_⟩, ?_⟩
  · cases hq : q.offLeft with
    | some o => exact h7 o hq
    | none => simp; omega
  · cases hq : q.offTop with
    | some o => exact h8 o hq
    | none => simp; omega

/-- The last column and row of a legal configuration do not wrap. -/
theorem DisplayConfig.last_toNat {cfg : DisplayConfig} (h : cfg.legal = true) :
    (cfg.width - 1).toNat = cfg.width.toNat - 1 ∧ (cfg.height - 1).toNat = cfg.height.toNat - 1 := by
  simp only [DisplayConfig.legal, Bool.and_eq_true, decide_eq_true_eq] at h
  obtain ⟨⟨⟨h1, h2⟩, _⟩, _⟩ := h
  constructor
  · rw [BitVec.toNat_sub_of_le (by simpa [BitVec.le_def] using h1)]; rfl
  · rw [BitVec.toNat_sub_of_le (by simpa [BitVec.le_def] using h2)]; rfl

end Sys2Proof.Machine
end

