-- ==== Sys2Proof/Laws/State.lean ====
section
/-! SUPPORT. The field lemmas of the state's updates: one per field per update. -/

namespace Sys2Proof.Machine

variable (s : State)

/-! ### `State.emit` -/

@[simp] theorem State.emit_win (it : Item) : (s.emit it).win = s.win := rfl
@[simp] theorem State.emit_res (it : Item) : (s.emit it).res = s.res := rfl
@[simp] theorem State.emit_seq (it : Item) : (s.emit it).seq = s.seq := rfl
@[simp] theorem State.emit_seqPc (it : Item) : (s.emit it).seqPc = s.seqPc := rfl
@[simp] theorem State.emit_cfg (it : Item) : (s.emit it).cfg = s.cfg := rfl
@[simp] theorem State.emit_state (it : Item) : (s.emit it).state = s.state := rfl
@[simp] theorem State.emit_err (it : Item) : (s.emit it).err = s.err := rfl
@[simp] theorem State.emit_errCause (it : Item) : (s.emit it).errCause = s.errCause := rfl
@[simp] theorem State.emit_dc (it : Item) : (s.emit it).dc = s.dc := rfl
@[simp] theorem State.emit_rst (it : Item) : (s.emit it).rst = s.rst := rfl
@[simp] theorem State.emit_bl (it : Item) : (s.emit it).bl = s.bl := rfl
@[simp] theorem State.emit_trace (it : Item) : (s.emit it).trace = s.trace ++ [it] := rfl
@[simp] theorem State.emit_panel (it : Item) : (s.emit it).panel = s.panel := rfl
@[simp] theorem State.emit_requests (it : Item) : (s.emit it).requests = s.requests := rfl
@[simp] theorem State.emit_busAnswers (it : Item) : (s.emit it).busAnswers = s.busAnswers := rfl
@[simp] theorem State.emit_delayReturns (it : Item) : (s.emit it).delayReturns = s.delayReturns := rfl
@[simp] theorem State.emit_draws (it : Item) : (s.emit it).draws = s.draws := rfl
@[simp] theorem State.emit_hung (it : Item) : (s.emit it).hung = s.hung := rfl

/-! ### `State.emitBytes` -/

@[simp] theorem State.emitBytes_win (dc : Level) (bytes : List Byte) : (s.emitBytes dc bytes).win = s.win := rfl
@[simp] theorem State.emitBytes_res (dc : Level) (bytes : List Byte) : (s.emitBytes dc bytes).res = s.res := rfl
@[simp] theorem State.emitBytes_seq (dc : Level) (bytes : List Byte) : (s.emitBytes dc bytes).seq = s.seq := rfl
@[simp] theorem State.emitBytes_seqPc (dc : Level) (bytes : List Byte) : (s.emitBytes dc bytes).seqPc = s.seqPc := rfl
@[simp] theorem State.emitBytes_cfg (dc : Level) (bytes : List Byte) : (s.emitBytes dc bytes).cfg = s.cfg := rfl
@[simp] theorem State.emitBytes_state (dc : Level) (bytes : List Byte) : (s.emitBytes dc bytes).state = s.state := rfl
@[simp] theorem State.emitBytes_err (dc : Level) (bytes : List Byte) : (s.emitBytes dc bytes).err = s.err := rfl
@[simp] theorem State.emitBytes_errCause (dc : Level) (bytes : List Byte) : (s.emitBytes dc bytes).errCause = s.errCause := rfl
@[simp] theorem State.emitBytes_dc (dc : Level) (bytes : List Byte) : (s.emitBytes dc bytes).dc = s.dc := rfl
@[simp] theorem State.emitBytes_rst (dc : Level) (bytes : List Byte) : (s.emitBytes dc bytes).rst = s.rst := rfl
@[simp] theorem State.emitBytes_bl (dc : Level) (bytes : List Byte) : (s.emitBytes dc bytes).bl = s.bl := rfl
@[simp] theorem State.emitBytes_trace (dc : Level) (bytes : List Byte) : (s.emitBytes dc bytes).trace = s.trace ++ bytes.map (Item.byte dc) := rfl
@[simp] theorem State.emitBytes_panel (dc : Level) (bytes : List Byte) : (s.emitBytes dc bytes).panel = bytes.foldl (fun p b => p.receive dc b) s.panel := rfl
@[simp] theorem State.emitBytes_requests (dc : Level) (bytes : List Byte) : (s.emitBytes dc bytes).requests = s.requests := rfl
@[simp] theorem State.emitBytes_busAnswers (dc : Level) (bytes : List Byte) : (s.emitBytes dc bytes).busAnswers = s.busAnswers := rfl
@[simp] theorem State.emitBytes_delayReturns (dc : Level) (bytes : List Byte) : (s.emitBytes dc bytes).delayReturns = s.delayReturns := rfl
@[simp] theorem State.emitBytes_draws (dc : Level) (bytes : List Byte) : (s.emitBytes dc bytes).draws = s.draws := rfl
@[simp] theorem State.emitBytes_hung (dc : Level) (bytes : List Byte) : (s.emitBytes dc bytes).hung = s.hung := rfl

/-! ### `State.select` -/

@[simp] theorem State.select_win (level : Level) : (s.select level).win = s.win := rfl
@[simp] theorem State.select_res (level : Level) : (s.select level).res = s.res := rfl
@[simp] theorem State.select_seq (level : Level) : (s.select level).seq = s.seq := rfl
@[simp] theorem State.select_seqPc (level : Level) : (s.select level).seqPc = s.seqPc := rfl
@[simp] theorem State.select_cfg (level : Level) : (s.select level).cfg = s.cfg := rfl
@[simp] theorem State.select_state (level : Level) : (s.select level).state = s.state := rfl
@[simp] theorem State.select_err (level : Level) : (s.select level).err = s.err := rfl
@[simp] theorem State.select_errCause (level : Level) : (s.select level).errCause = s.errCause := rfl
@[simp] theorem State.select_dc (level : Level) : (s.select level).dc = some level := rfl
@[simp] theorem State.select_rst (level : Level) : (s.select level).rst = s.rst := rfl
@[simp] theorem State.select_bl (level : Level) : (s.select level).bl = s.bl := rfl
@[simp] theorem State.select_trace (level : Level) : (s.select level).trace = s.trace := rfl
@[simp] theorem State.select_panel (level : Level) : (s.select level).panel = s.panel := rfl
@[simp] theorem State.select_requests (level : Level) : (s.select level).requests = s.requests := rfl
@[simp] theorem State.select_busAnswers (level : Level) : (s.select level).busAnswers = s.busAnswers := rfl
@[simp] theorem State.select_delayReturns (level : Level) : (s.select level).delayReturns = s.delayReturns := rfl
@[simp] theorem State.select_draws (level : Level) : (s.select level).draws = s.draws := rfl
@[simp] theorem State.select_hung (level : Level) : (s.select level).hung = s.hung := rfl

/-! ### `State.raise` -/

@[simp] theorem State.raise_win (e : ErrorKind) : (s.raise e).win = s.win := rfl
@[simp] theorem State.raise_res (e : ErrorKind) : (s.raise e).res = s.res := rfl
@[simp] theorem State.raise_seq (e : ErrorKind) : (s.raise e).seq = [] := rfl
@[simp] theorem State.raise_seqPc (e : ErrorKind) : (s.raise e).seqPc = 0 := rfl
@[simp] theorem State.raise_cfg (e : ErrorKind) : (s.raise e).cfg = s.cfg := rfl
@[simp] theorem State.raise_state (e : ErrorKind) : (s.raise e).state = e.stateAfter s.state := rfl
@[simp] theorem State.raise_err (e : ErrorKind) : (s.raise e).err = e.code := rfl
@[simp] theorem State.raise_errCause (e : ErrorKind) : (s.raise e).errCause = e.causeCode := rfl
@[simp] theorem State.raise_dc (e : ErrorKind) : (s.raise e).dc = s.dc := rfl
@[simp] theorem State.raise_rst (e : ErrorKind) : (s.raise e).rst = s.rst := rfl
@[simp] theorem State.raise_bl (e : ErrorKind) : (s.raise e).bl = s.bl := rfl
@[simp] theorem State.raise_trace (e : ErrorKind) : (s.raise e).trace = s.trace := rfl
@[simp] theorem State.raise_panel (e : ErrorKind) : (s.raise e).panel = s.panel := rfl
@[simp] theorem State.raise_requests (e : ErrorKind) : (s.raise e).requests = s.requests := rfl
@[simp] theorem State.raise_busAnswers (e : ErrorKind) : (s.raise e).busAnswers = s.busAnswers := rfl
@[simp] theorem State.raise_delayReturns (e : ErrorKind) : (s.raise e).delayReturns = s.delayReturns := rfl
@[simp] theorem State.raise_draws (e : ErrorKind) : (s.raise e).draws = s.draws := rfl
@[simp] theorem State.raise_hung (e : ErrorKind) : (s.raise e).hung = s.hung := rfl

/-! ### `State.losePointer` -/

@[simp] theorem State.losePointer_win : s.losePointer.win = s.win := rfl
@[simp] theorem State.losePointer_res : s.losePointer.res = s.res := rfl
@[simp] theorem State.losePointer_seq : s.losePointer.seq = s.seq := rfl
@[simp] theorem State.losePointer_seqPc : s.losePointer.seqPc = s.seqPc := rfl
@[simp] theorem State.losePointer_cfg : s.losePointer.cfg = s.cfg := rfl
@[simp] theorem State.losePointer_state : s.losePointer.state = s.state := rfl
@[simp] theorem State.losePointer_err : s.losePointer.err = s.err := rfl
@[simp] theorem State.losePointer_errCause : s.losePointer.errCause = s.errCause := rfl
@[simp] theorem State.losePointer_dc : s.losePointer.dc = s.dc := rfl
@[simp] theorem State.losePointer_rst : s.losePointer.rst = s.rst := rfl
@[simp] theorem State.losePointer_bl : s.losePointer.bl = s.bl := rfl
@[simp] theorem State.losePointer_trace : s.losePointer.trace = s.trace := rfl
@[simp] theorem State.losePointer_panel : s.losePointer.panel =
    { s.panel with index := if s.playsDisplay then Config.writePointer s.draws else s.panel.index } := rfl
@[simp] theorem State.losePointer_requests : s.losePointer.requests = s.requests := rfl
@[simp] theorem State.losePointer_busAnswers : s.losePointer.busAnswers = s.busAnswers := rfl
@[simp] theorem State.losePointer_delayReturns : s.losePointer.delayReturns = s.delayReturns := rfl
@[simp] theorem State.losePointer_draws : s.losePointer.draws = (if s.playsDisplay then s.draws + 1 else s.draws) := rfl
@[simp] theorem State.losePointer_hung : s.losePointer.hung = s.hung := rfl

/-! ### `State.complete` -/

@[simp] theorem State.complete_win : s.complete.win = s.win := rfl
@[simp] theorem State.complete_res : s.complete.res = s.res := rfl
@[simp] theorem State.complete_seq : s.complete.seq = s.seq := rfl
@[simp] theorem State.complete_seqPc : s.complete.seqPc = s.seqPc := rfl
@[simp] theorem State.complete_cfg : s.complete.cfg = s.cfg := rfl
@[simp] theorem State.complete_state : s.complete.state = s.state := rfl
@[simp] theorem State.complete_err : s.complete.err = 0 := rfl
@[simp] theorem State.complete_errCause : s.complete.errCause = 0 := rfl
@[simp] theorem State.complete_dc : s.complete.dc = s.dc := rfl
@[simp] theorem State.complete_rst : s.complete.rst = s.rst := rfl
@[simp] theorem State.complete_bl : s.complete.bl = s.bl := rfl
@[simp] theorem State.complete_trace : s.complete.trace = s.trace := rfl
@[simp] theorem State.complete_panel : s.complete.panel = s.panel := rfl
@[simp] theorem State.complete_requests : s.complete.requests = s.requests := rfl
@[simp] theorem State.complete_busAnswers : s.complete.busAnswers = s.busAnswers := rfl
@[simp] theorem State.complete_delayReturns : s.complete.delayReturns = s.delayReturns := rfl
@[simp] theorem State.complete_draws : s.complete.draws = s.draws := rfl
@[simp] theorem State.complete_hung : s.complete.hung = s.hung := rfl

/-! ### `State.lifecycle` -/

@[simp] theorem State.lifecycle_win : s.lifecycle.win = s.win := rfl
@[simp] theorem State.lifecycle_res : s.lifecycle.res = s.res := rfl
@[simp] theorem State.lifecycle_seq : s.lifecycle.seq = s.seq := rfl
@[simp] theorem State.lifecycle_seqPc : s.lifecycle.seqPc = s.seqPc := rfl
@[simp] theorem State.lifecycle_cfg : s.lifecycle.cfg = s.cfg := rfl
@[simp] theorem State.lifecycle_state : s.lifecycle.state = lifecycleAt (seqBlPulse s.cfg).length (seqReset s.cfg).length s.seq.length s.seqPc s.state := rfl
@[simp] theorem State.lifecycle_err : s.lifecycle.err = s.err := rfl
@[simp] theorem State.lifecycle_errCause : s.lifecycle.errCause = s.errCause := rfl
@[simp] theorem State.lifecycle_dc : s.lifecycle.dc = s.dc := rfl
@[simp] theorem State.lifecycle_rst : s.lifecycle.rst = s.rst := rfl
@[simp] theorem State.lifecycle_bl : s.lifecycle.bl = s.bl := rfl
@[simp] theorem State.lifecycle_trace : s.lifecycle.trace = s.trace := rfl
@[simp] theorem State.lifecycle_panel : s.lifecycle.panel = s.panel := rfl
@[simp] theorem State.lifecycle_requests : s.lifecycle.requests = s.requests := rfl
@[simp] theorem State.lifecycle_busAnswers : s.lifecycle.busAnswers = s.busAnswers := rfl
@[simp] theorem State.lifecycle_delayReturns : s.lifecycle.delayReturns = s.delayReturns := rfl
@[simp] theorem State.lifecycle_draws : s.lifecycle.draws = s.draws := rfl
@[simp] theorem State.lifecycle_hung : s.lifecycle.hung = s.hung := rfl

/-! ### `State.failUop` -/

@[simp] theorem State.failUop_win : s.failUop.win = s.win := rfl
@[simp] theorem State.failUop_res : s.failUop.res = s.res := rfl
@[simp] theorem State.failUop_seq : s.failUop.seq = [] := rfl
@[simp] theorem State.failUop_seqPc : s.failUop.seqPc = 0 := rfl
@[simp] theorem State.failUop_cfg : s.failUop.cfg = s.cfg := rfl
@[simp] theorem State.failUop_state : s.failUop.state = (failureKind s.state).stateAfter s.state := rfl
@[simp] theorem State.failUop_err : s.failUop.err = (failureKind s.state).code := rfl
@[simp] theorem State.failUop_errCause : s.failUop.errCause = (failureKind s.state).causeCode := rfl
@[simp] theorem State.failUop_dc : s.failUop.dc = s.dc := rfl
@[simp] theorem State.failUop_rst : s.failUop.rst = s.rst := rfl
@[simp] theorem State.failUop_bl : s.failUop.bl = s.bl := rfl
@[simp] theorem State.failUop_trace : s.failUop.trace = s.trace := rfl
@[simp] theorem State.failUop_panel : s.failUop.panel =
    { s.panel with index := if s.playsDisplay then Config.writePointer s.draws else s.panel.index } := rfl
@[simp] theorem State.failUop_requests : s.failUop.requests = s.requests := rfl
@[simp] theorem State.failUop_busAnswers : s.failUop.busAnswers = s.busAnswers := rfl
@[simp] theorem State.failUop_delayReturns : s.failUop.delayReturns = s.delayReturns := rfl
@[simp] theorem State.failUop_draws : s.failUop.draws = (if s.playsDisplay then s.draws + 1 else s.draws) := rfl
@[simp] theorem State.failUop_hung : s.failUop.hung = s.hung := rfl

/-! ### `State.driveLine` -/

@[simp] theorem State.driveLine_win (name : LineName) (level : Level) : (s.driveLine name level).win = s.win := by cases name <;> rfl
@[simp] theorem State.driveLine_res (name : LineName) (level : Level) : (s.driveLine name level).res = s.res := by cases name <;> rfl
@[simp] theorem State.driveLine_seq (name : LineName) (level : Level) : (s.driveLine name level).seq = s.seq := by cases name <;> rfl
@[simp] theorem State.driveLine_seqPc (name : LineName) (level : Level) : (s.driveLine name level).seqPc = s.seqPc := by cases name <;> rfl
@[simp] theorem State.driveLine_cfg (name : LineName) (level : Level) : (s.driveLine name level).cfg = s.cfg := by cases name <;> rfl
@[simp] theorem State.driveLine_state (name : LineName) (level : Level) : (s.driveLine name level).state = s.state := by cases name <;> rfl
@[simp] theorem State.driveLine_err (name : LineName) (level : Level) : (s.driveLine name level).err = s.err := by cases name <;> rfl
@[simp] theorem State.driveLine_errCause (name : LineName) (level : Level) : (s.driveLine name level).errCause = s.errCause := by cases name <;> rfl
@[simp] theorem State.driveLine_dc (name : LineName) (level : Level) : (s.driveLine name level).dc = s.dc := by cases name <;> rfl
@[simp] theorem State.driveLine_trace (name : LineName) (level : Level) : (s.driveLine name level).trace = s.trace := by cases name <;> rfl
@[simp] theorem State.driveLine_panel (name : LineName) (level : Level) : (s.driveLine name level).panel = s.panel := by cases name <;> rfl
@[simp] theorem State.driveLine_requests (name : LineName) (level : Level) : (s.driveLine name level).requests = s.requests := by cases name <;> rfl
@[simp] theorem State.driveLine_busAnswers (name : LineName) (level : Level) : (s.driveLine name level).busAnswers = s.busAnswers := by cases name <;> rfl
@[simp] theorem State.driveLine_delayReturns (name : LineName) (level : Level) : (s.driveLine name level).delayReturns = s.delayReturns := by cases name <;> rfl
@[simp] theorem State.driveLine_draws (name : LineName) (level : Level) : (s.driveLine name level).draws = s.draws := by cases name <;> rfl
@[simp] theorem State.driveLine_hung (name : LineName) (level : Level) : (s.driveLine name level).hung = s.hung := by cases name <;> rfl
@[simp] theorem State.driveLine_rst (name : LineName) (level : Level) :
    (s.driveLine name level).rst = if name = .rst then some level else s.rst := by cases name <;> rfl
@[simp] theorem State.driveLine_bl (name : LineName) (level : Level) :
    (s.driveLine name level).bl = if name = .bl then some level else s.bl := by cases name <;> rfl

/-! ### `State.afterBusAnswer` -/

@[simp] theorem State.afterBusAnswer_win : s.afterBusAnswer.win = s.win := by unfold State.afterBusAnswer; split <;> rfl
@[simp] theorem State.afterBusAnswer_res : s.afterBusAnswer.res = s.res := by unfold State.afterBusAnswer; split <;> rfl
@[simp] theorem State.afterBusAnswer_seq : s.afterBusAnswer.seq = s.seq := by unfold State.afterBusAnswer; split <;> rfl
@[simp] theorem State.afterBusAnswer_seqPc : s.afterBusAnswer.seqPc = s.seqPc := by unfold State.afterBusAnswer; split <;> rfl
@[simp] theorem State.afterBusAnswer_cfg : s.afterBusAnswer.cfg = s.cfg := by unfold State.afterBusAnswer; split <;> rfl
@[simp] theorem State.afterBusAnswer_state : s.afterBusAnswer.state = s.state := by unfold State.afterBusAnswer; split <;> rfl
@[simp] theorem State.afterBusAnswer_err : s.afterBusAnswer.err = s.err := by unfold State.afterBusAnswer; split <;> rfl
@[simp] theorem State.afterBusAnswer_errCause : s.afterBusAnswer.errCause = s.errCause := by unfold State.afterBusAnswer; split <;> rfl
@[simp] theorem State.afterBusAnswer_dc : s.afterBusAnswer.dc = s.dc := by unfold State.afterBusAnswer; split <;> rfl
@[simp] theorem State.afterBusAnswer_rst : s.afterBusAnswer.rst = s.rst := by unfold State.afterBusAnswer; split <;> rfl
@[simp] theorem State.afterBusAnswer_bl : s.afterBusAnswer.bl = s.bl := by unfold State.afterBusAnswer; split <;> rfl
@[simp] theorem State.afterBusAnswer_trace : s.afterBusAnswer.trace = s.trace := by unfold State.afterBusAnswer; split <;> rfl
@[simp] theorem State.afterBusAnswer_panel : s.afterBusAnswer.panel = s.panel := by unfold State.afterBusAnswer; split <;> rfl
@[simp] theorem State.afterBusAnswer_requests : s.afterBusAnswer.requests = s.requests := by unfold State.afterBusAnswer; split <;> rfl
@[simp] theorem State.afterBusAnswer_delayReturns : s.afterBusAnswer.delayReturns = s.delayReturns := by unfold State.afterBusAnswer; split <;> rfl
@[simp] theorem State.afterBusAnswer_hung : s.afterBusAnswer.hung = s.hung := by unfold State.afterBusAnswer; split <;> rfl
@[simp] theorem State.afterBusAnswer_busAnswers : s.afterBusAnswer.busAnswers = s.busAnswers.tail := by
  unfold State.afterBusAnswer; split <;> simp_all

/-! ### `State.afterDelayAnswer` -/

@[simp] theorem State.afterDelayAnswer_win : s.afterDelayAnswer.win = s.win := by unfold State.afterDelayAnswer; split <;> rfl
@[simp] theorem State.afterDelayAnswer_res : s.afterDelayAnswer.res = s.res := by unfold State.afterDelayAnswer; split <;> rfl
@[simp] theorem State.afterDelayAnswer_seq : s.afterDelayAnswer.seq = s.seq := by unfold State.afterDelayAnswer; split <;> rfl
@[simp] theorem State.afterDelayAnswer_seqPc : s.afterDelayAnswer.seqPc = s.seqPc := by unfold State.afterDelayAnswer; split <;> rfl
@[simp] theorem State.afterDelayAnswer_cfg : s.afterDelayAnswer.cfg = s.cfg := by unfold State.afterDelayAnswer; split <;> rfl
@[simp] theorem State.afterDelayAnswer_state : s.afterDelayAnswer.state = s.state := by unfold State.afterDelayAnswer; split <;> rfl
@[simp] theorem State.afterDelayAnswer_err : s.afterDelayAnswer.err = s.err := by unfold State.afterDelayAnswer; split <;> rfl
@[simp] theorem State.afterDelayAnswer_errCause : s.afterDelayAnswer.errCause = s.errCause := by unfold State.afterDelayAnswer; split <;> rfl
@[simp] theorem State.afterDelayAnswer_dc : s.afterDelayAnswer.dc = s.dc := by unfold State.afterDelayAnswer; split <;> rfl
@[simp] theorem State.afterDelayAnswer_rst : s.afterDelayAnswer.rst = s.rst := by unfold State.afterDelayAnswer; split <;> rfl
@[simp] theorem State.afterDelayAnswer_bl : s.afterDelayAnswer.bl = s.bl := by unfold State.afterDelayAnswer; split <;> rfl
@[simp] theorem State.afterDelayAnswer_trace : s.afterDelayAnswer.trace = s.trace := by unfold State.afterDelayAnswer; split <;> rfl
@[simp] theorem State.afterDelayAnswer_panel : s.afterDelayAnswer.panel = s.panel := by unfold State.afterDelayAnswer; split <;> rfl
@[simp] theorem State.afterDelayAnswer_requests : s.afterDelayAnswer.requests = s.requests := by unfold State.afterDelayAnswer; split <;> rfl
@[simp] theorem State.afterDelayAnswer_busAnswers : s.afterDelayAnswer.busAnswers = s.busAnswers := by unfold State.afterDelayAnswer; split <;> rfl
@[simp] theorem State.afterDelayAnswer_hung : s.afterDelayAnswer.hung = s.hung := by unfold State.afterDelayAnswer; split <;> rfl
@[simp] theorem State.afterDelayAnswer_delayReturns : s.afterDelayAnswer.delayReturns = s.delayReturns.tail := by
  unfold State.afterDelayAnswer; split <;> simp_all

/-! ### `State.blockReset` -/

@[simp] theorem State.blockReset_win : s.blockReset.win = State.reset.win := rfl
@[simp] theorem State.blockReset_res : s.blockReset.res = State.reset.res := rfl
@[simp] theorem State.blockReset_seq : s.blockReset.seq = [] := rfl
@[simp] theorem State.blockReset_seqPc : s.blockReset.seqPc = 0 := rfl
@[simp] theorem State.blockReset_cfg : s.blockReset.cfg = State.reset.cfg := rfl
@[simp] theorem State.blockReset_state : s.blockReset.state = .uninitialized := rfl
@[simp] theorem State.blockReset_err : s.blockReset.err = 0 := rfl
@[simp] theorem State.blockReset_errCause : s.blockReset.errCause = 0 := rfl
@[simp] theorem State.blockReset_dc : s.blockReset.dc = none := rfl
@[simp] theorem State.blockReset_rst : s.blockReset.rst = none := rfl
@[simp] theorem State.blockReset_bl : s.blockReset.bl = none := rfl
@[simp] theorem State.blockReset_trace : s.blockReset.trace = [] := rfl
@[simp] theorem State.blockReset_hung : s.blockReset.hung = false := rfl
@[simp] theorem State.blockReset_panel : s.blockReset.panel = s.panel := rfl
@[simp] theorem State.blockReset_requests : s.blockReset.requests = s.requests := rfl
@[simp] theorem State.blockReset_busAnswers : s.blockReset.busAnswers = s.busAnswers := rfl
@[simp] theorem State.blockReset_delayReturns : s.blockReset.delayReturns = s.delayReturns := rfl
@[simp] theorem State.blockReset_draws : s.blockReset.draws = s.draws := rfl
@[simp] theorem State.blockReset_busy : s.blockReset.busy = false := rfl

/-! ### The reset state -/

@[simp] theorem reset_busy : State.reset.busy = false := rfl
@[simp] theorem reset_hung : State.reset.hung = false := rfl

end Sys2Proof.Machine
end

