-- ==== Sys2Proof/Laws/Ops.lean ====
section
/-! SUPPORT. One lemma for each shared operation, saying once what it can do. -/

namespace Sys2Proof.Machine

/-! ### Levels -/

@[simp] theorem cmdLevel_eq : cmdLevel = false := rfl
@[simp] theorem dataLevel_eq : dataLevel = true := rfl

theorem Panel.receive_command (p : Panel) (c : Byte) : p.receive false c = p.command c := rfl
theorem Panel.receive_data (p : Panel) (b : Byte) : p.receive true b = p.data b := rfl

/-- What the controller hears of a bus write is the bytes themselves. -/
theorem Panel.hear_bytes (p : Panel) (dc : Level) (bytes : List Byte) :
    (bytes.map (Item.byte dc)).foldl Panel.hear p = bytes.foldl (fun q b => q.receive dc b) p := by
  rw [List.foldl_map]; rfl

/-! ### Busy -/

theorem State.busy_iff (s : State) : s.busy = true ↔ s.seqPc < s.seq.length := by simp [State.busy]

theorem State.not_busy_iff (s : State) : s.busy = false ↔ s.seq.length ≤ s.seqPc := by simp [State.busy]

/-- A busy block has a micro-op to fetch, and only a busy block has. -/
theorem State.busy_of_get {s : State} {u : Instr} (h : s.seq[s.seqPc]? = some u) : s.busy = true := by
  rw [State.busy_iff]
  exact (List.getElem?_eq_some_iff.mp h).1

/-! ### Actions -/

/-- What the action of a micro-op may do to the state: it appends items to the trace, the controller hears their bytes, and
it may drive the three lines and draw answers; every other field stays. -/
structure Acted (s t : State) : Prop where
  win : t.win = s.win
  res : t.res = s.res
  seq : t.seq = s.seq
  seqPc : t.seqPc = s.seqPc
  cfg : t.cfg = s.cfg
  state : t.state = s.state
  err : t.err = s.err
  errCause : t.errCause = s.errCause
  requests : t.requests = s.requests
  hung : t.hung = s.hung
  output : ∃ items : List Item, t.trace = s.trace ++ items ∧ t.panel = items.foldl Panel.hear s.panel

theorem Acted.refl (s : State) : Acted s s :=
  ⟨rfl, rfl, rfl, rfl, rfl, rfl, rfl, rfl, rfl, rfl, [], by simp⟩

theorem Acted.trans {s t u : State} (h : Acted s t) (k : Acted t u) : Acted s u := by
  obtain ⟨i, hi, hp⟩ := h.output
  obtain ⟨j, hj, hq⟩ := k.output
  refine ⟨k.win.trans h.win, k.res.trans h.res, k.seq.trans h.seq, k.seqPc.trans h.seqPc, k.cfg.trans h.cfg,
    k.state.trans h.state, k.err.trans h.err, k.errCause.trans h.errCause, k.requests.trans h.requests,
    k.hung.trans h.hung, i ++ j, ?_, ?_⟩
  · rw [hj, hi, List.append_assoc]
  · rw [hq, hp, List.foldl_append]

theorem Acted.busy {s t : State} (h : Acted s t) : t.busy = s.busy := by simp [State.busy, h.seq, h.seqPc]

/-- Everything a bus write can do: some prefix of the bytes, all of them when it returns. -/
theorem State.busWrite_spec (s : State) (dc : Level) (bytes : List Byte) :
    ∃ n, (s.busWrite dc bytes).2 = s.afterBusAnswer.emitBytes dc (bytes.take n) ∧
      ((s.busWrite dc bytes).1 = .done → bytes.take n = bytes) := by
  unfold State.busWrite
  split
  · exact ⟨bytes.length, by simp, by simp⟩
  · rename_i n _
    exact ⟨n, rfl, by simp⟩
  · rename_i n _
    exact ⟨n, rfl, by simp⟩

theorem Acted.busWrite (s : State) (dc : Level) (bytes : List Byte) : Acted s (s.busWrite dc bytes).2 := by
  obtain ⟨n, h, _⟩ := s.busWrite_spec dc bytes
  rw [h]
  refine ⟨by simp, by simp, by simp, by simp, by simp, by simp, by simp, by simp, by simp, by simp,
    (bytes.take n).map (Item.byte dc), by simp, ?_⟩
  rw [Panel.hear_bytes]
  simp

theorem Acted.select (s : State) (level : Level) : Acted s (s.select level) :=
  ⟨rfl, rfl, rfl, rfl, rfl, rfl, rfl, rfl, rfl, rfl, [], by simp⟩

theorem Acted.sendCommand (s : State) (c : Byte) : Acted s (s.sendCommand c).2 :=
  (Acted.select s cmdLevel).trans (Acted.busWrite _ _ _)

theorem Acted.sendData (s : State) (bytes : List Byte) : Acted s (s.sendData bytes).2 :=
  (Acted.select s dataLevel).trans (Acted.busWrite _ _ _)

theorem Acted.delay (s : State) (ms : BitVec 16) : Acted s (s.delay ms).2 := by
  constructor
  case output => exact ⟨[.delay ms], by simp [State.delay], by simp [State.delay, Panel.hear]⟩
  all_goals simp [State.delay]

theorem Acted.setLine (s : State) (name : LineName) (level : Level) : Acted s (s.setLine name level).2 := by
  constructor
  case output => exact ⟨[.line name level], by simp [State.setLine], by simp [State.setLine, Panel.hear]⟩
  all_goals simp [State.setLine]

theorem Acted.andThen {s : State} {r : Progress × State} {f : State → Progress × State} (h : Acted s r.2)
    (hf : ∀ t, Acted t (f t).2) : Acted s (andThen r f).2 := by
  unfold Machine.andThen
  split
  · exact h.trans (hf _)
  · exact h
  · exact h

theorem Acted.playTriple (s : State) (t : Triple) : Acted s (s.playTriple t).2 := by
  unfold State.playTriple
  refine Acted.andThen (Acted.andThen (Acted.sendCommand s _) fun u => ?_) fun u => ?_
  · split
    · exact Acted.refl u
    · exact Acted.sendData u _
  · split
    · exact Acted.refl u
    · exact Acted.delay u _

/-! ### When the collaborators answer -/

theorem State.busAnswer_cons {s : State} {a : BusAnswer} {more : List BusAnswer} (h : s.busAnswers = a :: more) :
    s.busAnswer = a := by
  simp [State.busAnswer, h]

theorem State.afterBusAnswer_cons {s : State} {a : BusAnswer} {more : List BusAnswer} (h : s.busAnswers = a :: more) :
    s.afterBusAnswer = { s with busAnswers := more } := by
  simp [State.afterBusAnswer, h]

theorem State.delayAnswer_cons {s : State} {a : Bool} {more : List Bool} (h : s.delayReturns = a :: more) :
    s.delayAnswer = a := by
  simp [State.delayAnswer, h]

theorem State.afterDelayAnswer_cons {s : State} {a : Bool} {more : List Bool} (h : s.delayReturns = a :: more) :
    s.afterDelayAnswer = { s with delayReturns := more } := by
  simp [State.afterDelayAnswer, h]

/-- A command byte the transport takes. -/
theorem State.sendCommand_ok {s : State} {more : List BusAnswer} (h : s.busAnswers = .ok :: more) (c : Byte) :
    s.sendCommand c =
      (.done,
        { s with dc := some false, trace := s.trace ++ [.byte false c], panel := s.panel.receive false c, busAnswers := more }) := by
  have h' : (s.select cmdLevel).busAnswers = .ok :: more := h
  simp only [State.sendCommand, State.busWrite, State.busAnswer_cons h', State.afterBusAnswer_cons h']
  rfl

/-- Data bytes the transport takes. -/
theorem State.sendData_ok {s : State} {more : List BusAnswer} (h : s.busAnswers = .ok :: more) (bytes : List Byte) :
    s.sendData bytes =
      (.done,
        { s with
          dc := some true
          trace := s.trace ++ bytes.map (Item.byte true)
          panel := bytes.foldl (fun p b => p.receive true b) s.panel
          busAnswers := more }) := by
  have h' : (s.select dataLevel).busAnswers = .ok :: more := h
  simp only [State.sendData, State.busWrite, State.busAnswer_cons h', State.afterBusAnswer_cons h']
  rfl

/-- A bus write that fails: a prefix of its bytes gets out. -/
theorem State.busWrite_fail {s : State} {more : List BusAnswer} {sent : Nat} (h : s.busAnswers = .fail sent :: more) (dc : Level)
    (bytes : List Byte) :
    s.busWrite dc bytes = (.failed, ({ s with busAnswers := more } : State).emitBytes dc (bytes.take sent)) := by
  simp only [State.busWrite, State.busAnswer_cons h, State.afterBusAnswer_cons h]

/-- A bus write that is never answered: a prefix of its bytes gets out. -/
theorem State.busWrite_hang {s : State} {more : List BusAnswer} {sent : Nat} (h : s.busAnswers = .hang sent :: more) (dc : Level)
    (bytes : List Byte) :
    s.busWrite dc bytes = (.hung, ({ s with busAnswers := more } : State).emitBytes dc (bytes.take sent)) := by
  simp only [State.busWrite, State.busAnswer_cons h, State.afterBusAnswer_cons h]

/-- A delay that never returns. -/
theorem State.delay_hang {s : State} {more : List Bool} (h : s.delayReturns = false :: more) (ms : BitVec 16) :
    s.delay ms = (.hung, { s with trace := s.trace ++ [.delay ms], delayReturns := more }) := by
  have h' : (s.emit (.delay ms)).delayReturns = false :: more := h
  simp only [State.delay, State.delayAnswer_cons h, State.afterDelayAnswer_cons h']
  rfl

/-- A delay that returns. -/
theorem State.delay_ok {s : State} {more : List Bool} (h : s.delayReturns = true :: more) (ms : BitVec 16) :
    s.delay ms = (.done, { s with trace := s.trace ++ [.delay ms], delayReturns := more }) := by
  have h' : (s.emit (.delay ms)).delayReturns = true :: more := h
  simp only [State.delay, State.delayAnswer_cons h, State.afterDelayAnswer_cons h']
  rfl

/-! ### Advance, failure, hang -/

theorem State.playsDisplay_of_not_busy {s : State} (h : s.busy = false) : s.playsDisplay = false := by
  simp [State.playsDisplay, h]

theorem Acted.playsDisplay {s t : State} (h : Acted s t) : t.playsDisplay = s.playsDisplay := by
  simp [State.playsDisplay, h.busy, h.seq, h.cfg]

/-- A failure that is not a DISPLAY's leaves the controller as the bytes sent have left it. -/
theorem State.failUop_panel_of_not_display {s : State} (h : s.playsDisplay = false) : s.failUop.panel = s.panel := by
  simp [h]

/-- The advance after a finished micro-op, in one equation. -/
theorem State.advance_spec (s : State) : Advanced s s.advance := by
  unfold State.advance Advanced
  by_cases hb : s.busy = true
  · have hlt := (State.busy_iff s).mp hb
    simp only [hb, if_true]
    by_cases h1 : s.seqPc + 1 < s.seq.length
    · have h2 : ({ s with seqPc := s.seqPc + 1 } : State).busy = true := by simpa [State.busy] using h1
      simp only [h2, if_true]
      refine ⟨rfl, rfl, by simp, fun _ => ⟨rfl, rfl⟩, fun _ => ⟨rfl, rfl⟩, fun h => by omega⟩
    · have h2 : ({ s with seqPc := s.seqPc + 1 } : State).busy = false := by simpa [State.busy] using h1
      simp only [h2]
      refine ⟨rfl, rfl, by simp, fun _ => ⟨rfl, rfl⟩, fun h => absurd h h1, fun _ => ⟨rfl, rfl⟩⟩
  · have hnl : ¬ s.seqPc < s.seq.length := fun h => hb ((State.busy_iff s).mpr h)
    rw [if_neg hb]
    exact ⟨rfl, rfl, fun _ => ⟨rfl, rfl, rfl, rfl⟩, fun h => absurd h hnl, fun h => by omega, fun h => by omega⟩

/-- What the advance leaves alone. -/
theorem State.advance_frame (s : State) :
    s.advance.win = s.win ∧ s.advance.res = s.res ∧ s.advance.cfg = s.cfg ∧ s.advance.dc = s.dc ∧ s.advance.rst = s.rst ∧
    s.advance.bl = s.bl ∧ s.advance.trace = s.trace ∧ s.advance.panel = s.panel ∧ s.advance.requests = s.requests ∧
    s.advance.busAnswers = s.busAnswers ∧ s.advance.delayReturns = s.delayReturns ∧ s.advance.draws = s.draws ∧
    s.advance.hung = s.hung := by
  unfold State.advance
  split
  · dsimp only
    split <;> exact ⟨rfl, rfl, rfl, rfl, rfl, rfl, rfl, rfl, rfl, rfl, rfl, rfl, rfl⟩
  · exact ⟨rfl, rfl, rfl, rfl, rfl, rfl, rfl, rfl, rfl, rfl, rfl, rfl, rfl⟩

theorem State.settle_done (s : State) : State.settle (.done, s) = s.advance := rfl
theorem State.settle_failed (s : State) : State.settle (.failed, s) = s.failUop := rfl
theorem State.settle_hung (s : State) : State.settle (.hung, s) = { s with hung := true } := rfl

/-- Everything that can follow a micro-op's action: the advance, the failure, or the hang. -/
theorem State.settle_cases (r : Progress × State) :
    State.settle r = r.2.advance ∨ State.settle r = r.2.failUop ∨ State.settle r = { r.2 with hung := true } := by
  obtain ⟨p, t⟩ := r
  cases p
  · exact .inl rfl
  · exact .inr (.inl rfl)
  · exact .inr (.inr rfl)

/-! ### Starting a sequence -/

/-- A sequence started in `Ready`: nothing but SEQ and SEQ_PC changes; an empty one clears ERR and ERR_CAUSE too. -/
theorem State.start_ready {s : State} (h : s.state = .ready) (seq : List Instr) :
    s.start seq =
      if seq.isEmpty then { s with seq := seq, seqPc := 0, err := 0, errCause := 0 } else { s with seq := seq, seqPc := 0 } := by
  have hl : ∀ n1 n2 len pc, lifecycleAt n1 n2 len pc .ready = .ready := by intros; simp [lifecycleAt]
  cases seq with
  | nil =>
    simp only [State.start, State.busy, State.complete, State.lifecycle, h, hl]
    simp [← h]
  | cons u us =>
    simp only [State.start, State.busy, State.complete, State.lifecycle, h, hl]
    simp [← h]

/-- What a started sequence leaves alone, in every state. -/
theorem State.start_frame (s : State) (seq : List Instr) :
    (s.start seq).seq = seq ∧ (s.start seq).seqPc = 0 ∧ (s.start seq).win = s.win ∧ (s.start seq).res = s.res ∧
    (s.start seq).cfg = s.cfg ∧ (s.start seq).dc = s.dc ∧ (s.start seq).rst = s.rst ∧ (s.start seq).bl = s.bl ∧
    (s.start seq).trace = s.trace ∧ (s.start seq).panel = s.panel ∧ (s.start seq).requests = s.requests ∧
    (s.start seq).busAnswers = s.busAnswers ∧ (s.start seq).delayReturns = s.delayReturns ∧
    (s.start seq).draws = s.draws ∧ (s.start seq).hung = s.hung ∧
    (s.start seq).state =
      lifecycleAt (seqBlPulse s.cfg).length (seqReset s.cfg).length seq.length 0 s.state := by
  unfold State.start
  dsimp only
  split <;> exact ⟨rfl, rfl, rfl, rfl, rfl, rfl, rfl, rfl, rfl, rfl, rfl, rfl, rfl, rfl, rfl, rfl⟩

/-! ### A triple whose collaborator calls return -/

/-- The controller after a command byte and its data. -/
def Panel.afterTriple (p : Panel) (e : Triple) : Panel := e.data.foldl (fun q b => q.receive true b) (p.command e.command)

theorem Panel.hear_tripleItems (p : Panel) (e : Triple) : (tripleItems e).foldl Panel.hear p = p.afterTriple e := by
  unfold tripleItems Panel.afterTriple
  rw [List.foldl_append, List.foldl_append, Panel.hear_bytes]
  split <;> rfl

theorem State.playTriple_ok {s : State} {bs : List BusAnswer} {ds : List Bool} (e : Triple)
    (hb : s.busAnswers = .ok :: .ok :: bs) (hd : s.delayReturns = true :: ds) :
    s.playTriple e =
      (.done,
        { s with
          dc := some (!e.data.isEmpty)
          trace := s.trace ++ tripleItems e
          panel := s.panel.afterTriple e
          busAnswers := (if e.data.isEmpty then .ok :: bs else bs)
          delayReturns := (if e.postDelay = 0 then true :: ds else ds) }) := by
  unfold State.playTriple
  rw [State.sendCommand_ok hb]
  simp only [andThen]
  by_cases h1 : e.data.isEmpty = true
  · have h1' : e.data = [] := by simpa using h1
    by_cases h2 : e.postDelay = 0
    · simp [h1', h2, tripleItems, Panel.afterTriple, Panel.receive_command, ← hd]
    · simp only [h1, h2, if_true, if_false]
      refine (State.delay_ok (by exact hd) e.postDelay).trans ?_
      simp [h1', tripleItems, Panel.afterTriple, Panel.receive_command]
      exact h2
  · rw [if_neg h1, State.sendData_ok rfl]
    by_cases h2 : e.postDelay = 0
    · simp [h1, h2, tripleItems, Panel.afterTriple, Panel.receive_command, ← hd]
    · simp only [if_neg h2]
      refine (State.delay_ok (by exact hd) e.postDelay).trans ?_
      simp only [tripleItems, if_neg h2]
      simp [h1, Panel.afterTriple, Panel.receive_command]

/-- A row that is no host operation, its action done: the sequencer moves on, and the outputs are the action's. -/
theorem State.settle_returned {s u : State} {r : Progress × State} (hr : r = (.done, u)) (ha : Acted s r.2) :
    Advanced s (State.settle r) ∧ Kept s (State.settle r) ∧ (State.settle r).trace = u.trace ∧
    (State.settle r).panel = u.panel ∧ (State.settle r).dc = u.dc ∧ (State.settle r).rst = u.rst ∧
    (State.settle r).bl = u.bl ∧ (State.settle r).busAnswers = u.busAnswers ∧
    (State.settle r).delayReturns = u.delayReturns ∧ (State.settle r).draws = u.draws := by
  subst hr
  have hadv := State.advance_spec u
  have hfr := State.advance_frame u
  refine ⟨?_, ?_, ?_⟩
  · unfold Advanced at *
    have e := ha
    rw [e.seq, e.seqPc, e.busy, e.state, e.err, e.errCause, e.cfg, e.hung] at hadv
    exact hadv
  · simp only [Kept, State.settle, hfr]
    exact ⟨ha.win, ha.res, ha.cfg, ha.requests⟩
  · simp [State.settle, hfr]

/-! ### A triple whose collaborator calls do not all return -/

/-- The first write of a triple does not return. -/
theorem State.playTriple_first {s u : State} {p : Progress} (e : Triple) (hp : p ≠ .done)
    (h : s.sendCommand e.command = (p, u)) : s.playTriple e = (p, u) := by
  unfold State.playTriple
  rw [h]
  cases p <;> first | exact absurd rfl hp | rfl

/-- The second write of a triple does not return. -/
theorem State.playTriple_second {s u v : State} {p : Progress} (e : Triple) (hp : p ≠ .done) (hne : e.data ≠ [])
    (h : s.sendCommand e.command = (.done, u)) (k : u.sendData e.data = (p, v)) : s.playTriple e = (p, v) := by
  have hne' : ¬ e.data.isEmpty = true := by simpa using hne
  unfold State.playTriple
  rw [h]
  simp only [Machine.andThen, if_neg hne', k]
  cases p <;> first | exact absurd rfl hp | rfl

/-- The settle delay of a triple never returns. -/
theorem State.playTriple_delay_hang {s : State} {bs : List BusAnswer} {ds : List Bool} (e : Triple) (hp : e.postDelay ≠ 0)
    (hb : s.busAnswers = List.replicate (tripleWrites e).length .ok ++ bs) (hd : s.delayReturns = false :: ds) :
    s.playTriple e =
      (.hung,
        { s with
          dc := some (!e.data.isEmpty)
          trace := s.trace ++ tripleItems e
          panel := s.panel.afterTriple e
          busAnswers := bs
          delayReturns := ds }) := by
  unfold State.playTriple
  by_cases h1 : e.data.isEmpty = true
  · have h1' : e.data = [] := by simpa using h1
    rw [State.sendCommand_ok (more := bs) (by simpa [tripleWrites, h1] using hb)]
    simp only [Machine.andThen, h1, if_true, if_neg hp]
    refine (State.delay_hang (by exact hd) e.postDelay).trans ?_
    simp only [tripleItems, if_neg hp]
    simp [h1', Panel.afterTriple, Panel.receive_command]
  · rw [State.sendCommand_ok (more := .ok :: bs) (by simpa [tripleWrites, h1] using hb)]
    simp only [Machine.andThen, if_neg h1, if_neg hp]
    rw [State.sendData_ok rfl]
    refine (State.delay_hang (by exact hd) e.postDelay).trans ?_
    simp only [tripleItems, if_neg hp]
    simp [h1, Panel.afterTriple, Panel.receive_command]

/-! ### Block reset -/

/-- Block reset of any block leads to a state that meets the invariant, if the controller's memory is canonical. -/
theorem State.blockReset_inv {s : State} (h : Memory.wf s.panel.mem = true) : s.blockReset.Inv where
  memory := h
  position := Nat.le_refl 0
  microOps := nofun
  lineNames := nofun
  errors := by show (0 : BitVec 3).toNat ≤ 6 ∧ (0 : BitVec 3) = if (0 : BitVec 3) = 2 then 1 else 0; decide
  loaded := by simp
  constructing := by simp
  transient := by simp
  idleLines := fun _ _ => ⟨rfl, rfl, rfl⟩
  lines := by simp

/-! ### Acceptance -/

theorem whenIdle_idle {s : State} (hb : s.busy = false) (hh : s.hung = false) (answer : Host.Outcome State Fault Refusal) :
    whenIdle s answer = answer := by
  simp [whenIdle, hb, hh]

theorem whenIdle_next {s t : State} {answer : Host.Outcome State Fault Refusal} (h : whenIdle s answer = .next t) :
    s.busy = false ∧ s.hung = false ∧ answer = .next t := by
  unfold whenIdle at h
  split at h
  · cases h
  · rename_i hc
    simp only [Bool.or_eq_true, not_or, Bool.not_eq_true] at hc
    exact ⟨hc.1, hc.2, h⟩

theorem whenReady_ready {s : State} (hb : s.busy = false) (hh : s.hung = false) (hr : s.state = .ready)
    (answer : Host.Outcome State Fault Refusal) : whenReady s answer = answer := by
  simp [whenReady, whenIdle_idle hb hh, hr]

/-- An operation of a `Ready` block either raises NotReady or answers as it does in `Ready`. -/
theorem whenReady_next {s t : State} {answer : Host.Outcome State Fault Refusal} (h : whenReady s answer = .next t) :
    s.busy = false ∧ s.hung = false ∧
    ((s.state ≠ .ready ∧ t = s.raise .notReady) ∨ (s.state = .ready ∧ answer = .next t)) := by
  obtain ⟨hb, hh, h⟩ := whenIdle_next h
  refine ⟨hb, hh, ?_⟩
  split at h
  · exact .inr ⟨‹_›, h⟩
  · cases h
    exact .inl ⟨‹_›, rfl⟩

end Sys2Proof.Machine
end

