-- ==== Sys2Proof/Laws/PerInstr.lean ====
section
/-! SUPPORT. Facts about every instruction as syntax, one lemma per constructor. -/

namespace Sys2Proof.Laws.EncodedLength

/-- How many bytes an instruction's encoding has at least: its fixed part (R61 to R68), and its bytes where it carries any
(R75). -/
def least : Instr → Nat
  | .construct _ => 20
  | .setWindow _ => 10
  | .display _ _ img => 5 + img.length
  | .setBacklight _ => 2
  | .wait _ => 3
  | .cmd _ => 2
  | .dat bytes => 2 + bytes.length
  | .rgb888 _ _ _ => 3
  | .pix565 _ _ _ => 2
  | .pixbytes _ _ => 2
  | .addr4 _ _ => 4
  | .triple e => 4 + e.data.length
  | _ => 1

/-- The encoding is no shorter than the instruction's parts, so that no operand is dropped for want of room. -/
def Statement (i : Instr) : Prop := ∀ table : Rom, least i ≤ (encode table i).length

theorem count_length (n : Nat) : 1 ≤ (encodeCount n).length := by
  simp only [encodeCount, encodeCountFuel]
  split <;> simp

theorem construct (q : ConstructReq) : Statement (.construct q) := fun _ => by simp [least, encode]
theorem setWindow (q : WindowReq) : Statement (.setWindow q) := fun _ => by simp [least, encode]
theorem display (w h : Word16) (img : List Byte) : Statement (.display w h img) := fun _ => by simp [least, encode]
theorem setBacklight (on : Level) : Statement (.setBacklight on) := fun _ => by simp [least, encode]
theorem getWidth : Statement .getWidth := fun _ => by simp [least, encode]
theorem getHeight : Statement .getHeight := fun _ => by simp [least, encode]
theorem line (name : LineName) (level : Level) : Statement (.line name level) := fun _ => by simp [least, encode]
theorem wait (ms : BitVec 16) : Statement (.wait ms) := fun _ => by simp [least, encode]
theorem cmd (c : Byte) : Statement (.cmd c) := fun _ => by simp [least, encode]
theorem dat (bytes : List Byte) : Statement (.dat bytes) := fun _ => by
  have := count_length bytes.length
  simp only [least, encode, List.length_cons, List.length_append]
  omega
theorem swreset : Statement .swreset := fun _ => by simp [least, encode]
theorem slpout : Statement .slpout := fun _ => by simp [least, encode]
theorem frmctr : Statement .frmctr := fun _ => by simp [least, encode]
theorem pwctrA : Statement .pwctrA := fun _ => by simp [least, encode]
theorem pwctrB : Statement .pwctrB := fun _ => by simp [least, encode]
theorem pwctrC : Statement .pwctrC := fun _ => by simp [least, encode]
theorem invoff : Statement .invoff := fun _ => by simp [least, encode]
theorem invon : Statement .invon := fun _ => by simp [least, encode]
theorem madctl : Statement .madctl := fun _ => by simp [least, encode]
theorem colmod : Statement .colmod := fun _ => by simp [least, encode]
theorem caset : Statement .caset := fun _ => by simp [least, encode]
theorem raset : Statement .raset := fun _ => by simp [least, encode]
theorem ramwr : Statement .ramwr := fun _ => by simp [least, encode]
theorem gmctrp : Statement .gmctrp := fun _ => by simp [least, encode]
theorem gmctrn : Statement .gmctrn := fun _ => by simp [least, encode]
theorem noron : Statement .noron := fun _ => by simp [least, encode]
theorem dispon : Statement .dispon := fun _ => by simp [least, encode]
theorem rgb888 (r g b : Byte) : Statement (.rgb888 r g b) := fun _ => by simp [least, encode]
theorem pix565 (r : BitVec 5) (g : BitVec 6) (b : BitVec 5) : Statement (.pix565 r g b) := fun _ => by simp [least, encode]
theorem pixbytes (x y : Byte) : Statement (.pixbytes x y) := fun _ => by simp [least, encode]
theorem addr4 (b e : Word16) : Statement (.addr4 b e) := fun _ => by simp [least, encode]
theorem triple (e : Triple) : Statement (.triple e) := fun _ => by
  have := count_length e.data.length
  simp only [least, encode, List.length_append, toBytes_length]
  omega

end Sys2Proof.Laws.EncodedLength
end

