-- ==== Sys2Proof/Laws/Sequences.lean ====
section
/-! SUPPORT. What the sequences hold: well-formed micro-ops, and no LINE of a line that is not configured. -/

namespace Sys2Proof.Machine

/-- A micro-op that may stand in a sequence. -/
def Playable (u : Instr) : Prop := u.isMicroOp = true ∧ u.wellFormed = true

theorem expand_playable (e : Triple) : ∀ u ∈ expand e, Playable u ∧ ∀ name level, u ≠ .line name level := by
  intro u hu
  unfold expand at hu
  simp only [List.mem_append, List.mem_singleton] at hu
  rcases hu with (rfl | hu) | hu
  · exact ⟨⟨rfl, rfl⟩, by simp⟩
  · split at hu
    · simp at hu
    · rename_i h
      simp at hu
      subst hu
      exact ⟨⟨rfl, by simpa [Instr.wellFormed] using h⟩, by simp⟩
  · split at hu
    · simp at hu
    · rename_i h
      simp at hu
      subst hu
      exact ⟨⟨rfl, by simpa [Instr.wellFormed] using h⟩, by simp⟩

theorem seqInit_playable (table : Rom) (cfg : DisplayConfig) :
    ∀ u ∈ seqInit table cfg, Playable u ∧ ∀ name level, u ≠ .line name level := by
  intro u hu
  obtain ⟨e, _, he⟩ := List.mem_flatMap.mp hu
  exact expand_playable e u he

theorem constructSeq_playable (table : Rom) (cfg : DisplayConfig) :
    ∀ u ∈ constructSeq table cfg, Playable u ∧ ∀ name level, u = .line name level → lineConfigured cfg name = true := by
  intro u hu
  unfold constructSeq at hu
  simp only [List.mem_append] at hu
  rcases hu with (hu | hu) | hu
  · unfold seqBlPulse at hu
    split at hu
    · simp at hu
      rcases hu with rfl | rfl | rfl <;> simp_all [Playable, Instr.isMicroOp, Instr.wellFormed, lineConfigured, tBlPulse]
    · simp at hu
  · unfold seqReset at hu
    split at hu
    · simp at hu
      rcases hu with rfl | rfl | rfl | rfl | rfl | rfl <;>
        simp_all [Playable, Instr.isMicroOp, Instr.wellFormed, lineConfigured, tRstHold]
    · simp at hu
  · have := seqInit_playable table cfg u hu
    exact ⟨this.1, fun name level h => absurd h (this.2 name level)⟩

theorem seqWindow_playable (table : Rom) (cfg : DisplayConfig) (w : Window) :
    ∀ u ∈ seqWindow table cfg w, Playable u ∧ ∀ name level, u ≠ .line name level := by
  intro u hu
  simp only [seqWindow, List.mem_cons, List.not_mem_nil, or_false] at hu
  rcases hu with rfl | rfl | rfl | rfl | rfl <;>
    simp [Playable, Instr.isMicroOp, Instr.wellFormed, columnBytes, rowBytes, addr4Bytes]

theorem seqInit_length_pos (table : Rom) (cfg : DisplayConfig) : 0 < (seqInit table cfg).length := by
  simp [seqInit, initTriples, swresetTriple, expand]

theorem expand_length_le (e : Triple) : (expand e).length ≤ 3 := by
  unfold expand
  split <;> split <;> simp

/-- The backlight pulse, which comes first, sends no byte: nothing in it can fail. -/
theorem constructSeq_early {table : Rom} {cfg : DisplayConfig} {pc : Nat} {u : Instr}
    (h : (constructSeq table cfg)[pc]? = some u) (hp : pc < (seqBlPulse cfg).length) :
    (∀ c, u ≠ .cmd c) ∧ ∀ bytes, u ≠ .dat bytes := by
  unfold constructSeq at h
  rw [List.append_assoc, List.getElem?_append_left hp] at h
  have hm := List.mem_of_getElem? h
  unfold seqBlPulse at hm
  split at hm
  · simp at hm
    rcases hm with rfl | rfl | rfl <;> simp
  · simp at hm

theorem totalDelay_append (a b : List Instr) : totalDelay (a ++ b) = totalDelay a + totalDelay b := by simp [totalDelay]

theorem totalDelay_expand (e : Triple) : totalDelay (expand e) = e.postDelay.toNat := by
  unfold expand totalDelay
  by_cases h1 : e.data.isEmpty = true <;> by_cases h2 : e.postDelay = 0 <;> simp only [h2, if_true, if_false] <;> simp [h1]

end Sys2Proof.Machine
end

