-- ==== Sys2Proof/Laws/Step.lean ====
section
/-! SUPPORT. What `exec` and `step` can do, said once: each answer that is a next state is of one of five shapes. -/

namespace Sys2Proof.Machine

/-- The shapes of a next state of `exec`. -/
inductive ExecShape (i : Instr) (s t : State) : Prop where
  /-- Every row that is not a host operation: an action, then the advance, the failure or the hang. -/
  | acted (r : Progress × State) (row : i.format ≠ .hostop) (action : Acted s r.2) (eq : t = State.settle r)
  /-- A host operation whose check fails. -/
  | raised (e : ErrorKind) (idle : s.busy = false) (live : s.hung = false)
      (kind : e = .invalidConfig ∨ e = .dimensionMismatch ∨ e = .notReady ∨ e = .invalidWindow) (eq : t = s.raise e)
  /-- A valid CONSTRUCT. -/
  | constructed (q : ConstructReq) (op : i = .construct q) (idle : s.busy = false) (live : s.hung = false)
      (fresh : s.state = .uninitialized) (valid : constructValid q = true)
      (eq : t = ({ s with cfg := loadConfig q, win := defaultWindow (loadConfig q) } : State).start
        (constructSeq rom (loadConfig q)))
  /-- An operation of a `Ready` block that starts a sequence. -/
  | started (w : Window) (seq : List Instr) (idle : s.busy = false) (live : s.hung = false) (ready : s.state = .ready)
      (window : windowValid s.cfg w = true ∨ w = defaultWindow s.cfg ∨ w = s.win)
      (sequence : seq = seqWindow rom s.cfg w ∨
        (∃ img, img.length = (effW s.cfg.width s.cfg.height s.cfg.rot).toNat * (effH s.cfg.width s.cfg.height s.cfg.rot).toNat * 3 ∧
          seq = seqWindow rom s.cfg w ++ seqFrame rotDir s.cfg img) ∨
        ∃ on, seq = seqBacklight s.cfg on)
      (eq : t = ({ s with win := w } : State).start seq)
  /-- An accessor of a `Ready` block. -/
  | answered (v : Word16) (idle : s.busy = false) (live : s.hung = false) (ready : s.state = .ready)
      (eq : t = ({ s with res := v } : State).complete)

/-- The inversion of `exec`. -/
theorem exec_shape {i : Instr} {s t : State} (h : exec i s = .next t) : ExecShape i s t := by
  cases i with
  | construct q =>
    obtain ⟨hb, hh, h⟩ := whenIdle_next h
    split at h
    · rename_i hs
      split at h
      · rename_i hv
        cases h
        exact .constructed q rfl hb hh hs hv rfl
      · cases h
        exact .raised .invalidConfig hb hh (.inl rfl) rfl
    · cases h
  | setWindow q =>
    obtain ⟨hb, hh, ⟨_, h⟩ | ⟨hr, h⟩⟩ := whenReady_next h
    · exact .raised .notReady hb hh (by simp) h
    · dsimp only at h
      split at h
      · rename_i hv
        cases h
        exact .started _ _ hb hh hr (.inl hv) (.inl rfl) rfl
      · cases h
        exact .raised .invalidWindow hb hh (by simp) rfl
  | display w ht img =>
    obtain ⟨hb, hh, ⟨_, h⟩ | ⟨hr, h⟩⟩ := whenReady_next h
    · exact .raised .notReady hb hh (by simp) h
    · split at h
      · rename_i hd
        split at h
        · rename_i hl
          cases h
          exact .started _ _ hb hh hr (.inr (.inl rfl)) (.inr (.inl ⟨img, by rw [hl, hd.1, hd.2], rfl⟩)) rfl
        · cases h
      · cases h
        exact .raised .dimensionMismatch hb hh (by simp) rfl
  | setBacklight on =>
    obtain ⟨hb, hh, ⟨_, h⟩ | ⟨hr, h⟩⟩ := whenReady_next h
    · exact .raised .notReady hb hh (by simp) h
    · cases h
      exact .started s.win _ hb hh hr (.inr (.inr rfl)) (.inr (.inr ⟨on, rfl⟩)) rfl
  | getWidth =>
    obtain ⟨hb, hh, ⟨_, h⟩ | ⟨hr, h⟩⟩ := whenReady_next h
    · exact .raised .notReady hb hh (by simp) h
    · cases h
      exact .answered _ hb hh hr rfl
  | getHeight =>
    obtain ⟨hb, hh, ⟨_, h⟩ | ⟨hr, h⟩⟩ := whenReady_next h
    · exact .raised .notReady hb hh (by simp) h
    · cases h
      exact .answered _ hb hh hr rfl
  | line name level => cases h; exact .acted _ nofun (Acted.setLine s name level) rfl
  | wait ms => cases h; exact .acted _ nofun (Acted.delay s ms) rfl
  | cmd c => cases h; exact .acted _ nofun (Acted.sendCommand s c) rfl
  | dat bytes => cases h; exact .acted _ nofun (Acted.sendData s bytes) rfl
  | swreset => cases h; exact .acted _ nofun (Acted.playTriple s _) rfl
  | slpout => cases h; exact .acted _ nofun (Acted.playTriple s _) rfl
  | frmctr => cases h; exact .acted _ nofun (Acted.playTriple s _) rfl
  | pwctrA => cases h; exact .acted _ nofun (Acted.playTriple s _) rfl
  | pwctrB => cases h; exact .acted _ nofun (Acted.playTriple s _) rfl
  | pwctrC => cases h; exact .acted _ nofun (Acted.playTriple s _) rfl
  | invoff => cases h; exact .acted _ nofun (Acted.playTriple s _) rfl
  | invon => cases h; exact .acted _ nofun (Acted.playTriple s _) rfl
  | madctl => cases h; exact .acted _ nofun (Acted.playTriple s _) rfl
  | colmod => cases h; exact .acted _ nofun (Acted.playTriple s _) rfl
  | caset => cases h; exact .acted _ nofun (Acted.playTriple s _) rfl
  | raset => cases h; exact .acted _ nofun (Acted.playTriple s _) rfl
  | ramwr => cases h; exact .acted _ nofun (Acted.playTriple s _) rfl
  | gmctrp => cases h; exact .acted _ nofun (Acted.playTriple s _) rfl
  | gmctrn => cases h; exact .acted _ nofun (Acted.playTriple s _) rfl
  | noron => cases h; exact .acted _ nofun (Acted.playTriple s _) rfl
  | dispon => cases h; exact .acted _ nofun (Acted.playTriple s _) rfl
  | rgb888 r g b => cases h; exact .acted _ nofun (Acted.sendData s _) rfl
  | pix565 r g b => cases h; exact .acted _ nofun (Acted.sendData s _) rfl
  | pixbytes x y => cases h; exact .acted _ nofun (Acted.sendData s _) rfl
  | addr4 b e => cases h; exact .acted _ nofun (Acted.sendData s _) rfl
  | triple e => cases h; exact .acted _ nofun (Acted.playTriple s _) rfl

/-- What a fetch finds. -/
theorem fetch_cases (s : State) :
    (fetch s = .nothing ∧ (s.hung = true ∨ (s.busy = false ∧ s.requests = []))) ∨
    (∃ u, s.hung = false ∧ s.busy = true ∧ s.seq[s.seqPc]? = some u ∧ fetch s = .run u s) ∨
    (∃ i rest, s.hung = false ∧ s.busy = false ∧ decode rom .hostop s.requests = .ok (i, rest) ∧
      fetch s = .run i { s with requests := rest }) ∨
    (∃ e, s.hung = false ∧ s.busy = false ∧ s.requests ≠ [] ∧ decode rom .hostop s.requests = .error e ∧
      fetch s = .refuse (refusalOf e)) := by
  unfold fetch
  by_cases hh : s.hung = true
  · simp [hh]
  · simp only [hh, if_false, Bool.false_eq_true]
    by_cases hb : s.busy = true
    · have hlt := (State.busy_iff s).mp hb
      simp [hb, hlt]
    · simp only [hb, if_false, Bool.false_eq_true]
      unfold fetchRequest
      cases hr : s.requests with
      | nil => simp
      | cons op rest =>
        simp only
        cases hd : decode rom .hostop (op :: rest) with
        | ok v => simpa using hh
        | error e => simp

/-- The inversion of `step`: it changes nothing, or runs the micro-op at `SEQ_PC`, or the host's next request. -/
theorem step_next {s t : State} (h : step s = .next t) :
    t = s ∨
    (∃ u, s.hung = false ∧ s.busy = true ∧ s.seq[s.seqPc]? = some u ∧ exec u s = .next t) ∨
    (∃ i rest, s.hung = false ∧ s.busy = false ∧ decode rom .hostop s.requests = .ok (i, rest) ∧
      exec i { s with requests := rest } = .next t) := by
  unfold step at h
  rcases fetch_cases s with ⟨hf, _⟩ | ⟨u, hh, hb, hu, hf⟩ | ⟨i, rest, hh, hb, hd, hf⟩ | ⟨e, _, _, _, _, hf⟩
  · rw [hf] at h; cases h; exact .inl rfl
  · rw [hf] at h; exact .inr (.inl ⟨u, hh, hb, hu, h⟩)
  · rw [hf] at h; exact .inr (.inr ⟨i, rest, hh, hb, hd, h⟩)
  · rw [hf] at h; cases h

/-- A run of `n + m` steps whose first `n` answer a next state. -/
theorem run_add {n : Nat} {s t : State} (m : Nat) (h : core.run n s = .next t) : core.run (n + m) s = core.run m t := by
  induction n generalizing s with
  | zero =>
    simp only [Host.Core.run] at h
    cases h
    simp
  | succ n ih =>
    rw [Nat.add_right_comm]
    simp only [Host.Core.run] at h ⊢
    cases hs : core.step s with
    | next u =>
      rw [hs] at h
      exact ih h
    | fault f => rw [hs] at h; cases h
    | refused r => rw [hs] at h; cases h

/-- Every controller command of the table plays its entry. -/
theorem exec_commandTable (s : State) :
    ∀ row ∈ commandTable s.cfg s.win, exec row.1 s = .next (State.settle (s.playTriple row.2)) := by
  unfold commandTable
  repeat' refine List.forall_mem_cons.mpr ⟨rfl, ?_⟩
  exact List.forall_mem_nil _

/-- A controller command or a triple plays its entry. -/
theorem exec_playsTriple {s : State} {u : Instr} {e : Triple} (h : PlaysTriple s u e) :
    exec u s = .next (State.settle (s.playTriple e)) := by
  rcases h with h | rfl
  · exact exec_commandTable s (u, e) h
  · rfl

/-- One of the four data formats sends its bytes as data. -/
theorem exec_formatBytes {s : State} {u : Instr} {bytes : List Byte} (h : FormatBytes u bytes) :
    exec u s = .next (State.settle (s.sendData bytes)) := by
  rcases h with ⟨r, g, b, rfl, rfl⟩ | ⟨r, g, b, rfl, rfl⟩ | ⟨x, y, rfl, rfl⟩ | ⟨b, e, rfl, rfl⟩
  · have one : encodeImage rotDir [r, g, b] 1 1 s.cfg.rot =
        [(pack565 r g b).extractLsb' 8 8, (pack565 r g b).extractLsb' 0 8] := by
      rcases quarterTurn_cases s.cfg.rot with h | h | h | h <;> rw [h] <;> rfl
    show Host.Outcome.next (State.settle (s.sendData (encodeImage rotDir [r, g, b] 1 1 s.cfg.rot))) = _
    rw [one]
  all_goals rfl

end Sys2Proof.Machine
end

