-- ==== Sys2Proof/Machine/Text.lean ====
section
/-! DEFINITION. The text form of host programs, micro-op listings and traces (R76). Nothing in the machine reads it. -/

namespace Sys2Proof.Machine

/-- A hexadecimal digit, in capitals as the spec's traces have them. -/
def hexDigit (n : Nat) : Char :=
  ['0', '1', '2', '3', '4', '5', '6', '7', '8', '9', 'A', 'B', 'C', 'D', 'E', 'F'].getD n '?'

/-- A byte as two hexadecimal digits. -/
def hexByte (b : Byte) : List Char := [hexDigit (b.toNat / 16), hexDigit (b.toNat % 16)]

/-- The decimal digits of a number, with as much fuel as it can need. -/
def decimalFuel : Nat → Nat → List Char
  | 0, _ => []
  | fuel + 1, n => if n < 10 then [hexDigit n] else decimalFuel fuel (n / 10) ++ [hexDigit (n % 10)]

/-- A number in decimal. -/
def decimal (n : Nat) : List Char := decimalFuel (n + 1) n

/-- A level as 0 or 1. -/
def levelText (v : Level) : List Char := if v then ['1'] else ['0']

/-- The name of a line. -/
def lineText : LineName → List Char
  | .rst => "RST".toList
  | .bl => "BL".toList

/-- A trace item: `C:<byte>`, `D:<byte>`, `L:<line>=<level>`, `T:<ms>` (R76). -/
def Item.text : Item → List Char
  | .byte dc b => (if dc = cmdLevel then "C:" else "D:").toList ++ hexByte b
  | .line name level => "L:".toList ++ lineText name ++ ['='] ++ levelText level
  | .delay ms => "T:".toList ++ decimal ms.toNat

/-- `<w>x<h>`. -/
def sizeText (w h : Word16) : List Char := decimal w.toNat ++ ['x'] ++ decimal h.toNat

/-- One pixel `(R,G,B)` of an image text. -/
def pixelText (p : Rgb) : List Char :=
  ['('] ++ decimal p.1.toNat ++ [','] ++ decimal p.2.1.toNat ++ [','] ++ decimal p.2.2.toNat ++ [')']

/-- The pixels of an image, row by row. -/
def imageText (img : List Byte) (w h : Nat) : List Char :=
  (List.range h).flatMap fun r => (List.range w).flatMap fun c => ' ' :: pixelText (imgPixel img w r c)

/-- One optional operand ` name=<n>` of `setwindow`. -/
def operandText (name : List Char) : Option Word16 → List Char
  | some v => [' '] ++ name ++ ['='] ++ decimal v.toNat
  | none => []

/-- The offsets of `construct`; the text form has them both or neither (R76). -/
def offsetText : Option Word16 → Option Word16 → Option (List Char)
  | some l, some t => some (" off=".toList ++ decimal l.toNat ++ [','] ++ decimal t.toNat)
  | none, none => some []
  | some _, none => none
  | none, some _ => none

/-- The text of a host operation or a micro-op; the other rows have none (R76). -/
def instrText : Instr → Option (List Char)
  | .construct q =>
    (offsetText q.offLeft q.offTop).map fun off =>
      "construct panel=".toList ++ sizeText q.panelW q.panelH ++ " size=".toList ++ sizeText q.width q.height ++
      " rot=".toList ++ decimal q.rotationDeg.toNat ++ off ++ " invert=".toList ++ levelText q.invert ++
      " hz=".toList ++ decimal q.spiHz.toNat ++ " rst=".toList ++ levelText q.hasRst ++ " bl=".toList ++ levelText q.hasBl
  | .setWindow q =>
    some ("setwindow".toList ++ operandText "x0".toList q.x0 ++ operandText "y0".toList q.y0 ++
      operandText "x1".toList q.x1 ++ operandText "y1".toList q.y1)
  | .display w h img =>
    some ("display ".toList ++ sizeText w h ++ [':'] ++ imageText img w.toNat h.toNat)
  | .setBacklight on => some ("backlight ".toList ++ levelText on)
  | .getWidth => some "getwidth".toList
  | .getHeight => some "getheight".toList
  | .line name level => some ("line ".toList ++ lineText name ++ [' '] ++ levelText level)
  | .wait ms => some ("wait ".toList ++ decimal ms.toNat)
  | .cmd c => some ("cmd ".toList ++ hexByte c)
  | .dat bytes => some ("dat".toList ++ bytes.flatMap fun b => ' ' :: hexByte b)
  | _ => none

end Sys2Proof.Machine
end

