-- ==== Sys2Proof/Tests/Slice0.lean ====
section
/-! SUPPORT. Tests on small cases, whose expected values are the spec's (95_test_vectors.md and the rules named), and a witness
for the hypotheses of every statement of Certificates/Slice0/Obligations.lean. -/

namespace Sys2Proof.Tests

open Sys2Proof.Machine

/-! ### States and values for the tests -/

/-- Panel 128 by 160, logical 128 by 128, rotation 0, no optional line (95_test_vectors.md section 2.4). -/
def cfg128 : DisplayConfig where
  panelW := 128
  panelH := 160
  width := 128
  height := 128
  rot := 0
  offsetLeft := 0
  offsetTop := 16
  invert := false
  spiHz := 0
  hasRst := false
  hasBl := false

/-- Panel and logical size 2 by 3, one quarter-turn, both optional lines (95_test_vectors.md P1). -/
def cfg23 : DisplayConfig where
  panelW := 2
  panelH := 3
  width := 2
  height := 3
  rot := 1
  offsetLeft := 0
  offsetTop := 0
  invert := true
  spiHz := 4000000
  hasRst := true
  hasBl := true

/-- An idle block in `Ready` whose collaborators answer. -/
def ready (cfg : DisplayConfig) : State :=
  { State.reset with
    cfg := cfg
    win := defaultWindow cfg
    state := .ready
    dc := some false
    busAnswers := List.replicate 12 .ok
    delayReturns := List.replicate 12 true }

/-- A block in `Ready` with one sequence in flight. -/
def playing (seq : List Instr) : State := { ready cfg128 with seq := seq }

/-- A block that plays its construction sequence, at a position and a lifecycle state. -/
def constructing (cfg : DisplayConfig) (pc : Nat) (st : Lifecycle) : State :=
  { ready cfg with seq := constructSeq rom cfg, seqPc := pc, state := st, dc := none }

/-- The CONSTRUCT of P1. -/
def reqP1 : ConstructReq where
  panelW := 2
  panelH := 3
  width := 2
  height := 3
  rotationDeg := 90
  offLeft := none
  offTop := none
  invert := true
  spiHz := 4000000
  hasRst := true
  hasBl := true

/-- A CONSTRUCT on panel 128 by 160 without optional lines (V-H1 to V-H11). -/
def req128 (width height deg : Word16) (offLeft offTop : Option Word16) : ConstructReq where
  panelW := 128
  panelH := 160
  width := width
  height := height
  rotationDeg := deg
  offLeft := offLeft
  offTop := offTop
  invert := false
  spiHz := 0
  hasRst := false
  hasBl := false

/-- The TEST ROM of 95_test_vectors.md section 3. -/
def testRom : Rom :=
  { rom with
    frmctrData := [0xA1, 0xA2]
    pwctrA := 0xF1
    pwctrAData := [0xA3]
    pwctrB := 0xF2
    pwctrBData := [0xA4]
    pwctrC := 0xF3
    pwctrCData := [0xA5, 0xA6]
    madctlData := 0xA7
    gammaP := #v[0x10, 0x11, 0x12, 0x13, 0x14, 0x15, 0x16, 0x17, 0x18, 0x19, 0x1A, 0x1B, 0x1C, 0x1D, 0x1E, 0x1F]
    gammaN := #v[0x20, 0x21, 0x22, 0x23, 0x24, 0x25, 0x26, 0x27, 0x28, 0x29, 0x2A, 0x2B, 0x2C, 0x2D, 0x2E, 0x2F] }

/-- IMG6 of 95_test_vectors.md section 2.1, 3 columns by 2 rows. -/
def img6 : List Byte :=
  [255, 0, 0, 0, 255, 0, 0, 0, 255] ++ [255, 255, 255, 0, 0, 0, 8, 4, 8]

/-- The next state of an answer, if it is one. -/
def nextOf : Host.Outcome State Fault Refusal → Option State
  | .next t => some t
  | .fault _ => none
  | .refused _ => none

/-- A field of the next state of an instruction. -/
def after {α : Type} (i : Instr) (s : State) (f : State → α) : Option α := (nextOf (exec i s)).map f

/-- What the decoder reads, for comparison. -/
def reads (table : Rom) (fmt : Format) (bytes : List Byte) : Option (Instr × List Byte) := (decode table fmt bytes).toOption

/-! ### Ill-formed instructions, and bytes that are none -/

-- R61: the image of a DISPLAY has exactly img_w * img_h * 3 bytes.
theorem test_wf_display_short_image : (Instr.display 2 1 [1, 2, 3]).wellFormed = false := by decide
theorem test_wf_display : (Instr.display 2 1 [1, 2, 3, 4, 5, 6]).wellFormed = true := by decide
-- R102: at least 1 ms.
theorem test_wf_wait_zero : (Instr.wait 0).wellFormed = false := by decide
-- R74(e): a DAT of no byte is never generated.
theorem test_wf_dat_empty : (Instr.dat []).wellFormed = false := by decide

theorem test_decode_rejects_wait_zero : reads rom .uop [0x01, 0x00, 0x00] = none := by decide
theorem test_decode_rejects_dat_empty : reads rom .uop [0x03, 0x00] = none := by decide
theorem test_decode_rejects_short_image : reads rom .hostop [0x03, 0x01, 0x00, 0x01, 0x00, 0xFF] = none := by decide
-- R74(a): ops 0x00 and 0x07 select no operation.
theorem test_decode_rejects_ops : reads rom .hostop [0x00] = none ∧ reads rom .hostop [0x07] = none := by decide
-- R74(g): a byte of no entry is no controller command.
theorem test_decode_rejects_command : reads testRom .dcs [0x00] = none := by decide

/-! ### Decoding: words written out from R61 to R68, fields from bit 0 up (log entries 2, 3) -/

-- P1: op 01; 2, 3, 2, 3, 90 as 16-bit fields; then 69 bits: has_off_left, off_left, has_off_top, off_top all 0, invert at bit
-- 34, spi_hz = 0x3D0900 from bit 35, has_rst at bit 67, has_bl at bit 68.
theorem test_decode_construct :
    reads rom .hostop ([0x01, 0x02, 0x00, 0x03, 0x00, 0x02, 0x00, 0x03, 0x00, 0x5A] ++
      [0x00, 0x00, 0x00, 0x00, 0x00, 0x04, 0x48, 0xE8, 0x01, 0x18]) = some (.construct reqP1, []) := by decide
-- V-H9 at 270 degrees: both offsets given, 8 and 10.
theorem test_decode_construct_offsets :
    reads rom .hostop ([0x01, 0x80, 0x00, 0xA0, 0x00, 0x78, 0x00, 0x96, 0x00, 0x0E] ++
      [0x01, 0x11, 0x00, 0x2A, 0x00, 0x00, 0x00, 0x00, 0x00, 0x00]) =
      some (.construct (req128 120 150 270 (some 8) (some 10)), []) := by decide
-- V-H13: x0=10 y0=20 x1=19 y1=29, each with its has_ bit.
theorem test_decode_setWindow :
    reads rom .hostop [0x02, 0x15, 0x00, 0x52, 0x00, 0x9C, 0x00, 0xD8, 0x01, 0x00] =
      some (.setWindow ⟨some 10, some 20, some 19, some 29⟩, []) := by decide
-- V-H14: x1=128 alone.
theorem test_decode_setWindow_defaults :
    reads rom .hostop [0x02, 0x00, 0x00, 0x00, 0x00, 0x04, 0x04, 0x00, 0x00, 0x00] =
      some (.setWindow ⟨none, none, some 128, none⟩, []) := by decide
-- P2: img_w = 3, img_h = 2, IMG.
theorem test_decode_display :
    reads rom .hostop ([0x03, 0x03, 0x00, 0x02, 0x00] ++ img6 ++ [0x05]) = some (.display 3 2 img6, [0x05]) := by decide
theorem test_decode_setBacklight :
    reads rom .hostop [0x04, 0x01] = some (.setBacklight true, []) ∧
    reads rom .hostop [0x04, 0x00] = some (.setBacklight false, []) := by decide
theorem test_decode_getWidth : reads rom .hostop [0x05] = some (.getWidth, []) := by decide
theorem test_decode_getHeight : reads rom .hostop [0x06] = some (.getHeight, []) := by decide

-- R62: tag 00, line, level.
theorem test_decode_line :
    reads rom .uop [0x00] = some (.line .rst false, []) ∧ reads rom .uop [0x04] = some (.line .bl false, []) ∧
    reads rom .uop [0x08] = some (.line .rst true, []) ∧ reads rom .uop [0x0C] = some (.line .bl true, []) := by decide
-- R62: tag 01, ms = 150 = 0x96: 0x96 * 4 + 1 = 0x259.
theorem test_decode_wait : reads rom .uop [0x59, 0x02, 0x00] = some (.wait 150, []) := by decide
-- R62: tag 10, c = 0x2C: 0x2C * 4 + 2 = 0xB2.
theorem test_decode_cmd : reads rom .uop [0xB2, 0x00] = some (.cmd 0x2C, []) := by decide
-- R62: tag 11, n = 4, four bytes (V-U5).
theorem test_decode_dat :
    reads rom .uop [0x03, 0x04, 0x00, 0x02, 0x00, 0x81, 0x77] = some (.dat [0x00, 0x02, 0x00, 0x81], [0x77]) := by decide
-- A count of 128 takes two bytes (log entry 3).
theorem test_decode_count : decodeCount [0x80, 0x01, 0x05] = some (128, [0x05]) := by decide

-- R73: the command bytes; the three power-control bytes are those of the TEST ROM.
theorem test_decode_swreset : reads testRom .dcs [0x01] = some (.swreset, []) := by decide
theorem test_decode_slpout : reads testRom .dcs [0x11] = some (.slpout, []) := by decide
theorem test_decode_frmctr : reads testRom .dcs [0xB1] = some (.frmctr, []) := by decide
theorem test_decode_pwctr :
    reads testRom .dcs [0xF1] = some (.pwctrA, []) ∧ reads testRom .dcs [0xF2] = some (.pwctrB, []) ∧
    reads testRom .dcs [0xF3] = some (.pwctrC, []) := by decide
theorem test_decode_invoff : reads testRom .dcs [0x20] = some (.invoff, []) := by decide
theorem test_decode_invon : reads testRom .dcs [0x21] = some (.invon, []) := by decide
theorem test_decode_madctl : reads testRom .dcs [0x36] = some (.madctl, []) := by decide
theorem test_decode_colmod : reads testRom .dcs [0x3A] = some (.colmod, []) := by decide
theorem test_decode_caset : reads testRom .dcs [0x2A] = some (.caset, []) := by decide
theorem test_decode_raset : reads testRom .dcs [0x2B] = some (.raset, []) := by decide
theorem test_decode_ramwr : reads testRom .dcs [0x2C] = some (.ramwr, []) := by decide
theorem test_decode_gmctrp : reads testRom .dcs [0xE0] = some (.gmctrp, []) := by decide
theorem test_decode_gmctrn : reads testRom .dcs [0xE1] = some (.gmctrn, []) := by decide
theorem test_decode_noron : reads testRom .dcs [0x13] = some (.noron, []) := by decide
theorem test_decode_dispon : reads testRom .dcs [0x29] = some (.dispon, []) := by decide

-- R64: R, G, B.
theorem test_decode_rgb888 : reads rom .rgb888 [0x12, 0x34, 0x56] = some (.rgb888 0x12 0x34 0x56, []) := by decide
-- R65: 0xCB26 = 11001 011001 00110.
theorem test_decode_pix565 : reads rom .pix565 [0x26, 0xCB] = some (.pix565 0b11001 0b011001 0b00110, []) := by decide
-- R66: first byte, second byte.
theorem test_decode_pixbytes : reads rom .pixbytes [0xCB, 0x26] = some (.pixbytes 0xCB 0x26, []) := by decide
-- R67, V-S6: ADDR4(300, 319).
theorem test_decode_addr4 : reads rom .addr4 [0x01, 0x2C, 0x01, 0x3F] = some (.addr4 300 319, []) := by decide
-- R63: command, delay, count, data (log entry 3).
theorem test_decode_triple :
    reads rom .triple [0x11, 0xF4, 0x01, 0x02, 0xAA, 0xBB] = some (.triple ⟨0x11, [0xAA, 0xBB], 500⟩, []) := by decide

/-! ### The codec (95_test_vectors.md section 2.1) -/

theorem test_pack_general : pack565 0x12 0x34 0x56 = 0x11AA := by decide            -- V-C11
theorem test_pack_fields : pack565 128 128 128 = 0x8410 ∧ pack565 255 255 0 = 0xFFE0 := by decide   -- V-C10, V-C8
theorem test_bytes565 : bytes565 0x8410 = [0x84, 0x10] := by decide                 -- V-C18
theorem test_unpack : unpack565 0xCB26 = (200, 100, 48) := by decide                -- V-C14
theorem test_encode_0 :                                                             -- V-C28
    encodeImage .ccw img6 3 2 0 = [0xF8, 0x00, 0x07, 0xE0, 0x00, 0x1F, 0xFF, 0xFF, 0x00, 0x00, 0x08, 0x21] := by decide
theorem test_encode_ccw_1 :                                                         -- V-C29
    encodeImage .ccw img6 3 2 1 = [0x00, 0x1F, 0x08, 0x21, 0x07, 0xE0, 0x00, 0x00, 0xF8, 0x00, 0xFF, 0xFF] := by decide
theorem test_encode_2 :                                                             -- V-C30
    encodeImage .ccw img6 3 2 2 = [0x08, 0x21, 0x00, 0x00, 0xFF, 0xFF, 0x00, 0x1F, 0x07, 0xE0, 0xF8, 0x00] := by decide
theorem test_encode_ccw_3 :                                                         -- V-C31
    encodeImage .ccw img6 3 2 3 = [0xFF, 0xFF, 0xF8, 0x00, 0x00, 0x00, 0x07, 0xE0, 0x08, 0x21, 0x00, 0x1F] := by decide
theorem test_encode_cw :                                                            -- V-C32, V-C33
    encodeImage .cw img6 3 2 1 = encodeImage .ccw img6 3 2 3 ∧
    encodeImage .cw img6 3 2 3 = encodeImage .ccw img6 3 2 1 := by decide
-- R69: most significant bit first; 0x81 is 1000 0001.
theorem test_spi : spiBits 0x81 = [true, false, false, false, false, false, false, true] := by decide

/-! ### Sequences (section 2.3) -/

theorem test_addr4 : addr4Bytes 255 256 = [0x00, 0xFF, 0x01, 0x00] := by decide      -- V-S5
theorem test_seqWindow :                                                             -- V-S7
    seqWindow rom cfg128 ⟨10, 20, 19, 29⟩ =
      [.cmd 0x2A, .dat [0x00, 0x0A, 0x00, 0x13], .cmd 0x2B, .dat [0x00, 0x24, 0x00, 0x2D], .cmd 0x2C] := by decide
theorem test_seqInit_inversion :                                                     -- V-S9
    (inversionTriple rom false).command = 0x20 ∧ (inversionTriple rom true).command = 0x21 := by decide
-- V-S10: steps 10 and 11 of the init sequence with the TEST ROM, before the gamma tables.
theorem test_seqInit_window :
    ((seqInit testRom cfg128).drop 17).take 5 =
      [.cmd 0x2A, .dat [0x00, 0x00, 0x00, 0x7F], .cmd 0x2B, .dat [0x00, 0x10, 0x00, 0x8F], .cmd 0xE0] := by decide
-- V-S11: 15 CMD, 10 DAT, 4 WAIT.
theorem test_seqInit_counts : (seqInit testRom cfg23).length = 29 ∧ totalDelay (seqInit testRom cfg23) = 760 := by decide
-- P1: 38 micro-ops, of which the first nine are the two pulses; 2360 ms.
theorem test_constructSeq :
    (constructSeq testRom cfg23).length = 38 ∧ totalDelay (constructSeq testRom cfg23) = 2360 ∧
    (constructSeq testRom cfg23).take 3 = [.line .bl false, .wait 100, .line .bl true] := by decide

/-! ### Micro-ops (section 2.2) -/

theorem test_line : after (.line .rst false) { playing [.line .rst false] with rst := some true } (fun t => (t.trace, t.rst)) =
    some ([.line .rst false], some false) := by decide                              -- V-U1
theorem test_line_repeated : after (.line .bl true) { playing [.line .bl true] with bl := some true } State.trace =
    some [.line .bl true] := by decide                                              -- V-U2
theorem test_wait : after (.wait 150) (playing [.wait 150]) (fun t => (t.trace, t.dc, t.seqPc)) =
    some ([.delay 150], some false, 1) := by decide                                 -- V-U3
theorem test_cmd : after (.cmd 0x2C) { playing [.cmd 0x2C] with dc := some true } (fun t => (t.trace, t.dc)) =
    some ([.byte false 0x2C], some false) := by decide                              -- V-U4
theorem test_dat : after (.dat [0x00, 0x02, 0x00, 0x81]) (playing [.dat [0x00, 0x02, 0x00, 0x81]]) (fun t => (t.trace, t.dc)) =
    some ([.byte true 0x00, .byte true 0x02, .byte true 0x00, .byte true 0x81], some true) := by decide   -- V-U5
theorem test_dat_fails : after (.dat [0x00, 0x02, 0x00, 0x81])
    { playing [.dat [0x00, 0x02, 0x00, 0x81]] with busAnswers := [.fail 2] } (fun t => (t.trace, t.err, t.seq, t.state)) =
    some ([.byte true 0x00, .byte true 0x02], 1, [], .ready) := by decide           -- V-U7
theorem test_cmd_fails : after (.cmd 0x11)
    { playing [.cmd 0x11] with busAnswers := [.fail 0], state := .initializing }
    (fun t => (t.trace, t.err, t.errCause, t.state)) = some ([], 2, 1, .failed) := by decide   -- V-U8

/-! ### Host operations (section 2.4) -/

theorem test_construct_validation :                                                  -- V-H1, V-H2, V-H7 to V-H10
    constructValid (req128 128 160 270 none none) = true ∧ constructValid (req128 128 160 45 none none) = false ∧
    constructValid (req128 128 160 360 none none) = false ∧ constructValid (req128 129 160 0 none none) = false ∧
    constructValid (req128 0 160 0 none none) = false ∧ constructValid (req128 120 150 0 (some 8) (some 10)) = true ∧
    constructValid (req128 120 150 0 (some 9) (some 10)) = false := by decide
theorem test_construct_offsets :                                                     -- V-H6, V-H11
    (loadConfig (req128 1 1 0 none none)).offsetLeft = 63 ∧ (loadConfig (req128 1 1 0 none none)).offsetTop = 79 ∧
    (loadConfig (req128 120 150 0 (some 8) none)).offsetLeft = 8 ∧
    (loadConfig (req128 120 150 0 (some 8) none)).offsetTop = 5 := by decide
theorem test_setWindow : after (.setWindow ⟨none, none, none, none⟩) (ready cfg128) (fun t => (t.win, t.seq)) =   -- V-H12
    some (⟨0, 0, 127, 127⟩,
      [.cmd 0x2A, .dat [0x00, 0x00, 0x00, 0x7F], .cmd 0x2B, .dat [0x00, 0x10, 0x00, 0x8F], .cmd 0x2C]) := by decide
theorem test_setWindow_bounds :                                                      -- V-H14 to V-H16
    after (.setWindow ⟨none, none, some 128, none⟩) (ready cfg128) (fun t => (t.err, t.trace)) = some (6, []) ∧
    after (.setWindow ⟨none, none, none, some 143⟩) (ready cfg128) (fun t => (t.err, t.win.y1)) = some (0, 143) ∧
    after (.setWindow ⟨none, none, none, some 144⟩) (ready cfg128) (fun t => (t.err, t.win.y1)) = some (6, 127) := by decide
theorem test_display : after (.display 3 2 img6) (ready cfg23) (fun t => t.seq.getLast?) =   -- P2
    some (some (.dat [0x00, 0x1F, 0x08, 0x21, 0x07, 0xE0, 0x00, 0x00, 0xF8, 0x00, 0xFF, 0xFF])) := by decide
theorem test_display_mismatch : after (.display 2 3 img6) (ready cfg23) (fun t => (t.err, t.busy)) = some (4, false) := by
  decide                                                                             -- V-E4
theorem test_setBacklight :                                                          -- V-H18, R147
    after (.setBacklight false) (ready cfg128) (fun t => (t.err, t.trace, t.busy)) = some (0, [], false) ∧
    after (.setBacklight false) (ready cfg23) State.seq = some [.line .bl false] := by decide
theorem test_getWidth : after .getWidth (ready cfg23) State.res = some 3 := by decide     -- P1
theorem test_getHeight : after .getHeight (ready cfg23) State.res = some 2 := by decide   -- P1
-- V-E1: before CONSTRUCT a DISPLAY of a wrong-sized image gives NotReady.
theorem test_display_not_ready : after (.display 2 3 img6) State.reset (fun t => (t.err, t.trace)) = some (5, []) := by decide

/-! ### Controller commands and data formats -/

-- R119 step 2 as one instruction (log entry 21): C:11 T:500.
theorem test_slpout : after .slpout (playing [.slpout]) State.trace = some [.byte false 0x11, .delay 500] := by decide
-- R119 step 9: C:3A D:05.
theorem test_colmod : after .colmod (playing [.colmod]) State.trace = some [.byte false 0x3A, .byte true 0x05] := by decide
-- R123: the rows 16 to 143 of the default window of `cfg128`.
theorem test_raset : after .raset (playing [.raset]) (fun t => (t.trace, t.panel.ys, t.panel.ye)) =
    some ([.byte false 0x2B, .byte true 0x00, .byte true 0x10, .byte true 0x00, .byte true 0x8F], 16, 143) := by decide
-- R64, R83, R84: V-C11, V-C15.
theorem test_rgb888 : after (.rgb888 0x12 0x34 0x56) (playing []) State.trace = some [.byte true 0x11, .byte true 0xAA] := by
  decide
-- R65, R84: 0xCB26.
theorem test_pix565 : after (.pix565 0b11001 0b011001 0b00110) (playing []) State.trace =
    some [.byte true 0xCB, .byte true 0x26] := by decide
-- R67: V-S6.
theorem test_addr4_sent : after (.addr4 300 319) (playing []) State.trace =
    some [.byte true 0x01, .byte true 0x2C, .byte true 0x01, .byte true 0x3F] := by decide
-- R63.
theorem test_triple : after (.triple ⟨0x11, [0xAA], 500⟩) (playing []) State.trace =
    some [.byte false 0x11, .byte true 0xAA, .delay 500] := by decide

-- R58: the second byte of a pixel is stored after the first, at the window's next place: index 3 in a window 2 wide is
-- column 1, row 1.
theorem test_panel_pixel :
    (([0x12, 0x34] : List Byte).foldl (fun (p : Panel) b => p.receive true b)
      ({ State.reset.panel with xs := 10, xe := 11, ys := 20, ye := 22, index := 3, phase := .pixels } : Panel)).pixel 11 21 =
      some 0x1234 := by decide

-- R26, R58: in a failed SET_WINDOW the write index is 0 where the memory-write byte got out, and as it was where it did not.
theorem test_failed_setWindow_pointer :
    ∀ p ∈ [(1, 0), (0, 7)],
      let s := playing (seqWindow rom cfg128 (defaultWindow cfg128))
      let s := { s with seqPc := 4, busAnswers := [.fail p.1], panel := { s.panel with index := 7 } }
      after (.cmd 0x2C) s (fun t => (t.err, t.panel.index, t.draws)) = some (1, p.2, 0) := by decide
-- R26, R210, P5: in a failed DISPLAY the write index is a free value, and the bytes sent are in the trace.
theorem test_failed_display_pointer :
    let s := playing (seqWindow rom cfg128 (defaultWindow cfg128) ++ [.dat [0x08, 0x21, 0x00]])
    let s := { s with seqPc := 5, busAnswers := [.fail 2] }
    after (.dat [0x08, 0x21, 0x00]) s (fun t => (t.err, t.panel.index, t.trace)) =
      some (1, Config.writePointer 0, [.byte true 0x08, .byte true 0x21]) := by rfl

-- R200: what a block reset leaves of a block in `Failed` and of the controller it has opened for pixels.
theorem test_blockReset :
    let s : State := { ready cfg23 with state := .failed, err := 2, rst := some true, trace := [.delay 5] }
    let t := ({ s with panel := { s.panel with phase := .pixels, index := 7 } } : State).blockReset
    t.state = .uninitialized ∧ t.err = 0 ∧ t.rst = none ∧ t.trace = [] ∧ t.panel.index = 7 ∧ t.panel.isOpen = true := by decide

/-! ### Text (R76) -/

theorem test_text_trace :
    (Item.byte false 0x2C).text = "C:2C".toList ∧ (Item.byte true 0x0A).text = "D:0A".toList ∧
    (Item.line .rst false).text = "L:RST=0".toList ∧ (Item.delay 150).text = "T:150".toList := by decide
theorem test_text_instr :
    instrText (.construct reqP1) = some "construct panel=2x3 size=2x3 rot=90 invert=1 hz=4000000 rst=1 bl=1".toList ∧
    instrText (.setWindow ⟨none, none, some 128, none⟩) = some "setwindow x1=128".toList ∧
    instrText (.dat [0x00, 0x02]) = some "dat 00 02".toList := by decide

/-! ### Witnesses: a case that meets the hypotheses of each statement, named after it -/

/-- An idle block in `Ready` that has played nothing meets the invariant. -/
theorem ready_inv (cfg : DisplayConfig) (h : cfg.legal = true) (hw : windowValid cfg (defaultWindow cfg) = true) :
    (ready cfg).Inv where
  memory := rfl
  position := Nat.le_refl 0
  microOps := by simp [ready, State.reset]
  lineNames := by simp [ready, State.reset]
  errors := by
    show (0 : BitVec 3).toNat ≤ 6 ∧ (0 : BitVec 3) = if (0 : BitVec 3) = 2 then 1 else 0
    decide
  loaded := fun _ => ⟨h, hw⟩
  constructing := by simp [ready, State.reset, State.busy]
  transient := by simp [ready, State.reset]
  idleLines := by simp [ready]
  lines := by simp [ready, State.reset]

/-- A block that plays its construction sequence, with no line driven yet, meets the invariant in the state due. -/
theorem constructing_inv (cfg : DisplayConfig) (pc : Nat) (st : Lifecycle) (h : cfg.legal = true)
    (hw : windowValid cfg (defaultWindow cfg) = true) (hp : pc < (constructSeq rom cfg).length)
    (hs : st = lifecycleAt (seqBlPulse cfg).length (seqReset cfg).length (constructSeq rom cfg).length pc .uninitialized) :
    (constructing cfg pc st).Inv where
  memory := rfl
  position := Nat.le_of_lt hp
  microOps := fun u hu => (constructSeq_playable rom cfg u hu).1
  lineNames := fun name level hu => (constructSeq_playable rom cfg _ hu).2 name level rfl
  errors := by
    show (0 : BitVec 3).toNat ≤ 6 ∧ (0 : BitVec 3) = if (0 : BitVec 3) = 2 then 1 else 0
    decide
  loaded := fun _ => ⟨h, hw⟩
  constructing := fun _ _ => ⟨rfl, hs⟩
  transient := fun _ => (State.busy_iff _).mpr hp
  idleLines := fun _ hb => by
    have : (constructing cfg pc st).busy = true := (State.busy_iff _).mpr hp
    rw [this] at hb
    cases hb
  lines := by simp [constructing, ready, State.reset]

/-- The construction sequence of a configuration with both lines is longer than its pulses. -/
theorem constructSeq_long : 9 < (constructSeq rom cfg23).length := by
  have h := seqInit_length_pos rom cfg23
  have h1 : (seqBlPulse cfg23).length = 3 := rfl
  have h2 : (seqReset cfg23).length = 6 := rfl
  simp only [constructSeq, List.length_append]
  omega

/-- The construction sequence ends with the settle delay of display on (R119 step 15). -/
theorem constructSeq_last (cfg : DisplayConfig) : ∃ before, constructSeq rom cfg = before ++ [.wait 100] :=
  ⟨seqBlPulse cfg ++ seqReset cfg ++ (((initTriples rom cfg).take 14).flatMap expand ++ [.cmd rom.dispon]), by
    simp [constructSeq, seqInit, initTriples, disponTriple, expand, tDispon]⟩

/-- The last step of a construction reaches `Ready`. -/
theorem constructing_last_step :
    ∃ t, step (constructing cfg23 ((constructSeq rom cfg23).length - 1) .initializing) = .next t ∧ t.state = .ready := by
  obtain ⟨before, h⟩ := constructSeq_last cfg23
  have hl := constructSeq_long
  have hn : (constructSeq rom cfg23).length - 1 = before.length := by simp [h]
  rw [hn]
  have hlen : (constructSeq rom cfg23).length = before.length + 1 := by simp [h]
  have hget : (constructing cfg23 before.length .initializing).seq[before.length]? = some (.wait 100) := by
    simp [constructing, h]
  have hb : (constructing cfg23 before.length .initializing).busy = true :=
    (State.busy_iff _).mpr (by show before.length < (constructSeq rom cfg23).length; omega)
  have hs : step (constructing cfg23 before.length .initializing) =
      exec (.wait 100) (constructing cfg23 before.length .initializing) := by
    have hh : (constructing cfg23 before.length .initializing).hung = false := rfl
    have hp : (constructing cfg23 before.length .initializing).seqPc = before.length := rfl
    simp only [step, fetch, hh, hb, hp, hget, if_true, Bool.false_eq_true, if_false]
  refine ⟨_, hs, ?_⟩
  have hadv := ((State.advance_spec ((constructing cfg23 before.length .initializing).delay 100).2).2.2.2.1
    (by show before.length < (constructSeq rom cfg23).length; omega)).2
  refine hadv.trans ?_
  show lifecycleAt 3 6 (constructSeq rom cfg23).length (before.length + 1) .initializing = .ready
  rw [hlen]
  simp [lifecycleAt]

theorem witness_IdleBlockWithoutRequestWaits :
    State.reset.busy = false ∧ State.reset.hung = false ∧ State.reset.requests = [] := by decide

theorem witness_HungBlockNeverMovesAgain :
    ({ State.reset with hung := true } : State).hung = true ∧ Instr.getWidth.format = .hostop := by decide

theorem witness_StepRunsTheFetchedInstruction :
    (let s := playing [.wait 5]
     s.hung = false ∧ s.seq[s.seqPc]? = some (.wait 5)) ∧
    (let s : State := { State.reset with requests := [0x05, 0x06] }
     s.hung = false ∧ s.busy = false ∧ s.requests ≠ [] ∧ reads rom .hostop s.requests = some (.getWidth, [0x06])) := by decide

theorem witness_OnlySixHostOpsAreRequests :
    (∀ op ∈ [(0x00 : Byte), 0x07, 0xFF],
      let s : State := { State.reset with requests := [op] }
      s.hung = false ∧ s.busy = false ∧ s.requests = op :: [] ∧ (op = 0 ∨ 7 ≤ op.toNat)) ∧
    reads rom .hostop [0x06] = some (.getHeight, []) := by decide

theorem witness_PlacedWordRunsNext :
    decodeTableWord 8 0x05 = some .getWidth ∧ decodeTableWord 8 0x04 = some (.setBacklight false) ∧
    decodeTableWord 24 0x259 = some (.wait 150) ∧ decodeTableWord 8 0x29 = some .dispon := by decide

/-- A ROM without equal command bytes, for the controller commands; a host operation and two micro-ops, for which any ROM
does; and in the machine's own ROM a command that is not of power control. -/
theorem witness_DecodeReadsBackEveryEncoding :
    ((romCommands testRom).Nodup ∧ Instr.pwctrA.format = .dcs ∧ Instr.pwctrA.wellFormed = true) ∧
    (∀ i ∈ [Instr.display 1 1 [1, 2, 3], .wait 1, .dat [0]], i.format ≠ .dcs ∧ i.wellFormed = true) ∧
    (Instr.slpout.wellFormed = true ∧ ¬ (Instr.slpout = .pwctrA ∨ Instr.slpout = .pwctrB ∨ Instr.slpout = .pwctrC)) := by
  decide

/-- An idle and a busy state that meet the invariant, each with a step. -/
theorem witness_EveryStepKeepsBlockInvariant :
    (ready cfg128).Inv ∧ step (ready cfg128) = .next (ready cfg128) ∧ (constructing cfg23 0 .uninitialized).Inv ∧
    ∃ t, step (constructing cfg23 0 .uninitialized) = .next t :=
  ⟨ready_inv cfg128 (by decide) (by decide), rfl,
    constructing_inv cfg23 0 .uninitialized (by decide) (by decide) (by have := constructSeq_long; omega)
      (lifecycleAt_uninitialized_iff.mpr (by decide)).symm,
    _, rfl⟩

/-- One state for each of the three ends: the advance, the error, the hang. -/
theorem witness_SequencerAdvancesByOneMicroOp :
    ∀ a ∈ [BusAnswer.ok, .fail 0, .hang 0],
      let s : State := { playing [.cmd 0x2C, .cmd 0x2C] with busAnswers := [a] }
      s.hung = false ∧ s.seq[s.seqPc]? = some (.cmd 0x2C) ∧ (Instr.cmd 0x2C).isMicroOp = true ∧
      (nextOf (step s)).isSome = true := by decide

theorem witness_LifecycleOnlyMovesForward :
    step State.reset = .next State.reset ∧ step (ready cfg128) = .next (ready cfg128) := ⟨rfl, rfl⟩

/-- The three parts of a construction, at their first and last positions. -/
theorem lifecycle_positions :
    ∀ p ∈ [(0, Lifecycle.uninitialized), (2, .uninitialized), (3, .resetting), (8, .resetting), (9, .initializing)],
      (constructing cfg23 p.1 p.2).Inv ∧ (constructing cfg23 p.1 p.2).busy = true ∧ (constructing cfg23 p.1 p.2).state ≠ .ready := by
  have hl := constructSeq_long
  have h1 : (seqBlPulse cfg23).length = 3 := rfl
  have h2 : (seqReset cfg23).length = 6 := rfl
  have key : ∀ pc st, pc ≤ 9 → st ≠ .ready →
      st = lifecycleAt (seqBlPulse cfg23).length (seqReset cfg23).length (constructSeq rom cfg23).length pc .uninitialized →
      (constructing cfg23 pc st).Inv ∧ (constructing cfg23 pc st).busy = true ∧ (constructing cfg23 pc st).state ≠ .ready :=
    fun pc st hp hn hs =>
      ⟨constructing_inv cfg23 pc st (by decide) (by decide) (by omega) hs,
        (State.busy_iff _).mpr (by show pc < (constructSeq rom cfg23).length; omega), hn⟩
  intro p hp
  simp only [List.mem_cons, List.not_mem_nil, or_false] at hp
  rcases hp with rfl | rfl | rfl | rfl | rfl
  · exact key _ _ (by omega) (by simp) (lifecycleAt_uninitialized_iff.mpr (by omega)).symm
  · exact key _ _ (by omega) (by simp) (lifecycleAt_uninitialized_iff.mpr (by omega)).symm
  · exact key _ _ (by omega) (by simp) (lifecycleAt_resetting_iff.mpr (by omega)).symm
  · exact key _ _ (by omega) (by simp) (lifecycleAt_resetting_iff.mpr (by omega)).symm
  · exact key _ _ (by omega) (by simp) (lifecycleAt_initializing_iff.mpr (by omega)).symm

/-- Each part of a construction, and its last position, whose step reaches `Ready`. -/
theorem witness_LifecycleFollowsSequencePosition :
    (∀ p ∈ [(0, Lifecycle.uninitialized), (2, .uninitialized), (3, .resetting), (8, .resetting), (9, .initializing)],
      (constructing cfg23 p.1 p.2).Inv ∧ (constructing cfg23 p.1 p.2).busy = true ∧
      (constructing cfg23 p.1 p.2).state ≠ .ready) ∧
    (let s := constructing cfg23 ((constructSeq rom cfg23).length - 1) .initializing
     s.Inv ∧ s.busy = true ∧ s.state ≠ .ready ∧ ∃ t, step s = .next t ∧ t.state = .ready) := by
  have hl := constructSeq_long
  have h1 : (seqBlPulse cfg23).length = 3 := rfl
  have h2 : (seqReset cfg23).length = 6 := rfl
  exact ⟨lifecycle_positions,
    constructing_inv cfg23 _ _ (by decide) (by decide) (by omega) (lifecycleAt_initializing_iff.mpr (by omega)).symm,
    (State.busy_iff _).mpr (by show (constructSeq rom cfg23).length - 1 < (constructSeq rom cfg23).length; omega),
    nofun, constructing_last_step⟩

/-- The bytes of P1's CONSTRUCT, presented after reset. -/
def presented : State :=
  { State.reset with
    requests := [0x01, 0x02, 0x00, 0x03, 0x00, 0x02, 0x00, 0x03, 0x00, 0x5A] ++
      [0x00, 0x00, 0x00, 0x00, 0x00, 0x04, 0x48, 0xE8, 0x01, 0x18] }

theorem presented_loads : ∃ t, step presented = .next t ∧ t.cfg ≠ presented.cfg := by
  refine ⟨(({ presented with requests := [], cfg := loadConfig reqP1, win := defaultWindow (loadConfig reqP1) } : State).start
    (constructSeq rom (loadConfig reqP1))), rfl, ?_⟩
  rw [(State.start_frame _ _).2.2.2.2.1]
  decide

theorem witness_ConfigIsWrittenOnceByAValidConstruct :
    (∃ t, step presented = .next t ∧ t.cfg ≠ presented.cfg) ∧
    ((ready cfg128).Inv ∧ (ready cfg128).state ≠ .uninitialized ∧ core.run 3 (ready cfg128) = .next (ready cfg128)) ∧
    ((constructing cfg23 0 .uninitialized).Inv ∧ (constructing cfg23 0 .uninitialized).busy = true ∧
    ∃ t, core.run 1 (constructing cfg23 0 .uninitialized) = .next t) := by
  have h := lifecycle_positions (0, .uninitialized) (by simp)
  exact ⟨presented_loads, ⟨ready_inv cfg128 (by decide) (by decide), by decide, rfl⟩, h.1, h.2.1, _, rfl⟩

theorem witness_LoadedConfigFitsThePanel : ∃ t, step presented = .next t ∧ t.cfg ≠ presented.cfg := presented_loads

/-- A step that fails in another sequence than a DISPLAY's, and one of a DISPLAY that goes on. -/
theorem witness_TraceGrowsAndPanelHearsIt :
    (let s : State := { playing [.cmd 0x2C] with busAnswers := [.fail 0] }
     (nextOf (step s)).isSome = true ∧ s.playsDisplay = false) ∧
    (let s := playing (seqWindow rom cfg128 (defaultWindow cfg128) ++ [.dat [0x08, 0x21]])
     s.playsDisplay = true ∧ after (.cmd 0x2A) s (fun t => t.seq.isEmpty) = some false) := by decide


theorem witness_BlockNeverReadsThePanel :
    (nextOf (exec .getWidth (ready cfg128))).isSome = true ∧
    exec (.display 128 128 []) (ready cfg128) = .fault .imageAccess ∧
    exec (.construct reqP1) (ready cfg128) = .refused .alreadyConstructed ∧
    (nextOf (step (ready cfg128))).isSome = true ∧
    step { ready cfg128 with requests := [0x00] } = .refused .illegalOp :=
  ⟨by decide, rfl, rfl, by decide, rfl⟩

/-- In a window four columns wide and one row high, with one byte of a pixel waiting, three bytes complete the pixels of the
columns 0 and 1; the next pixel's address, that of column 2, is not among those written. -/
theorem witness_DataBytesWriteOnlyAddressedPixels :
    let p : Panel := { State.reset.panel with xe := 3, phase := .pixels, buf := [0x12] }
    (p.xs.toNat + 4 = p.xe.toNat + 1 ∧ p.ys.toNat + 1 = p.ye.toNat + 1 ∧ 0 < 4 ∧ 0 < 1) ∧
    ∀ k, k < (p.buf.length + [(0x34 : Byte), 0x56, 0x78].length) / 2 →
      pixelAddr 2 0 ≠ pixelAddr (p.column (p.index + k)) (p.row (p.index + k)) ∧
      pixelAddr 2 0 ≠ pixelAddr (p.column (p.index + k)) (p.row (p.index + k)) + 1 := by
  decide

theorem witness_WaitAddsItsDelayOrHangs :
    (ready cfg128).delayReturns = true :: List.replicate 11 true ∧
    ({ ready cfg128 with delayReturns := [false] } : State).delayReturns = false :: [] := by decide
theorem witness_CmdSendsOneCommandByte : (ready cfg128).busAnswers = .ok :: List.replicate 11 .ok := by decide
theorem witness_DatSendsItsBytesAsData :
    (ready cfg128).busAnswers = .ok :: List.replicate 11 .ok ∧ (ready cfg128).panel.isOpen = false := by decide

/-- What each kind of sender asks for: a CMD, a DAT, a controller command's second write, a triple's first, a data format. -/
theorem asksWrites_examples (s : State) :
    AsksWrites s (.cmd 0x11) ([] ++ (false, [0x11]) :: []) ∧ AsksWrites s (.dat [1, 2]) ([] ++ (true, [1, 2]) :: []) ∧
    AsksWrites s .colmod ([(false, [0x3A])] ++ (true, [0x05]) :: []) ∧
    AsksWrites s (.triple ⟨0x11, [1, 2], 0⟩) ([] ++ (false, [0x11]) :: [(true, [1, 2])]) ∧
    AsksWrites s (.pixbytes 1 2) ([] ++ (true, [1, 2]) :: []) :=
  ⟨.inl ⟨0x11, rfl, rfl⟩, .inr (.inl ⟨[1, 2], rfl, rfl⟩),
    .inr (.inr (.inl ⟨⟨0x3A, [0x05], 0⟩, .inl (by simp [commandTable]), rfl⟩)),
    .inr (.inr (.inl ⟨⟨0x11, [1, 2], 0⟩, .inr rfl, rfl⟩)),
    .inr (.inr (.inr ⟨[1, 2], .inr (.inr (.inl ⟨1, 2, rfl, rfl⟩)), rfl⟩))⟩

/-- A failing CMD in each of the three states; a COLMOD whose parameter write fails; a position of a DISPLAY; an idle block. -/
theorem witness_FailedBusWriteEndsTheOperation :
    (∀ st ∈ [Lifecycle.resetting, .initializing, .ready],
      let s : State := { playing [.cmd 0x11] with busAnswers := [.fail 0], state := st }
      AsksWrites s (.cmd 0x11) ([] ++ (false, [0x11]) :: []) ∧
      s.busAnswers = List.replicate ([] : List (Level × List Byte)).length .ok ++ .fail 0 :: [] ∧
      (s.state = .resetting ∨ s.state = .initializing ∨ s.state = .ready)) ∧
    (let s : State := { playing [.colmod] with busAnswers := [.ok, .fail 1] }
     AsksWrites s .colmod ([(false, [0x3A])] ++ (true, [0x05]) :: []) ∧
     s.busAnswers = List.replicate [(false, [(0x3A : Byte)])].length .ok ++ .fail 1 :: [] ∧ s.state = .ready ∧
     s.playsDisplay = false) ∧
    5 < 6 ∧ (ready cfg128).busy = false :=
  ⟨fun st h => ⟨(asksWrites_examples _).1, rfl, by revert h st; decide⟩, ⟨(asksWrites_examples _).2.2.1, rfl, rfl, by decide⟩,
    by decide, by decide⟩

/-- A CMD never answered, a COLMOD whose parameter write is never answered, and a SLPOUT whose settle delay never returns. -/
theorem witness_UnansweredBusWriteHangs :
    (let s : State := { playing [.cmd 0x11] with busAnswers := [.hang 1] }
     AsksWrites s (.cmd 0x11) ([] ++ (false, [0x11]) :: []) ∧
     s.busAnswers = List.replicate ([] : List (Level × List Byte)).length .ok ++ .hang 1 :: []) ∧
    (let s : State := { playing [.colmod] with busAnswers := [.ok, .hang 0] }
     AsksWrites s .colmod ([(false, [0x3A])] ++ (true, [0x05]) :: []) ∧
     s.busAnswers = List.replicate [(false, [(0x3A : Byte)])].length .ok ++ .hang 0 :: []) ∧
    (let s : State := { playing [.slpout] with busAnswers := [.ok], delayReturns := [false] }
     PlaysTriple s .slpout ⟨0x11, [], 500⟩ ∧ (500 : Word16) ≠ 0 ∧
     s.busAnswers = List.replicate (tripleWrites ⟨0x11, [], 500⟩).length .ok ++ [] ∧ s.delayReturns = false :: []) :=
  ⟨⟨(asksWrites_examples _).1, rfl⟩, ⟨(asksWrites_examples _).2.2.1, rfl⟩, .inl (by simp [commandTable]), by decide, rfl, rfl⟩

/-- The transport and the delay answer, and every command stands in the table. -/
theorem witness_ControllerCommandsSendTheirEntries :
    (ready cfg128).busAnswers = .ok :: .ok :: List.replicate 10 .ok ∧
    (ready cfg128).delayReturns = true :: List.replicate 11 true ∧
    (commandTable cfg128 (defaultWindow cfg128)).map Prod.fst =
      [.swreset, .slpout, .frmctr, .pwctrA, .pwctrB, .pwctrC, .invoff, .invon, .madctl, .colmod, .caset, .raset, .ramwr, .gmctrp,
        .gmctrn, .noron, .dispon] := ⟨by decide, by decide, rfl⟩

theorem witness_ControllerReactsToItsCommands :
    (ready cfg128).busAnswers = .ok :: .ok :: List.replicate 10 .ok ∧
    (ready cfg128).delayReturns = true :: List.replicate 11 true := by decide

theorem witness_TripleIsPlayedAsItsExpansion :
    (ready cfg23).busAnswers = .ok :: .ok :: List.replicate 10 .ok ∧
    (ready cfg23).delayReturns = true :: List.replicate 11 true := by decide

theorem witness_DataFormatsSendTheirBytes :
    (ready cfg128).busAnswers = .ok :: List.replicate 11 .ok ∧
    (∃ r g b : Byte, Instr.rgb888 1 2 3 = .rgb888 r g b) ∧
    (∃ (r : BitVec 5) (g : BitVec 6) (b : BitVec 5), Instr.pix565 1 2 3 = .pix565 r g b) ∧
    (∃ x y : Byte, Instr.pixbytes 1 2 = .pixbytes x y) ∧ (∃ b e : Word16, Instr.addr4 1 2 = .addr4 b e) :=
  ⟨by decide, ⟨1, 2, 3, rfl⟩, ⟨1, 2, 3, rfl⟩, ⟨1, 2, rfl⟩, ⟨1, 2, rfl⟩⟩

theorem witness_BusyBlockRefusesRequests :
    (playing [.wait 5]).busy = true ∧ (Instr.setBacklight true).format = .hostop := by decide

/-- V-H9: both offsets given, each as large as it may be; and P1, with none given. -/
theorem witness_ValidConstructLoadsAndStarts :
    (let s := State.reset
     s.busy = false ∧ s.hung = false ∧ s.state = .uninitialized) ∧
    (let q := req128 120 150 270 (some 8) (some 10)
     q.rotationDeg.toNat = 90 * (3 : BitVec 2).toNat ∧
     (1 ≤ q.panelW.toNat ∧ 1 ≤ q.panelH.toNat ∧ 1 ≤ q.width.toNat ∧ 1 ≤ q.height.toNat) ∧
     (q.width.toNat ≤ q.panelW.toNat ∧ q.height.toNat ≤ q.panelH.toNat) ∧
     q.offLeft = some 8 ∧ (8 : Word16).toNat + q.width.toNat ≤ q.panelW.toNat ∧
     q.offTop = some 10 ∧ (10 : Word16).toNat + q.height.toNat ≤ q.panelH.toNat) ∧
    (let q := reqP1
     q.rotationDeg.toNat = 90 * (1 : BitVec 2).toNat ∧
     (1 ≤ q.panelW.toNat ∧ 1 ≤ q.panelH.toNat ∧ 1 ≤ q.width.toNat ∧ 1 ≤ q.height.toNat) ∧
     (q.width.toNat ≤ q.panelW.toNat ∧ q.height.toNat ≤ q.panelH.toNat) ∧ q.offLeft = none ∧ q.offTop = none) := by decide

/-- One request for each line of the validation, one past the bound where there is one: V-H2, V-H8, V-H7, V-H10. -/
theorem witness_InvalidConstructRaisesInvalidConfig :
    (let s := State.reset
     s.busy = false ∧ s.hung = false ∧ s.state = .uninitialized) ∧
    (req128 128 160 45 none none).rotationDeg.toNat ∉ [0, 90, 180, 270] ∧
    (req128 0 160 0 none none).width = 0 ∧
    (req128 129 160 0 none none).panelW.toNat < (req128 129 160 0 none none).width.toNat ∧
    (128 : Word16).toNat < (9 : Word16).toNat + (req128 120 150 0 (some 9) none).width.toNat ∧
    (160 : Word16).toNat < (11 : Word16).toNat + (req128 120 150 0 none (some 11)).height.toNat := by decide

theorem witness_SecondConstructIsRefused :
    ∀ st ∈ [Lifecycle.ready, .failed],
      let s : State := { ready cfg128 with state := st }
      s.busy = false ∧ s.hung = false ∧ s.state ≠ .uninitialized := by decide

theorem witness_OperationsOutsideReadyRaiseNotReady :
    (∀ i ∈ [Instr.setWindow ⟨none, none, none, none⟩, .display 1 1 [1, 2, 3], .setBacklight true, .getWidth, .getHeight],
      i.format = .hostop) ∧ (∀ q, Instr.getWidth ≠ .construct q) ∧
    ∀ st ∈ [Lifecycle.uninitialized, .failed],
      let s : State := { ready cfg128 with state := st }
      s.busy = false ∧ s.hung = false ∧ s.state ≠ .ready := ⟨by decide, nofun, by decide⟩

/-- V-H16: the last row that still lies in the panel; and V-H17, one pixel. -/
theorem witness_SetWindowStartsWindowSequence :
    (let s := ready cfg128
     s.busy = false ∧ s.hung = false ∧ s.state = .ready) ∧
    (∀ w ∈ [(⟨0, 0, 127, 143⟩ : Window), ⟨7, 7, 7, 7⟩],
      w.x0.toNat ≤ w.x1.toNat ∧ w.y0.toNat ≤ w.y1.toNat ∧
      w.x1.toNat + cfg128.offsetLeft.toNat < cfg128.panelW.toNat ∧ w.y1.toNat + cfg128.offsetTop.toNat < cfg128.panelH.toNat) ∧
    (⟨0, 0, 127, 143⟩ : Window) =
      (let q : WindowReq := ⟨none, none, none, some 143⟩
       ⟨q.x0.getD 0, q.y0.getD 0, q.x1.getD (cfg128.width - 1), q.y1.getD (cfg128.height - 1)⟩) := by decide

/-- V-H15, its row form, V-H14 and V-H16: each way a window can be bad, by one. -/
theorem witness_BadWindowRaisesInvalidWindow :
    (let s := ready cfg128
     s.busy = false ∧ s.hung = false ∧ s.state = .ready) ∧
    (4 : Word16).toNat < (5 : Word16).toNat ∧
    cfg128.panelW.toNat ≤ (128 : Word16).toNat + cfg128.offsetLeft.toNat ∧
    cfg128.panelH.toNat ≤ (144 : Word16).toNat + cfg128.offsetTop.toNat ∧
    (128 : Word16) = (⟨none, none, some 128, none⟩ : WindowReq).x1.getD (cfg128.width - 1) := by decide

theorem witness_DisplayStartsWindowAndFrame :
    let s := ready cfg23
    s.busy = false ∧ s.hung = false ∧ s.state = .ready ∧ (3 : Word16) = effW s.cfg.width s.cfg.height s.cfg.rot ∧
    (2 : Word16) = effH s.cfg.width s.cfg.height s.cfg.rot ∧ img6.length = (3 : Word16).toNat * (2 : Word16).toNat * 3 := by
  decide

/-- V-H19, and its column form. -/
theorem witness_WrongImageSizeRaisesDimensionMismatch :
    let s := ready cfg128
    s.busy = false ∧ s.hung = false ∧ s.state = .ready ∧ (127 : Word16) ≠ effH s.cfg.width s.cfg.height s.cfg.rot ∧
    (129 : Word16) ≠ effW s.cfg.width s.cfg.height s.cfg.rot := by decide

theorem witness_DisplayOfWrongBufferFaults :
    (let s := ready cfg23
     s.busy = false ∧ s.hung = false ∧ s.state = .ready ∧ (3 : Word16) = effW s.cfg.width s.cfg.height s.cfg.rot ∧
     (2 : Word16) = effH s.cfg.width s.cfg.height s.cfg.rot ∧
     (0 :: img6).length ≠ (3 : Word16).toNat * (2 : Word16).toNat * 3) ∧
    reads rom .hostop ([0x03, 0x03, 0x00, 0x02, 0x00] ++ img6) = some (.display 3 2 img6, []) := by decide

theorem witness_SetBacklightDrivesConfiguredLine :
    ∀ cfg ∈ [cfg128, cfg23], (ready cfg).busy = false ∧ (ready cfg).hung = false ∧ (ready cfg).state = .ready := by decide

theorem witness_AccessorsReportEffectiveSize :
    (let s := ready cfg23
     s.busy = false ∧ s.hung = false ∧ s.state = .ready) ∧
    (let s := State.reset
     s.busy = false ∧ s.hung = false ∧ s.state ≠ .ready) := by decide

theorem witness_PulsesAreEmptyWithoutTheirLine :
    cfg23.hasBl = true ∧ cfg128.hasBl = false ∧ cfg23.hasRst = true ∧ cfg128.hasRst = false := by decide

theorem witness_InitSequenceIsTheFifteenTriples :
    testRom.frmctrData ≠ [] ∧ testRom.pwctrAData ≠ [] ∧ testRom.pwctrBData ≠ [] ∧ testRom.pwctrCData ≠ [] := by decide

theorem witness_ValidWindowTranslatesInsidePanel :
    windowValid cfg128 ⟨0, 0, 127, 143⟩ = true ∧ cfg128.offsetLeft = 0 ∧ cfg128.offsetTop = 16 := by decide

theorem witness_FrameBurstFillsTheRectangle : cfg128.legal = true ∧ cfg23.legal = true := by decide

theorem witness_OmittedOffsetsCentreTheWindow :
    ((req128 128 160 270 none none).rotationDeg.toNat = 90 * (3 : BitVec 2).toNat) ∧
    (let q := req128 128 160 0 none none; q.width.toNat ≤ q.panelW.toNat ∧ q.height.toNat ≤ q.panelH.toNat) ∧
    (req128 120 150 0 (some 8) (some 10)).offLeft = some 8 ∧ (req128 120 150 0 (some 8) (some 10)).offTop = some 10 ∧
    (∀ q ∈ [req128 128 160 0 none none, req128 128 128 0 none none, req128 125 155 0 none none,
        { req128 128 160 0 none none with panelW := 132, panelH := 162 }], q.offLeft = none ∧ q.offTop = none) ∧
    (let q := { req128 128 160 0 none none with panelW := 132, panelH := 162 }
     q.panelW = 132 ∧ q.panelH = 162 ∧ q.width = 128 ∧ q.height = 160) := by decide

theorem witness_PackAfterUnpackIsIdentity :
    (0xFF : Byte) &&& 0xF8 = 0xF8 &&& 0xF8 ∧ (0x83 : Byte) &&& 0xFC = 0x80 &&& 0xFC ∧ (0x07 : Byte) &&& 0xF8 = 0x00 &&& 0xF8 := by
  decide

theorem witness_RotationPermutesPixels :
    (2 < rotRows 1 3 2 ∧ 1 < rotCols 1 3 2 ∧ 0 < rotRows 1 3 2 ∧ 0 < rotCols 1 3 2) ∧ (1 < 2 ∧ 2 < 3) ∧
    rotSource .ccw 1 3 2 2 1 = rotSource .ccw 1 3 2 2 1 := by decide

theorem witness_EncodedFrameIsRowMajorBigEndian : 2 < rotRows 1 3 2 ∧ 1 < rotCols 1 3 2 := by decide

theorem witness_CodecAloneChecksDegrees :
    45 ∉ [0, 90, 180, 270] ∧ 360 ∉ [0, 90, 180, 270] ∧ 270 = 90 * (3 : BitVec 2).toNat := by decide

theorem witness_SequenceIsPlayedInOrder :
    let s := playing [.cmd 0x2C, .wait 5]
    s.hung = false ∧ s.state = .ready ∧ s.seqPc + 2 = s.seq.length ∧ 0 < 2 ∧ (∀ u ∈ s.seq, u.isMicroOp = true) ∧
    (2 ≤ s.busAnswers.length ∧ ∀ a ∈ s.busAnswers, a = .ok) ∧ (2 ≤ s.delayReturns.length ∧ ∀ d ∈ s.delayReturns, d = true) := by
  decide

theorem witness_ConstructRunReachesReady :
    let s : State :=
      { State.reset with
        requests := encode rom (.construct reqP1) ++ [0x05]
        busAnswers := List.replicate 60 .ok
        delayReturns := List.replicate 60 true }
    s.busy = false ∧ s.hung = false ∧ s.state = .uninitialized ∧ s.requests = encode rom (.construct reqP1) ++ [0x05] ∧
    constructValid reqP1 = true ∧ (60 ≤ s.busAnswers.length ∧ ∀ a ∈ s.busAnswers, a = .ok) ∧
    (60 ≤ s.delayReturns.length ∧ ∀ d ∈ s.delayReturns, d = true) := by decide

/-- P2 after P1, at the host's port of a block in `Ready`. -/
theorem witness_DisplayRunSendsWindowThenFrame :
    let s : State := { ready cfg23 with requests := encode rom (.display 3 2 img6) ++ [0x05] }
    s.busy = false ∧ s.hung = false ∧ s.state = .ready ∧ (3 : Word16) = effW s.cfg.width s.cfg.height s.cfg.rot ∧
    (2 : Word16) = effH s.cfg.width s.cfg.height s.cfg.rot ∧ img6.length = (3 : Word16).toNat * (2 : Word16).toNat * 3 ∧
    s.requests = encode rom (.display 3 2 img6) ++ [0x05] ∧
    s.busAnswers = List.replicate 6 .ok ++ List.replicate 6 .ok := by decide

theorem witness_DisplayRunFillsThePanel :
    let s : State := { ready cfg23 with requests := encode rom (.display 3 2 img6) ++ [] }
    s.busy = false ∧ s.hung = false ∧ s.state = .ready ∧ s.cfg.legal = true ∧
    (3 : Word16) = effW s.cfg.width s.cfg.height s.cfg.rot ∧ (2 : Word16) = effH s.cfg.width s.cfg.height s.cfg.rot ∧
    img6.length = (3 : Word16).toNat * (2 : Word16).toNat * 3 ∧ s.requests = encode rom (.display 3 2 img6) ++ [] ∧
    s.busAnswers = List.replicate 6 .ok ++ List.replicate 6 .ok := by decide

/-- Blocks a block reset gets out of `Ready`, `Failed` and a hang, each with a canonical controller memory, and P1's CONSTRUCT. -/
theorem witness_BlockResetIsTheWayOutOfReadyAndFailed :
    (∀ s ∈ [ready cfg128, { ready cfg23 with state := .failed, err := 2, errCause := 1 }, { playing [.wait 5] with hung := true }],
      Memory.wf s.panel.mem = true) ∧ constructValid reqP1 = true := by decide

end Sys2Proof.Tests
end

section
/-! SUPPORT. The control registers along steps and runs (R14 to R16): what a step does to them, and the window of time in which a
CONSTRUCT can be accepted. -/

namespace Sys2Proof.Machine

/-! ### What an instruction does to the control registers -/

@[simp] theorem State.settle_cfg (r : Progress × State) : (State.settle r).cfg = r.2.cfg := by
  rcases State.settle_cases r with h | h | h <;> rw [h]
  · obtain ⟨_, _, hcfg, _⟩ := State.advance_frame r.2
    exact hcfg
  · exact State.failUop_cfg r.2

@[simp] theorem State.start_cfg (s : State) (seq : List Instr) : (s.start seq).cfg = s.cfg := by
  obtain ⟨_, _, _, _, hcfg, _⟩ := State.start_frame s seq
  exact hcfg

@[simp] theorem State.start_state (s : State) (seq : List Instr) :
    (s.start seq).state = lifecycleAt (seqBlPulse s.cfg).length (seqReset s.cfg).length seq.length 0 s.state := by
  obtain ⟨_, _, _, _, _, _, _, _, _, _, _, _, _, _, _, due⟩ := State.start_frame s seq
  exact due

/-- Of all instructions only a valid CONSTRUCT, accepted by an idle block in `Uninitialized`, writes the control registers. -/
theorem exec_cfg {i : Instr} {s t : State} (h : exec i s = .next t) :
    t.cfg = s.cfg ∨
    (s.state = .uninitialized ∧ s.busy = false ∧
      ∃ q, i = .construct q ∧ constructValid q = true ∧ t.cfg = loadConfig q) := by
  cases exec_shape h with
  | acted r _ action eq => exact .inl (by rw [eq, State.settle_cfg, action.cfg])
  | raised e _ _ _ eq => exact .inl (by rw [eq, State.raise_cfg])
  | constructed q op idle _ fresh valid eq => exact .inr ⟨fresh, idle, q, op, valid, by rw [eq, State.start_cfg]⟩
  | started w seq _ _ _ _ _ eq => exact .inl (by rw [eq, State.start_cfg])
  | answered v _ _ _ eq => exact .inl (by rw [eq, State.complete_cfg])

/-- R15 for one step: the control registers stay, or the step accepts a valid CONSTRUCT from the host and loads it. -/
theorem step_cfg {s t : State} (h : step s = .next t) :
    t.cfg = s.cfg ∨
    (s.state = .uninitialized ∧ s.busy = false ∧
      ∃ (q : ConstructReq) (rest : List Byte), decode rom .hostop s.requests = .ok (.construct q, rest) ∧
        constructValid q = true ∧ t.cfg = loadConfig q) := by
  rcases step_next h with rfl | ⟨u, _, busy, _, hu⟩ | ⟨i, rest, _, _, hd, hi⟩
  · exact .inl rfl
  · rcases exec_cfg hu with same | ⟨_, idle, _⟩
    · exact .inl same
    · simp [busy] at idle
  · rcases exec_cfg hi with same | ⟨fresh, idle, q, rfl, valid, loads⟩
    · exact .inl same
    · exact .inr ⟨fresh, idle, q, rest, hd, valid, loads⟩

/-- A legal configuration fits the panel with its offsets (R16). -/
theorem DisplayConfig.legal_fits {cfg : DisplayConfig} (h : cfg.legal = true) :
    cfg.width.toNat ≤ cfg.panelW.toNat ∧ cfg.height.toNat ≤ cfg.panelH.toNat ∧
    cfg.offsetLeft.toNat + cfg.width.toNat ≤ cfg.panelW.toNat ∧
    cfg.offsetTop.toNat + cfg.height.toNat ≤ cfg.panelH.toNat := by
  simp only [DisplayConfig.legal, Bool.and_eq_true, decide_eq_true_eq] at h
  omega

/-! ### `Uninitialized` is never entered again -/

/-- At every position, `Uninitialized` is kept only from itself and only inside the backlight pulse (R144). -/
theorem lifecycleAt_eq_uninitialized_iff {n1 n2 len pc : Nat} {st : Lifecycle} :
    lifecycleAt n1 n2 len pc st = .uninitialized ↔ st = .uninitialized ∧ pc < n1 := by
  cases st with
  | uninitialized => simp [lifecycleAt_uninitialized_iff]
  | resetting => by_cases b : n1 + n2 ≤ pc <;> by_cases e : len ≤ pc <;> simp [lifecycleAt, b, e]
  | initializing => by_cases e : len ≤ pc <;> simp [lifecycleAt, e]
  | ready => simp [lifecycleAt]
  | failed => simp [lifecycleAt]

theorem ErrorKind.stateAfter_ne_uninitialized (e : ErrorKind) {st : Lifecycle} (h : st ≠ .uninitialized) :
    e.stateAfter st ≠ .uninitialized := by
  cases e with
  | initError => exact nofun
  | _ => exact h

theorem State.advance_state_ne_uninitialized {s : State} (h : s.state ≠ .uninitialized) :
    s.advance.state ≠ .uninitialized := by
  obtain ⟨_, _, atRest, inFlight, _⟩ := State.advance_spec s
  by_cases busy : s.busy = true
  · rw [(inFlight ((State.busy_iff s).mp busy)).2]
    exact fun k => h (lifecycleAt_eq_uninitialized_iff.mp k).1
  · obtain ⟨_, _, _, same⟩ := atRest (by simpa using busy)
    rwa [same]

theorem State.settle_state_ne_uninitialized {r : Progress × State} (h : r.2.state ≠ .uninitialized) :
    (State.settle r).state ≠ .uninitialized := by
  rcases State.settle_cases r with k | k | k <;> rw [k]
  · exact State.advance_state_ne_uninitialized h
  · exact ErrorKind.stateAfter_ne_uninitialized _ h
  · exact h

/-- No instruction leads back into `Uninitialized` (R20). -/
theorem exec_state_ne_uninitialized {i : Instr} {s t : State} (h : exec i s = .next t) (hs : s.state ≠ .uninitialized) :
    t.state ≠ .uninitialized := by
  cases exec_shape h with
  | acted r _ action eq =>
    rw [eq]
    exact State.settle_state_ne_uninitialized (by rwa [action.state])
  | raised e _ _ _ eq =>
    rw [eq]
    exact ErrorKind.stateAfter_ne_uninitialized e hs
  | constructed _ _ _ _ fresh => exact absurd fresh hs
  | started w seq _ _ _ _ _ eq =>
    rw [eq, State.start_state]
    exact fun k => hs (lifecycleAt_eq_uninitialized_iff.mp k).1
  | answered v _ _ _ eq => rwa [eq]

/-! ### A block that has accepted its CONSTRUCT -/

/-- CONSTRUCT has been accepted: STATE has left `Uninitialized`, or the backlight pulse that opens the construction sequence is
being played. -/
def State.Constructed (s : State) : Prop :=
  s.state ≠ .uninitialized ∨ (s.seq = constructSeq rom s.cfg ∧ s.seqPc < (seqBlPulse s.cfg).length)

/-- The backlight pulse ends before the construction sequence does. -/
theorem seqBlPulse_length_le (table : Rom) (cfg : DisplayConfig) :
    (seqBlPulse cfg).length ≤ (constructSeq table cfg).length := by
  simp [constructSeq]

/-- Such a block is never idle in `Uninitialized`, where alone a CONSTRUCT is accepted. -/
theorem State.Constructed.not_fresh {s : State} (h : s.Constructed) : s.state ≠ .uninitialized ∨ s.busy = true := by
  rcases h with left | ⟨hseq, hpc⟩
  · exact .inl left
  · refine .inr ((State.busy_iff s).mpr ?_)
    rw [hseq]
    exact Nat.lt_of_lt_of_le hpc (seqBlPulse_length_le rom s.cfg)

/-- Under the block's invariant the converse holds too. -/
theorem State.Inv.constructed {s : State} (inv : s.Inv) (h : s.state ≠ .uninitialized ∨ s.busy = true) : s.Constructed := by
  by_cases fresh : s.state = .uninitialized
  · obtain ⟨hseq, due⟩ := inv.constructing (h.resolve_left (not_not.mpr fresh)) (by simp [fresh])
    exact .inr ⟨hseq, lifecycleAt_uninitialized_iff.mp (due.symm.trans fresh)⟩
  · exact .inl fresh

/-- A micro-op that writes nothing to the bus cannot fail: it is done, or it hangs (R101, R102, D17). -/
theorem exec_microOp_without_write {u : Instr} {s t : State} (h : exec u s = .next t) (micro : u.isMicroOp = true)
    (noCmd : ∀ c, u ≠ .cmd c) (noDat : ∀ bytes, u ≠ .dat bytes) :
    ∃ s1, Acted s s1 ∧ (t = s1.advance ∨ t = { s1 with hung := true }) := by
  cases u with
  | line name level => cases h; exact ⟨_, Acted.setLine s name level, .inl rfl⟩
  | wait ms =>
    cases h
    refine ⟨_, Acted.delay s ms, ?_⟩
    unfold State.delay
    cases s.delayAnswer
    · exact .inr rfl
    · exact .inl rfl
  | cmd c => exact absurd rfl (noCmd c)
  | dat bytes => exact absurd rfl (noDat bytes)
  | _ => cases micro

/-- The advance inside the backlight pulse, or past its end. -/
theorem State.advance_constructed {s : State} (hseq : s.seq = constructSeq rom s.cfg)
    (hpc : s.seqPc < (seqBlPulse s.cfg).length) : s.advance.Constructed := by
  obtain ⟨seqSame, _, _, inFlight, _⟩ := State.advance_spec s
  obtain ⟨_, _, cfgSame, _⟩ := State.advance_frame s
  have busy : s.seqPc < s.seq.length := hseq ▸ Nat.lt_of_lt_of_le hpc (seqBlPulse_length_le rom s.cfg)
  obtain ⟨pcNext, due⟩ := inFlight busy
  by_cases inside : s.seqPc + 1 < (seqBlPulse s.cfg).length
  · exact .inr ⟨by rw [seqSame, cfgSame, hseq], by rwa [pcNext, cfgSame]⟩
  · refine .inl ?_
    rw [due]
    exact fun k => inside (lifecycleAt_eq_uninitialized_iff.mp k).2

/-- The pulse sends no byte, so that a micro-op of it cannot fail and give the block back idle in `Uninitialized`. -/
theorem exec_pulse_constructed {u : Instr} {s t : State} (h : exec u s = .next t) (hu : s.seq[s.seqPc]? = some u)
    (hseq : s.seq = constructSeq rom s.cfg) (hpc : s.seqPc < (seqBlPulse s.cfg).length) : t.Constructed := by
  rw [hseq] at hu
  obtain ⟨noCmd, noDat⟩ := constructSeq_early hu hpc
  have micro : u.isMicroOp = true := (constructSeq_playable rom s.cfg u (List.mem_of_getElem? hu)).1.1
  obtain ⟨s1, acted, rfl | rfl⟩ := exec_microOp_without_write h micro noCmd noDat
  · exact State.advance_constructed (by rw [acted.seq, acted.cfg, hseq]) (by rwa [acted.seqPc, acted.cfg])
  · exact .inr ⟨by rw [acted.seq, acted.cfg, hseq], by rwa [acted.seqPc, acted.cfg]⟩

/-- No step leads out of the accepted CONSTRUCT. -/
theorem step_constructed {s t : State} (hs : s.Constructed) (h : step s = .next t) : t.Constructed := by
  rcases step_next h with rfl | ⟨u, _, _, hu, he⟩ | ⟨i, rest, _, idle, _, he⟩
  · exact hs
  · rcases hs with left | ⟨hseq, hpc⟩
    · exact .inl (exec_state_ne_uninitialized he left)
    · exact exec_pulse_constructed he hu hseq hpc
  · have left : s.state ≠ .uninitialized := hs.not_fresh.resolve_right (by simp [idle])
    exact .inl (exec_state_ne_uninitialized he left)

/-- A step of a block that has accepted its CONSTRUCT writes no control register. -/
theorem step_cfg_of_constructed {s t : State} (hs : s.Constructed) (h : step s = .next t) : t.cfg = s.cfg := by
  rcases step_cfg h with same | ⟨fresh, idle, _⟩
  · exact same
  · exact absurd hs.not_fresh (by simp [fresh, idle])

/-! ### Runs -/

/-- What every step keeps, every run keeps. -/
theorem run_keeps {P : State → Prop} (keeps : ∀ s t, P s → step s = .next t → P t) {n : Nat} {s t : State} (hs : P s)
    (h : core.run n s = .next t) : P t := by
  induction n generalizing s with
  | zero => cases h; exact hs
  | succ n ih =>
    simp only [Host.Core.run] at h
    cases hstep : core.step s with
    | next u => rw [hstep] at h; exact ih (keeps s u hs hstep) h
    | fault f => rw [hstep] at h; cases h
    | refused r => rw [hstep] at h; cases h

theorem run_constructed {n : Nat} {s t : State} (hs : s.Constructed) (h : core.run n s = .next t) :
    t.cfg = s.cfg ∧ t.Constructed :=
  run_keeps (P := fun u => u.cfg = s.cfg ∧ u.Constructed)
    (fun _ _ ⟨same, hu⟩ hstep => ⟨(step_cfg_of_constructed hu hstep).trans same, step_constructed hu hstep⟩) ⟨rfl, hs⟩ h

/-! ### The statements -/

/-- Settles O14: a step writes the control registers only where it accepts a CONSTRUCT, and an accepted CONSTRUCT is kept by
every step, because the part of its sequence played in `Uninitialized` cannot fail. -/
theorem configIsWrittenOnceByAValidConstruct : Obligations.ConfigIsWrittenOnceByAValidConstruct := by
  refine ⟨fun s t h changed => (step_cfg h).resolve_left changed, fun s t n inv accepted h => ?_⟩
  obtain ⟨same, ht⟩ := run_constructed (inv.constructed accepted) h
  exact ⟨same, ht.not_fresh⟩

/-- Settles O15: what a step loads is the configuration of a valid CONSTRUCT, which is legal. -/
theorem loadedConfigFitsThePanel : Obligations.LoadedConfigFitsThePanel := by
  intro s t h changed
  obtain ⟨_, _, q, _, _, valid, loads⟩ := (step_cfg h).resolve_left changed
  rw [loads]
  exact DisplayConfig.legal_fits (loadConfig_legal q valid)

end Sys2Proof.Machine
end

section
/-! SUPPORT. Two of the codec's functions in closed form: the effective size (R87) and the packed pixel (R83). -/

namespace Sys2Proof.Machine

/-! ### The effective size -/

theorem isOddTurn_iff (k : BitVec 2) : isOddTurn k = true ↔ k = 1 ∨ k = 3 := by
  simp [isOddTurn]

theorem effW_eq_ite (w h : Word16) (k : BitVec 2) : effW w h k = if k = 1 ∨ k = 3 then h else w := by
  simp only [effW, isOddTurn_iff]

theorem effH_eq_ite (w h : Word16) (k : BitVec 2) : effH w h k = if k = 1 ∨ k = 3 then w else h := by
  simp only [effH, isOddTurn_iff]

theorem effSize_swapped_iff (w h : Word16) (k : BitVec 2) :
    effW w h k = h ∧ effH w h k = w ↔ k = 1 ∨ k = 3 ∨ w = h := by
  rw [effW_eq_ite, effH_eq_ite, ← or_assoc]
  split
  case isTrue odd => exact iff_of_true ⟨rfl, rfl⟩ (.inl odd)
  case isFalse even =>
    rw [or_iff_right even]
    exact and_iff_left_of_imp Eq.symm

/-- Settles O50: an odd turn is a turn by one or by three quarters, and on a square the swap is not seen. -/
theorem effectiveSizeSwapsAtOddTurns : Obligations.EffectiveSizeSwapsAtOddTurns :=
  ⟨fun w h k => ⟨effW_eq_ite w h k, effH_eq_ite w h k, effSize_swapped_iff w h k⟩, by decide, by decide⟩

/-! ### The packed pixel -/

/-- The three fields of a 16-bit pixel, bit by bit from the bottom (R65). -/
theorem getLsbD_pixelFields (r : BitVec 5) (g : BitVec 6) (b : BitVec 5) (i : Nat) :
    (r ++ g ++ b).getLsbD i =
      if i < 5 then b.getLsbD i else if i - 5 < 6 then g.getLsbD (i - 5) else r.getLsbD (i - 5 - 6) := by
  rw [BitVec.getLsbD_append, BitVec.getLsbD_append]

/-- Each field weighs its value at the place where it starts. -/
theorem toNat_pixelFields (r : BitVec 5) (g : BitVec 6) (b : BitVec 5) :
    (r ++ g ++ b).toNat = r.toNat * 2048 + g.toNat * 32 + b.toNat := by
  rw [BitVec.toNat_append, BitVec.toNat_append, ← Nat.shiftLeft_add_eq_or_of_lt g.isLt, ← Nat.shiftLeft_add_eq_or_of_lt b.isLt,
    Nat.shiftLeft_eq, Nat.shiftLeft_eq]
  omega

/-- A mask that keeps the bits of a sample from `n` up. -/
theorem getLsbD_maskedSample {m : Word16} {n : Nat} (mask : ∀ i < 8, m.getLsbD i = decide (n ≤ i)) (c : Byte) (i : Nat) :
    (c.setWidth 16 &&& m).getLsbD i = (decide (n ≤ i) && c.getLsbD i) := by
  rw [BitVec.getLsbD_and, BitVec.getLsbD_setWidth]
  by_cases inside : i < 8
  · rw [mask i inside, decide_eq_true (show i < 16 by omega), Bool.true_and, Bool.and_comm]
  · simp [BitVec.getLsbD_of_ge c i (by omega)]

theorem getLsbD_redSample (r : Byte) (i : Nat) : (r.setWidth 16 &&& 0xF8).getLsbD i = (decide (3 ≤ i) && r.getLsbD i) :=
  getLsbD_maskedSample (by decide) r i

theorem getLsbD_greenSample (g : Byte) (i : Nat) : (g.setWidth 16 &&& 0xFC).getLsbD i = (decide (2 ≤ i) && g.getLsbD i) :=
  getLsbD_maskedSample (by decide) g i

/-- The masks and shifts of R83 put each sample's kept bits in a field of their own: at every bit of a field the other two
samples have a bit that is masked or shifted out, or none. -/
theorem pack565_eq_append (r g b : Byte) :
    pack565 r g b = r.extractLsb' 3 5 ++ g.extractLsb' 2 6 ++ b.extractLsb' 3 5 := by
  apply BitVec.eq_of_getLsbD_eq
  intro i hi
  refine Eq.trans ?_ (getLsbD_pixelFields ..).symm
  simp only [pack565, BitVec.getLsbD_or, BitVec.getLsbD_shiftLeft, BitVec.getLsbD_ushiftRight, getLsbD_redSample,
    getLsbD_greenSample, BitVec.getLsbD_setWidth, BitVec.getLsbD_extractLsb']
  split
  case isTrue blue => simp [blue, show i < 8 by omega, show i - 3 < 2 by omega, show 3 + i < 16 by omega]
  split
  case isTrue green =>
    have place : 2 + (i - 5) = i - 3 := by omega
    simp [hi, green, place, b.getLsbD_of_ge (3 + i) (by omega), show ¬ i < 3 by omega, show ¬ 3 ≤ i - 8 by omega,
      show 2 ≤ i - 3 by omega]
  case isFalse red =>
    have place : 3 + (i - 5 - 6) = i - 8 := by omega
    simp [hi, place, b.getLsbD_of_ge (3 + i) (by omega), g.getLsbD_of_ge (i - 3) (by omega), show ¬ i < 8 by omega,
      show 3 ≤ i - 8 by omega, show i - 5 - 6 < 5 by omega]

/-- Settles O51: the packed pixel is the append of its three fields, and a field's value is the sample divided by the weight
of its lowest kept bit. -/
theorem packKeepsTopBitsInPlace : Obligations.PackKeepsTopBitsInPlace := by
  refine ⟨fun _ _ _ => rfl, pack565_eq_append, fun r g b => ?_, by decide⟩
  rw [pack565_eq_append, toNat_pixelFields]
  simp only [BitVec.extractLsb'_toNat, Nat.shiftRight_eq_div_pow]
  omega

end Sys2Proof.Machine
end

section
/-! SUPPORT. The window invariant as a statement on integers, and the translation to panel coordinates, which does not wrap in a
valid window (R122). -/

namespace Sys2Proof.Machine

theorem windowValid_iff (cfg : DisplayConfig) (w : Window) : windowValid cfg w = true ↔
    w.x0.toNat ≤ w.x1.toNat ∧ w.y0.toNat ≤ w.y1.toNat ∧ w.x1.toNat + cfg.offsetLeft.toNat < cfg.panelW.toNat ∧
      w.y1.toNat + cfg.offsetTop.toNat < cfg.panelH.toNat := by
  simp only [windowValid, Bool.and_eq_true, decide_eq_true_eq, Nat.add_one_le_iff, and_assoc]

/-- Both ends of a span that stays inside the panel are translated without wrapping: the panel's own size fits a register. -/
theorem toNat_translated {first last offset panel : Word16} (ordered : first.toNat ≤ last.toNat)
    (inside : last.toNat + offset.toNat < panel.toNat) :
    (first + offset).toNat = first.toNat + offset.toNat ∧ (last + offset).toNat = last.toNat + offset.toNat :=
  ⟨BitVec.toNat_add_of_lt (by omega), BitVec.toNat_add_of_lt (by omega)⟩

/-- Settles O47: the translated coordinates are the sums that the address parameters are made of, on each axis alone. -/
theorem validWindowTranslatesInsidePanel : Obligations.ValidWindowTranslatesInsidePanel := by
  refine ⟨windowValid_iff, fun cfg w valid => ?_, fun cfg left top => ?_⟩
  · obtain ⟨hx, hy, insideX, insideY⟩ := (windowValid_iff cfg w).mp valid
    obtain ⟨hxs, hxe⟩ := toNat_translated hx insideX
    obtain ⟨hys, hye⟩ := toNat_translated hy insideY
    exact ⟨w.x0 + cfg.offsetLeft, w.x1 + cfg.offsetLeft, w.y0 + cfg.offsetTop, w.y1 + cfg.offsetTop, hxs, hxe, hys, hye,
      by omega, by omega, by omega, by omega, rfl, rfl⟩
  · rw [columnBytes, rowBytes, left, top]
    decide

end Sys2Proof.Machine
end

section
/-! SUPPORT. What error entry writes, in closed form over the error kinds (R176). -/

namespace Sys2Proof.Machine

/-- ERR_CAUSE names a cause under an init error only, and the cause is the transport error, whose code is 1 (R176, R170). -/
theorem ErrorKind.causeCode_eq_ite (e : ErrorKind) : e.causeCode = if e = .initError then 1 else 0 := by
  cases e <;> rfl

theorem ErrorKind.stateAfter_eq_ite (e : ErrorKind) (st : Lifecycle) :
    e.stateAfter st = if e = .initError then .failed else st := by
  cases e <;> rfl

/-- With SEQ emptied no position is left to play (R13). -/
@[simp] theorem State.raise_busy (s : State) (e : ErrorKind) : (s.raise e).busy = false := by
  simp [State.busy]

/-- Settles O30: the register writes of error entry with its two choices by error kind in closed form. -/
theorem errorEntryWritesErrAndIdles : Obligations.ErrorEntryWritesErrAndIdles := by
  intro s e
  refine ⟨?_, s.raise_busy e⟩
  rw [← e.causeCode_eq_ite, ← e.stateAfter_eq_ite s.state, State.raise]

end Sys2Proof.Machine
end

section
/-! SUPPORT. The round trip of decoder and encoder (R61 to R68), format by format, and what the decoder says of the host's
port. -/

namespace Sys2Proof

/-! ### Packed fields read back one after the other -/

/-- A record of packed fields that fit their widths and its bytes. -/
theorem takeRecord_packFields {n : Nat} {fs : List (Nat × Nat)} (rest : List Byte) (fit : ∀ f ∈ fs, f.2 < 2 ^ f.1)
    (size : (fs.map Prod.fst).sum ≤ 8 * n) :
    takeRecord n (toBytes n (packFields fs) ++ rest) = .ok (packFields fs, rest) := by
  refine takeRecord_toBytes n _ rest ?_
  calc packFields fs < 2 ^ (fs.map Prod.fst).sum := packFields_lt fs fit
    _ ≤ 2 ^ (8 * n) := Nat.pow_le_pow_right (by decide) size
    _ = 256 ^ n := by rw [Nat.pow_mul]

theorem nextField_packFields {width : Nat} (v : BitVec width) (fs : List (Nat × Nat)) :
    nextField width (packFields ((width, v.toNat) :: fs)) = (v, packFields fs) :=
  nextField_pack v _

theorem nextBit_packFields (b : Bool) (fs : List (Nat × Nat)) :
    nextBit (packFields ((1, b.toNat) :: fs)) = (b, packFields fs) :=
  nextBit_pack b _

/-- What lies above the first field. -/
theorem packFields_cons_div {width v : Nat} (fs : List (Nat × Nat)) (h : v < 2 ^ width) :
    packFields ((width, v) :: fs) / 2 ^ width = packFields fs := by
  rw [packFields, Nat.add_mul_div_left _ _ (Nat.two_pow_pos width), Nat.div_eq_of_lt h, Nat.zero_add]

/-- The op byte of a host record selects the decoder of its fields (R61, R71). -/
theorem decodeHostop_of_op {n op : Nat} {fs : List (Nat × Nat)} {rest bytes : List Byte}
    (h : bytes = toBytes (n + 1) (packFields ((8, op) :: fs)) ++ rest) (low : 0 < op) (high : op < 5) :
    decodeHostop bytes =
      if op = 1 then decodeConstruct bytes
      else if op = 2 then decodeSetWindow bytes
      else if op = 3 then decodeDisplay bytes
      else decodeSetBacklight bytes := by
  have first : BitVec.ofNat 8 (packFields ((8, op) :: fs)) = BitVec.ofNat 8 op := by
    apply BitVec.eq_of_toNat_eq
    simp only [packFields, BitVec.toNat_ofNat]
    omega
  rw [toBytes, first] at h
  subst h
  obtain rfl | rfl | rfl | rfl : op = 1 ∨ op = 2 ∨ op = 3 ∨ op = 4 := by omega
  all_goals rfl

/-- The two tag bits of a micro-op select the decoder of its fields (R62, R72). -/
theorem decodeUop_of_tag {n tag : Nat} {fs : List (Nat × Nat)} {rest bytes : List Byte}
    (h : bytes = toBytes (n + 1) (packFields ((2, tag) :: fs)) ++ rest) (high : tag < 4) :
    decodeUop bytes =
      if tag = 0 then decodeLine bytes
      else if tag = 1 then decodeWait bytes
      else if tag = 2 then decodeCmd bytes
      else decodeDat bytes := by
  have first : (BitVec.ofNat 8 (packFields ((2, tag) :: fs))).toNat % 4 = tag := by
    simp only [packFields, BitVec.toNat_ofNat]
    omega
  rw [toBytes] at h
  subst h
  simp only [List.cons_append, decodeUop, first]

/-! ### Host operations -/

theorem readConstruct_packFields (q : ConstructReq) : readConstruct (packFields (constructFields q) / 256) = q := by
  have above : packFields (constructFields q) / 256 = packFields (constructFields q).tail :=
    packFields_cons_div (width := 8) _ (by decide)
  rw [above]
  simp only [constructFields, List.cons_append, List.nil_append, List.append_assoc, List.tail_cons, readConstruct,
    nextField_packFields, nextBit_packFields, nextOptional_pack]

theorem readWindow_packFields (q : WindowReq) : readWindow (packFields (windowFields q) / 256) = q := by
  have above : packFields (windowFields q) / 256 = packFields (windowFields q).tail :=
    packFields_cons_div (width := 8) _ (by decide)
  have last : nextOptional (packFields (packOptional q.y1)) = (q.y1, packFields []) := by
    simpa using nextOptional_pack q.y1 []
  rw [above]
  simp only [windowFields, List.cons_append, List.nil_append, List.append_assoc, List.tail_cons, readWindow,
    nextOptional_pack, last]

theorem constructFields_fit (q : ConstructReq) : ∀ f ∈ constructFields q, f.2 < 2 ^ f.1 := by
  simp only [constructFields, List.forall_mem_append]
  refine ⟨⟨⟨?_, packOptional_lt q.offLeft⟩, packOptional_lt q.offTop⟩, ?_⟩
  · simp [q.panelW.isLt, q.panelH.isLt, q.width.isLt, q.height.isLt, q.rotationDeg.isLt]
  · simp [q.spiHz.isLt, Bool.toNat_le]

theorem windowFields_fit (q : WindowReq) : ∀ f ∈ windowFields q, f.2 < 2 ^ f.1 := by
  simp only [windowFields, List.forall_mem_append]
  exact ⟨⟨⟨⟨by simp, packOptional_lt q.x0⟩, packOptional_lt q.y0⟩, packOptional_lt q.x1⟩, packOptional_lt q.y1⟩

theorem decodeHostop_encode_construct (q : ConstructReq) (rest : List Byte) :
    decodeHostop (toBytes 20 (packFields (constructFields q)) ++ rest) = .ok (.construct q, rest) := by
  have record := takeRecord_packFields (n := 20) rest (constructFields_fit q) (by simp [constructFields, packOptional_bits])
  have select := decodeHostop_of_op (op := 1) (bytes := toBytes 20 (packFields (constructFields q)) ++ rest) rfl
    (by decide) (by decide)
  rw [select, if_pos rfl, decodeConstruct, record]
  simp only [Except.map, readConstruct_packFields]

theorem decodeHostop_encode_setWindow (q : WindowReq) (rest : List Byte) :
    decodeHostop (toBytes 10 (packFields (windowFields q)) ++ rest) = .ok (.setWindow q, rest) := by
  have record := takeRecord_packFields (n := 10) rest (windowFields_fit q) (by simp [windowFields, packOptional_bits])
  have select := decodeHostop_of_op (op := 2) (bytes := toBytes 10 (packFields (windowFields q)) ++ rest) rfl
    (by decide) (by decide)
  rw [select, if_neg (by decide), if_pos rfl, decodeSetWindow, record]
  simp only [Except.map, readWindow_packFields]

theorem decodeHostop_encode_display {w h : Word16} {img : List Byte} (size : img.length = w.toNat * h.toNat * 3)
    (rest : List Byte) :
    decodeHostop (toBytes 5 (packFields [(8, 0x03), (16, w.toNat), (16, h.toNat)]) ++ (img ++ rest)) =
      .ok (.display w h img, rest) := by
  have record := takeRecord_packFields (n := 5) (fs := [(8, 0x03), (16, w.toNat), (16, h.toNat)]) (img ++ rest)
    (by simp [w.isLt, h.isLt]) (by simp)
  have above : packFields [(8, 0x03), (16, w.toNat), (16, h.toNat)] / 256 = packFields [(16, w.toNat), (16, h.toNat)] :=
    packFields_cons_div (width := 8) _ (by decide)
  refine (decodeHostop_of_op (op := 3) rfl (by decide) (by decide)).trans ?_
  rw [if_neg (by decide), if_neg (by decide), if_pos rfl, decodeDisplay, record]
  simp only [Except.bind, Except.map, above, nextField_packFields, ← size, takeBytes_append]

theorem decodeHostop_encode_setBacklight (on : Level) (rest : List Byte) :
    decodeHostop (toBytes 2 (packFields [(8, 0x04), (1, on.toNat)]) ++ rest) = .ok (.setBacklight on, rest) := by
  have record := takeRecord_packFields (n := 2) (fs := [(8, 0x04), (1, on.toNat)]) rest (by simp [Bool.toNat_le]) (by simp)
  have above : packFields [(8, 0x04), (1, on.toNat)] / 256 = packFields [(1, on.toNat)] :=
    packFields_cons_div (width := 8) _ (by decide)
  refine (decodeHostop_of_op (op := 4) rfl (by decide) (by decide)).trans ?_
  rw [if_neg (by decide), if_neg (by decide), if_neg (by decide), decodeSetBacklight, record]
  simp only [Except.map, above, nextBit_packFields]

/-! ### Micro-ops -/

/-- The line bit of a LINE: 0 is RST, 1 is BL (R62). -/
def LineName.isBl : LineName → Bool
  | .rst => false
  | .bl => true

theorem encode_line (table : Rom) (name : LineName) (level : Level) :
    encode table (.line name level) = toBytes 1 (packFields [(2, 0), (1, name.isBl.toNat), (1, level.toNat)]) := by
  cases name <;> rfl

theorem decodeUop_encode_line (table : Rom) (name : LineName) (level : Level) (rest : List Byte) :
    decodeUop (encode table (.line name level) ++ rest) = .ok (.line name level, rest) := by
  have record := takeRecord_packFields (n := 1) (fs := [(2, 0), (1, name.isBl.toNat), (1, level.toNat)]) rest
    (by simp [Bool.toNat_le]) (by simp)
  have above : packFields [(2, 0), (1, name.isBl.toNat), (1, level.toNat)] / 4 =
      packFields [(1, name.isBl.toNat), (1, level.toNat)] := packFields_cons_div (width := 2) _ (by decide)
  rw [encode_line]
  refine (decodeUop_of_tag (tag := 0) rfl (by decide)).trans ?_
  rw [if_pos rfl, decodeLine, record]
  simp only [Except.map, above, nextBit_packFields]
  cases name <;> rfl

theorem decodeUop_encode_wait {ms : BitVec 16} (h : ms ≠ 0) (rest : List Byte) :
    decodeUop (toBytes 3 (packFields [(2, 1), (16, ms.toNat)]) ++ rest) = .ok (.wait ms, rest) := by
  have record := takeRecord_packFields (n := 3) (fs := [(2, 1), (16, ms.toNat)]) rest (by simp [ms.isLt]) (by simp)
  have above : packFields [(2, 1), (16, ms.toNat)] / 4 = packFields [(16, ms.toNat)] :=
    packFields_cons_div (width := 2) _ (by decide)
  refine (decodeUop_of_tag (tag := 1) rfl (by decide)).trans ?_
  rw [if_neg (by decide), if_pos rfl, decodeWait, record]
  simp only [Except.bind, above, nextField_packFields, if_neg h]

theorem decodeUop_encode_cmd (c : Byte) (rest : List Byte) :
    decodeUop (toBytes 2 (packFields [(2, 2), (8, c.toNat)]) ++ rest) = .ok (.cmd c, rest) := by
  have record := takeRecord_packFields (n := 2) (fs := [(2, 2), (8, c.toNat)]) rest (by simp [c.isLt]) (by simp)
  have above : packFields [(2, 2), (8, c.toNat)] / 4 = packFields [(8, c.toNat)] :=
    packFields_cons_div (width := 2) _ (by decide)
  refine (decodeUop_of_tag (tag := 2) rfl (by decide)).trans ?_
  rw [if_neg (by decide), if_neg (by decide), if_pos rfl, decodeCmd, record]
  simp only [Except.map, above, nextField_packFields]

theorem decodeUop_encode_dat {bytes : List Byte} (h : bytes ≠ []) (rest : List Byte) :
    decodeUop (0x03 :: (encodeCount bytes.length ++ bytes) ++ rest) = .ok (.dat bytes, rest) := by
  simp [decodeUop, decodeDat, decodeCount_encodeCount, h, takeBytes_append, Except.map]

/-! ### Data formats -/

theorem decodePix565_encode (r : BitVec 5) (g : BitVec 6) (b : BitVec 5) (rest : List Byte) :
    decodePix565 (toBytes 2 (packFields [(5, b.toNat), (6, g.toNat), (5, r.toNat)]) ++ rest) = .ok (.pix565 r g b, rest) := by
  have record := takeRecord_packFields (n := 2) (fs := [(5, b.toNat), (6, g.toNat), (5, r.toNat)]) rest
    (by simp [r.isLt, g.isLt, b.isLt]) (by simp)
  simp only [decodePix565, record, Except.map, nextField_packFields]

theorem decodeAddr4_encode (s e : Word16) (rest : List Byte) :
    decodeAddr4 ([s.extractLsb' 8 8, s.extractLsb' 0 8, e.extractLsb' 8 8, e.extractLsb' 0 8] ++ rest) =
      .ok (.addr4 s e, rest) :=
  congrArg₂ (fun a b => Except.ok (Instr.addr4 a b, rest)) (Machine.hi8_append_lo8 s) (Machine.hi8_append_lo8 e)

theorem decodeTriple_encode (t : Triple) (rest : List Byte) :
    decodeTriple (toBytes 3 (packFields [(8, t.command.toNat), (16, t.postDelay.toNat)]) ++ encodeCount t.data.length ++
      t.data ++ rest) = .ok (.triple t, rest) := by
  have record := takeRecord_packFields (n := 3) (fs := [(8, t.command.toNat), (16, t.postDelay.toNat)])
    (encodeCount t.data.length ++ (t.data ++ rest)) (by simp [t.command.isLt, t.postDelay.isLt]) (by simp)
  rw [List.append_assoc, List.append_assoc]
  simp only [decodeTriple, record, Except.bind, nextField_packFields, decodeCount_encodeCount, takeBytes_append, Except.map]

/-! ### Controller commands: the decoder looks the byte up in the ROM -/

/-- The entries with a default byte in the order of the lookup (R73). -/
def defaultEntries (table : Rom) : List (Byte × Instr) :=
  [(table.swreset, .swreset), (table.slpout, .slpout), (table.frmctr, .frmctr), (table.invoff, .invoff),
    (table.invon, .invon), (table.madctl, .madctl), (table.colmod, .colmod), (table.caset, .caset), (table.raset, .raset),
    (table.ramwr, .ramwr), (table.gmctrp, .gmctrp), (table.gmctrn, .gmctrn), (table.noron, .noron), (table.dispon, .dispon)]

/-- The OPEN entries, which are looked up last (R116). -/
def powerEntries (table : Rom) : List (Byte × Instr) :=
  [(table.pwctrA, .pwctrA), (table.pwctrB, .pwctrB), (table.pwctrC, .pwctrC)]

theorem lookup_cons_eq_ite {α β : Type} [DecidableEq α] (c k : α) (v : β) (l : List (α × β)) :
    ((k, v) :: l).lookup c = if c = k then some v else l.lookup c := by
  rw [List.lookup_cons]
  by_cases h : c = k
  · simp [h]
  · simp [h, beq_false_of_ne h]

/-- An entry whose byte does not stand before it is what the lookup finds. -/
theorem lookup_of_not_before {α β : Type} [DecidableEq α] {c : α} {v : β} {l : List (α × β)} (m : List (α × β))
    (fresh : c ∉ l.map Prod.fst) (first : m.lookup c = some v) : (l ++ m).lookup c = some v := by
  induction l with
  | nil => exact first
  | cons e l ih =>
    simp only [List.map_cons, List.mem_cons, not_or] at fresh
    rw [List.cons_append, lookup_cons_eq_ite, if_neg fresh.1]
    exact ih fresh.2

/-- Where all bytes differ every entry is found. -/
theorem lookup_of_nodup {α β : Type} [DecidableEq α] {c : α} {v : β} {l : List (α × β)} (m : List (α × β))
    (nodup : (l.map Prod.fst).Nodup) (entry : (c, v) ∈ l) : (l ++ m).lookup c = some v := by
  obtain ⟨before, after, rfl⟩ := List.append_of_mem entry
  rw [List.map_append, List.nodup_append] at nodup
  obtain ⟨_, _, differ⟩ := nodup
  rw [List.append_assoc]
  refine lookup_of_not_before _ (fun h => differ c h c (by simp) rfl) ?_
  rw [List.cons_append, lookup_cons_eq_ite, if_pos rfl]

theorem commandOf_eq_lookup (table : Rom) (c : Byte) :
    commandOf table c = (defaultEntries table ++ powerEntries table).lookup c := by
  simp only [commandOf, defaultEntries, powerEntries, List.cons_append, List.nil_append, lookup_cons_eq_ite, List.lookup_nil]

theorem commandOf_default {table : Rom} {c : Byte} {i : Instr} (nodup : ((defaultEntries table).map Prod.fst).Nodup)
    (entry : (c, i) ∈ defaultEntries table) : commandOf table c = some i := by
  rw [commandOf_eq_lookup]
  exact lookup_of_nodup _ nodup entry

theorem commandOf_power {table : Rom} {c : Byte} {i : Instr} (fresh : c ∉ (defaultEntries table).map Prod.fst)
    (nodup : ((powerEntries table).map Prod.fst).Nodup) (entry : (c, i) ∈ powerEntries table) :
    commandOf table c = some i := by
  rw [commandOf_eq_lookup]
  refine lookup_of_not_before _ fresh ?_
  simpa using lookup_of_nodup [] nodup entry

/-- The bytes of a ROM in the order of the lookup are those in the order of the table (R116). -/
theorem romCommands_perm (table : Rom) :
    (Machine.romCommands table).Perm ((defaultEntries table).map Prod.fst ++ (powerEntries table).map Prod.fst) :=
  (List.perm_append_comm (l₁ := (powerEntries table).map Prod.fst)).append_left [table.swreset, table.slpout, table.frmctr]

/-- A controller command is encoded as the byte of its one entry. -/
theorem encode_dcs {i : Instr} (h : i.format = .dcs) (table : Rom) :
    ∃ c, encode table i = [c] ∧
      ((c, i) ∈ defaultEntries table ∨
        ((i = .pwctrA ∨ i = .pwctrB ∨ i = .pwctrC) ∧ (c, i) ∈ powerEntries table)) := by
  cases i
  case pwctrA | pwctrB | pwctrC => exact ⟨_, rfl, .inr ⟨by simp, by simp [powerEntries]⟩⟩
  case swreset | slpout | frmctr | invoff | invon | madctl | colmod | caset | raset | ramwr | gmctrp | gmctrn | noron |
      dispon =>
    exact ⟨_, rfl, .inl (by simp [defaultEntries])⟩
  all_goals cases h

/-- A controller command is read back where the lookup finds its entry. -/
theorem decode_encode_dcs {i : Instr} (h : i.format = .dcs) (table : Rom) (rest : List Byte)
    (found : ∀ c, encode table i = [c] → commandOf table c = some i) :
    decode table i.format (encode table i ++ rest) = .ok (i, rest) := by
  obtain ⟨c, bytes, _⟩ := encode_dcs h table
  rw [h, bytes]
  show decodeDcs table (c :: rest) = _
  rw [decodeDcs, found c bytes]

theorem decode_encode_dcs_of_nodup {table : Rom} {i : Instr} (h : i.format = .dcs) (nodup : (Machine.romCommands table).Nodup)
    (rest : List Byte) : decode table i.format (encode table i ++ rest) = .ok (i, rest) := by
  refine decode_encode_dcs h table rest fun c bytes => ?_
  have lookupOrder := (romCommands_perm table).nodup_iff.mp nodup
  rw [List.nodup_append] at lookupOrder
  obtain ⟨defaults, powers, differ⟩ := lookupOrder
  obtain ⟨c', bytes', entry⟩ := encode_dcs h table
  obtain rfl : c' = c := by simpa [bytes'] using bytes
  rcases entry with entry | ⟨_, entry⟩
  · exact commandOf_default defaults entry
  · exact commandOf_power (fun k => differ c' k c' (List.mem_map_of_mem entry) rfl) powers entry

/-- In the machine's own ROM the fourteen default bytes differ from each other, and so do the three OPEN ones (R116). -/
theorem decode_encode_dcs_rom {i : Instr} (h : i.format = .dcs) (rest : List Byte)
    (unlisted : i = .pwctrA ∨ i = .pwctrB ∨ i = .pwctrC →
      ∀ c ∈ encode Machine.rom i, c ∉ (defaultEntries Machine.rom).map Prod.fst) :
    decode Machine.rom i.format (encode Machine.rom i ++ rest) = .ok (i, rest) := by
  refine decode_encode_dcs h Machine.rom rest fun c bytes => ?_
  obtain ⟨c', bytes', entry⟩ := encode_dcs h Machine.rom
  obtain rfl : c' = c := by simpa [bytes'] using bytes
  rcases entry with entry | ⟨power, entry⟩
  · exact commandOf_default (by decide) entry
  · have differ := rom_powerCommands_ne
    refine commandOf_power (unlisted power c' (by simp [bytes'])) ?_ entry
    simpa [powerEntries, and_assoc] using differ

/-! ### Every format -/

/-- Outside the controller commands the ROM plays no part in the round trip. -/
theorem decode_encode_of_not_dcs {i : Instr} (h : i.format ≠ .dcs) (wellFormed : i.wellFormed = true) (table : Rom)
    (rest : List Byte) : decode table i.format (encode table i ++ rest) = .ok (i, rest) := by
  cases i with
  | construct q => exact decodeHostop_encode_construct q rest
  | setWindow q => exact decodeHostop_encode_setWindow q rest
  | display w ht img =>
    show decodeHostop (toBytes 5 _ ++ img ++ rest) = _
    rw [List.append_assoc]
    exact decodeHostop_encode_display (by simpa [Instr.wellFormed] using wellFormed) rest
  | setBacklight on => exact decodeHostop_encode_setBacklight on rest
  | getWidth => rfl
  | getHeight => rfl
  | line name level => exact decodeUop_encode_line table name level rest
  | wait ms => exact decodeUop_encode_wait (by simpa [Instr.wellFormed] using wellFormed) rest
  | cmd c => exact decodeUop_encode_cmd c rest
  | dat bytes => exact decodeUop_encode_dat (by simpa [Instr.wellFormed] using wellFormed) rest
  | rgb888 r g b => rfl
  | pix565 r g b => exact decodePix565_encode r g b rest
  | pixbytes x y => rfl
  | addr4 s e => exact decodeAddr4_encode s e rest
  | triple t => exact decodeTriple_encode t rest
  | _ => exact absurd rfl h

/-- Settles O9: a controller command is found by its byte, every other format is read back field by field. -/
theorem decodeReadsBackEveryEncoding : Obligations.DecodeReadsBackEveryEncoding := by
  refine ⟨fun table i rest nodup wellFormed => ?_, fun i rest wellFormed unlisted => ?_, rom_powerCommands_ne⟩
  · by_cases h : i.format = .dcs
    · exact decode_encode_dcs_of_nodup h (nodup h) rest
    · exact decode_encode_of_not_dcs h wellFormed table rest
  · by_cases h : i.format = .dcs
    · exact decode_encode_dcs_rom h rest unlisted
    · exact decode_encode_of_not_dcs h wellFormed Machine.rom rest

end Sys2Proof
end

section
/-! SUPPORT. What the host's port can read, and what a step then runs (R71, R74, R100, R140). -/

namespace Sys2Proof.Machine

/-! ### What the decoder reads at the host's port -/

theorem exceptMap_ok {ε α β : Type} {f : α → β} {x : Except ε α} {b : β} (h : x.map f = .ok b) :
    ∃ a, x = .ok a ∧ b = f a := by
  cases x with
  | error e => cases h
  | ok a => cases h; exact ⟨a, rfl, rfl⟩

/-- A list of bytes is taken with the length asked for. -/
theorem takeBytes_length {n : Nat} {bytes : List Byte} {r : List Byte × List Byte} (h : takeBytes n bytes = .ok r) :
    r.1.length = n := by
  unfold takeBytes at h
  split at h
  · cases h
  · cases h
    exact List.length_take_of_le (by omega)

/-- A DISPLAY is read with the image its size asks for (R61, R75). -/
theorem decodeDisplay_ok {bytes rest : List Byte} {i : Instr} (h : decodeDisplay bytes = .ok (i, rest)) :
    ∃ w ht img, i = .display w ht img ∧ img.length = w.toNat * ht.toNat * 3 := by
  unfold decodeDisplay at h
  cases record : takeRecord 5 bytes with
  | error e => rw [record] at h; cases h
  | ok r =>
    rw [record] at h
    obtain ⟨img, taken, read⟩ := exceptMap_ok h
    cases read
    exact ⟨_, _, _, rfl, takeBytes_length taken⟩

/-- The decoder at the host's port reads well-formed host operations and nothing else. -/
theorem decode_hostop_ok {table : Rom} {bytes rest : List Byte} {i : Instr} (h : decode table .hostop bytes = .ok (i, rest)) :
    i.format = .hostop ∧ i.wellFormed = true := by
  change decodeHostop bytes = .ok (i, rest) at h
  unfold decodeHostop at h
  split at h
  · cases h
  · split_ifs at h
    · obtain ⟨_, _, read⟩ := exceptMap_ok h
      cases read
      exact ⟨rfl, rfl⟩
    · obtain ⟨_, _, read⟩ := exceptMap_ok h
      cases read
      exact ⟨rfl, rfl⟩
    · obtain ⟨w, ht, img, rfl, size⟩ := decodeDisplay_ok h
      exact ⟨rfl, by simpa [Instr.wellFormed] using size⟩
    · obtain ⟨_, _, read⟩ := exceptMap_ok h
      cases read
      exact ⟨rfl, rfl⟩
    · cases h
      exact ⟨rfl, rfl⟩
    · cases h
      exact ⟨rfl, rfl⟩

/-- Where something is read, some bytes stood at the port. -/
theorem ne_nil_of_decode_hostop {table : Rom} {bytes rest : List Byte} {i : Instr}
    (h : decode table .hostop bytes = .ok (i, rest)) : bytes ≠ [] := by
  rintro rfl
  cases h

/-- An op byte that selects no operation (R74(a)). -/
theorem decode_illegalOp {op : Byte} (rest : List Byte) (h : op = 0 ∨ 7 ≤ op.toNat) :
    decode rom .hostop (op :: rest) = .error .illegalOp := by
  have other : ∀ k : Byte, 1 ≤ k.toNat ∧ k.toNat ≤ 6 → op ≠ k := by
    rintro k bounds rfl
    rcases h with rfl | h
    · exact absurd bounds.1 (by decide)
    · omega
  simp only [decode, decodeHostop]
  rw [if_neg (other _ (by decide)), if_neg (other _ (by decide)), if_neg (other _ (by decide)),
    if_neg (other _ (by decide)), if_neg (other _ (by decide)), if_neg (other _ (by decide))]

/-! ### What a step runs -/

theorem fetch_hung {s : State} (h : s.hung = true) : fetch s = .nothing := by simp [fetch, h]

theorem fetch_busy {s : State} {u : Instr} (live : s.hung = false) (hu : s.seq[s.seqPc]? = some u) : fetch s = .run u s := by
  simp [fetch, live, State.busy_of_get hu, hu]

theorem fetch_idle {s : State} (live : s.hung = false) (idle : s.busy = false) : fetch s = fetchRequest s := by
  simp [fetch, live, idle]

theorem fetchRequest_none {s : State} (h : s.requests = []) : fetchRequest s = .nothing := by simp [fetchRequest, h]

theorem fetchRequest_ok {s : State} {i : Instr} {rest : List Byte} (waiting : s.requests ≠ [])
    (h : decode rom .hostop s.requests = .ok (i, rest)) : fetchRequest s = .run i { s with requests := rest } := by
  unfold fetchRequest
  split
  · contradiction
  · rw [h]

theorem fetchRequest_error {s : State} {e : DecodeError} (waiting : s.requests ≠ [])
    (h : decode rom .hostop s.requests = .error e) : fetchRequest s = .refuse (refusalOf e) := by
  unfold fetchRequest
  split
  · contradiction
  · rw [h]

theorem step_hung {s : State} (h : s.hung = true) : step s = .next s := by rw [step, fetch_hung h]

theorem step_busy {s : State} {u : Instr} (live : s.hung = false) (hu : s.seq[s.seqPc]? = some u) : step s = exec u s := by
  rw [step, fetch_busy live hu]

theorem step_idle {s : State} (live : s.hung = false) (idle : s.busy = false) (noRequest : s.requests = []) :
    step s = .next s := by
  rw [step, fetch_idle live idle, fetchRequest_none noRequest]

theorem step_request {s : State} {i : Instr} {rest : List Byte} (live : s.hung = false) (idle : s.busy = false)
    (h : decode rom .hostop s.requests = .ok (i, rest)) : step s = exec i { s with requests := rest } := by
  rw [step, fetch_idle live idle, fetchRequest_ok (ne_nil_of_decode_hostop h) h]

theorem step_refused {s : State} {e : DecodeError} (live : s.hung = false) (idle : s.busy = false) (waiting : s.requests ≠ [])
    (h : decode rom .hostop s.requests = .error e) : step s = .refused (refusalOf e) := by
  rw [step, fetch_idle live idle, fetchRequest_error waiting h]

theorem run_succ {s u : State} (h : step s = .next u) (n : Nat) : core.run (n + 1) s = core.run n u := by
  have h' : core.step s = .next u := h
  simp only [Host.Core.run, h']

/-- A state a step leads back to is never left. -/
theorem run_fixed {s : State} (h : step s = .next s) (n : Nat) : core.run n s = .next s := by
  induction n with
  | zero => rfl
  | succ n ih => rw [run_succ h, ih]

/-! ### Acceptance -/

/-- A busy or hung block refuses every host operation (R140, R214). -/
theorem exec_hostop_busy {i : Instr} {s : State} (h : i.format = .hostop) (busy : s.busy = true ∨ s.hung = true) :
    exec i s = .refused .busy := by
  have refuses : ∀ answer, whenIdle s answer = .refused .busy := fun answer => by
    rw [whenIdle, if_pos (by simpa using busy)]
  cases i
  case construct | setWindow | display | setBacklight | getWidth | getHeight => exact refuses _
  all_goals cases h

theorem whenIdle_fault {s : State} {answer : Host.Outcome State Fault Refusal} {f : Fault} (h : whenIdle s answer = .fault f) :
    s.busy = false ∧ answer = .fault f := by
  unfold whenIdle at h
  split at h
  · cases h
  next accepts =>
    simp only [Bool.or_eq_true, not_or, Bool.not_eq_true] at accepts
    exact ⟨accepts.1, h⟩

theorem whenReady_fault {s : State} {answer : Host.Outcome State Fault Refusal} {f : Fault}
    (h : whenReady s answer = .fault f) : s.busy = false ∧ answer = .fault f := by
  obtain ⟨idle, h⟩ := whenIdle_fault h
  split at h
  · exact ⟨idle, h⟩
  · cases h

/-- The only fault of an instruction is that of a DISPLAY whose buffer is not its size, accepted by an idle block (R41, R90). -/
theorem exec_fault {i : Instr} {s : State} {f : Fault} (h : exec i s = .fault f) : s.busy = false ∧ i.wellFormed = false := by
  cases i with
  | construct q =>
    obtain ⟨_, h⟩ := whenIdle_fault h
    split_ifs at h
  | setWindow q =>
    obtain ⟨_, h⟩ := whenReady_fault h
    dsimp only at h
    split_ifs at h
  | display w ht img =>
    obtain ⟨idle, h⟩ := whenReady_fault h
    split_ifs at h with size buffer
    exact ⟨idle, by simpa [Instr.wellFormed] using buffer⟩
  | setBacklight on => cases (whenReady_fault h).2
  | getWidth => cases (whenReady_fault h).2
  | getHeight => cases (whenReady_fault h).2
  | _ => cases h

/-! ### The statements -/

/-- Settles O1: the values stand in the reset state, and a step finds no request there. -/
theorem resetLeavesBlockIdleAndUninitialized : Obligations.ResetLeavesBlockIdleAndUninitialized :=
  ⟨rfl, rfl, rfl, rfl, rfl, rfl, rfl, rfl, rfl, rfl, State.reset, step_idle rfl rfl rfl, rfl⟩

/-- Settles O3: a step of such a block leads back to it. -/
theorem idleBlockWithoutRequestWaits : Obligations.IdleBlockWithoutRequestWaits :=
  fun _ n idle live noRequest => run_fixed (step_idle live idle noRequest) n

/-- Settles O4: a step of a hung block leads back to it, and the flag alone refuses a host operation. -/
theorem hungBlockNeverMovesAgain : Obligations.HungBlockNeverMovesAgain :=
  fun _ hung => ⟨run_fixed (step_hung hung), fun _ h => exec_hostop_busy h (.inr hung)⟩

/-- Settles O5: the two fetches that find something. -/
theorem stepRunsTheFetchedInstruction : Obligations.StepRunsTheFetchedInstruction :=
  ⟨fun _ _ live hu => step_busy live hu, fun _ _ _ live idle _ h => step_request live idle h⟩

/-- Settles O6: the decoder reads well-formed host operations only, and refuses the op bytes above and below theirs. -/
theorem onlySixHostOpsAreRequests : Obligations.OnlySixHostOpsAreRequests := by
  refine ⟨fun s op rest live idle requests illegal => ?_, fun bytes rest i h => (decode_hostop_ok h).1⟩
  have refused := decode_illegalOp rest illegal
  rw [← requests] at refused
  exact step_refused live idle (by simp [requests]) refused

/-- Settles O18: a micro-op in flight cannot fault in a busy block, and a decoded request is well formed. -/
theorem noStepFaults : Obligations.NoStepFaults := by
  intro s f h
  unfold step at h
  rcases fetch_cases s with ⟨hf, _⟩ | ⟨u, _, busy, _, hf⟩ | ⟨i, rest, _, _, decoded, hf⟩ | ⟨e, _, _, _, _, hf⟩
  · rw [hf] at h
    cases h
  · rw [hf] at h
    simp [(exec_fault h).1] at busy
  · rw [hf] at h
    have wellFormed := (decode_hostop_ok decoded).2
    simp [(exec_fault h).2] at wellFormed
  · rw [hf] at h
    cases h

/-- Settles O31: every host operation stands behind `whenIdle`. -/
theorem busyBlockRefusesRequests : Obligations.BusyBlockRefusesRequests :=
  fun _ _ busy h => exec_hostop_busy h (.inl busy)

/-- A word read in the host's format stands at the host's port of an idle block. -/
theorem placeWord_hostop (s : State) {nbits w : Nat} (h : tableFormat nbits w = .hostop) :
    placeWord s nbits w = { s with requests := tableBytes nbits w, seq := [], seqPc := 0, hung := false } := by
  simp only [placeWord, h]

/-- A word read in another format becomes the one entry of a sequence in flight. -/
theorem placeWord_other (s : State) {nbits w : Nat} {i : Instr} (h : tableFormat nbits w ≠ .hostop)
    (read : decodeTableWord nbits w = some i) :
    placeWord s nbits w = { s with seq := [i], seqPc := 0, hung := false } := by
  unfold placeWord
  rw [read]
  generalize tableFormat nbits w = fmt at h ⊢
  cases fmt
  case hostop => exact absurd rfl h
  all_goals rfl

/-- Settles O7: a word of the host's format is decoded again at the host's port, any other is fetched from SEQ. -/
theorem placedWordRunsNext : Obligations.PlacedWordRunsNext := by
  intro s nbits w i read
  unfold State.withFetchWord
  by_cases h : tableFormat nbits w = .hostop
  · rw [placeWord_hostop s h]
    obtain ⟨⟨_, rest⟩, decoded, rfl⟩ :
        ∃ r, decode rom (tableFormat nbits w) (tableBytes nbits w) = .ok r ∧ r.1 = i := by
      unfold decodeTableWord at read
      cases decoded : decode rom (tableFormat nbits w) (tableBytes nbits w) with
      | error e => rw [decoded] at read; cases read
      | ok r => rw [decoded] at read; cases read; exact ⟨r, rfl, rfl⟩
    rw [h] at decoded
    exact ⟨rest, [], step_request rfl rfl decoded, .inl rfl⟩
  · rw [placeWord_other s h read]
    exact ⟨s.requests, [i], step_busy rfl rfl, .inr rfl⟩

/-- Settles O8: each word of the spec's encodings is evaluated. -/
theorem specWordsDecodeToTheirInstructions : Obligations.SpecWordsDecodeToTheirInstructions := by
  refine ⟨?_, ?_, ?_, ?_, ?_, ?_, ?_, ?_, ?_, ?_, ?_⟩ <;> rfl

end Sys2Proof.Machine
end

section
/-! SUPPORT. The codec as a whole: the turns of an image (R82), the round trip of a pixel (R88) and the encoded stream (R85,
R86), with its length and the place of each pixel. -/

namespace Sys2Proof.Machine

/-! ### Rotation -/

/-- The source of a place, by the number of counter-clockwise turns (R82). -/
theorem rotSource_ccw (iw ih i j : Nat) :
    rotSource .ccw 0 iw ih i j = (i, j) ∧ rotSource .ccw 1 iw ih i j = (j, iw - 1 - i) ∧
    rotSource .ccw 2 iw ih i j = (ih - 1 - i, iw - 1 - j) ∧ rotSource .ccw 3 iw ih i j = (ih - 1 - j, i) :=
  ⟨rfl, rfl, rfl, rfl⟩

/-- A turn in either direction is a counter-clockwise one. -/
theorem rotSource_eq_ccw (dir : RotDir) (k : BitVec 2) (iw ih i j : Nat) :
    rotSource dir k iw ih i j = rotSource .ccw (ccwTurns dir k) iw ih i j := rfl

theorem isOddTurn_ccwTurns : ∀ (dir : RotDir) (k : BitVec 2), isOddTurn (ccwTurns dir k) = isOddTurn k
  | .ccw => fun _ => rfl
  | .cw => by decide

/-- The shape of the rotated image does not depend on the direction. -/
theorem rotShape_ccwTurns (dir : RotDir) (k : BitVec 2) (iw ih : Nat) :
    rotRows (ccwTurns dir k) iw ih = rotRows k iw ih ∧ rotCols (ccwTurns dir k) iw ih = rotCols k iw ih := by
  simp only [rotRows, rotCols, isOddTurn_ccwTurns, and_self]

/-- The shape by the number of turns: an odd turn swaps rows and columns. -/
theorem rotShape (iw ih : Nat) :
    (rotRows 0 iw ih = ih ∧ rotCols 0 iw ih = iw) ∧ (rotRows 1 iw ih = iw ∧ rotCols 1 iw ih = ih) ∧
    (rotRows 2 iw ih = ih ∧ rotCols 2 iw ih = iw) ∧ (rotRows 3 iw ih = iw ∧ rotCols 3 iw ih = ih) :=
  ⟨⟨rfl, rfl⟩, ⟨rfl, rfl⟩, ⟨rfl, rfl⟩, ⟨rfl, rfl⟩⟩

section Turn

variable {k : BitVec 2} {iw ih i j i' j' : Nat}

theorem rotSource_ccw_inside (hi : i < rotRows k iw ih) (hj : j < rotCols k iw ih) :
    (rotSource .ccw k iw ih i j).1 < ih ∧ (rotSource .ccw k iw ih i j).2 < iw := by
  obtain ⟨at0, at1, at2, at3⟩ := rotSource_ccw iw ih i j
  obtain ⟨⟨r0, c0⟩, ⟨r1, c1⟩, ⟨r2, c2⟩, ⟨r3, c3⟩⟩ := rotShape iw ih
  obtain rfl | rfl | rfl | rfl := quarterTurn_cases k
  · rw [at0]; omega
  · rw [at1]; omega
  · rw [at2]; omega
  · rw [at3]; omega

theorem rotSource_ccw_injective (hi : i < rotRows k iw ih) (hj : j < rotCols k iw ih) (hi' : i' < rotRows k iw ih)
    (hj' : j' < rotCols k iw ih) (same : rotSource .ccw k iw ih i j = rotSource .ccw k iw ih i' j') : i = i' ∧ j = j' := by
  obtain ⟨at0, at1, at2, at3⟩ := rotSource_ccw iw ih i j
  obtain ⟨at0', at1', at2', at3'⟩ := rotSource_ccw iw ih i' j'
  obtain ⟨⟨r0, c0⟩, ⟨r1, c1⟩, ⟨r2, c2⟩, ⟨r3, c3⟩⟩ := rotShape iw ih
  obtain rfl | rfl | rfl | rfl := quarterTurn_cases k
  · rw [at0, at0', Prod.mk.injEq] at same; omega
  · rw [at1, at1', Prod.mk.injEq] at same; omega
  · rw [at2, at2', Prod.mk.injEq] at same; omega
  · rw [at3, at3', Prod.mk.injEq] at same; omega

end Turn

/-- Settles O53: both directions are counter-clockwise turns by some number of quarters, and each of the four turns only
exchanges and mirrors the two coordinates. -/
theorem rotationPermutesPixels : Obligations.RotationPermutesPixels := by
  refine ⟨fun dir k iw ih i j i' j' hi hj hi' hj' => ?_, fun dir iw ih i j => ?_, fun iw ih i j hi hj => ?_⟩
  · obtain ⟨rows, cols⟩ := rotShape_ccwTurns dir k iw ih
    rw [← rows] at hi hi'
    rw [← cols] at hj hj'
    rw [rotSource_eq_ccw dir, rotSource_eq_ccw dir k iw ih i']
    exact ⟨rotSource_ccw_inside hi hj, rotSource_ccw_injective hi hj hi' hj'⟩
  · cases dir <;> exact ⟨rfl, rfl, rfl, rfl, rfl, rfl⟩
  · refine Prod.ext ?_ ?_
    · show ih - 1 - (ih - 1 - i) = i
      omega
    · show iw - 1 - (iw - 1 - j) = j
      omega

/-! ### The round trip of a pixel -/

/-- A mask that keeps the bits from `n` up sees no other bit. -/
theorem and_mask_congr {m : Byte} {n : Nat} (mask : ∀ i < 8, m.getLsbD i = decide (n ≤ i)) {x y : Byte}
    (same : ∀ i < 8, n ≤ i → x.getLsbD i = y.getLsbD i) : x &&& m = y &&& m := by
  apply BitVec.eq_of_getLsbD_eq
  intro i hi
  rw [BitVec.getLsbD_and, BitVec.getLsbD_and, mask i hi]
  by_cases kept : n ≤ i
  · rw [same i hi kept]
  · simp [kept]

/-- The masks of R88 keep red's and blue's bits from 3 up and green's from 2 up. -/
theorem getLsbD_F8 : ∀ i < 8, (0xF8 : Byte).getLsbD i = decide (3 ≤ i) := by decide
theorem getLsbD_FC : ∀ i < 8, (0xFC : Byte).getLsbD i = decide (2 ≤ i) := by decide

theorem extractLsb'_and_F8 (c : Byte) : (c &&& 0xF8).extractLsb' 3 5 = c.extractLsb' 3 5 := by
  apply BitVec.eq_of_getLsbD_eq
  intro i hi
  simp only [BitVec.getLsbD_extractLsb', BitVec.getLsbD_and, getLsbD_F8 (3 + i) (by omega)]
  simp

theorem extractLsb'_and_FC (c : Byte) : (c &&& 0xFC).extractLsb' 2 6 = c.extractLsb' 2 6 := by
  apply BitVec.eq_of_getLsbD_eq
  intro i hi
  simp only [BitVec.getLsbD_extractLsb', BitVec.getLsbD_and, getLsbD_FC (2 + i) (by omega)]
  simp

/-- Packing reads the kept bits only. -/
theorem pack565_masked (r g b : Byte) : pack565 (r &&& 0xF8) (g &&& 0xFC) (b &&& 0xF8) = pack565 r g b := by
  simp only [pack565_eq_append, extractLsb'_and_F8, extractLsb'_and_FC]

/-- Unpacking moves each field to the top of its byte. -/
theorem unpack565_eq (p : Word16) :
    unpack565 p = ((p >>> 8).setWidth 8 &&& 0xF8, (p >>> 3).setWidth 8 &&& 0xFC, (p <<< 3).setWidth 8 &&& 0xF8) := by
  simp only [unpack565, BitVec.setWidth_and]
  rfl

theorem pack565_unpack565 (p : Word16) : pack565 (unpack565 p).1 (unpack565 p).2.1 (unpack565 p).2.2 = p := by
  rw [unpack565_eq, pack565_masked, pack565_eq_append]
  apply BitVec.eq_of_getLsbD_eq
  intro i hi
  rw [getLsbD_pixelFields]
  simp only [BitVec.getLsbD_extractLsb', BitVec.getLsbD_setWidth, BitVec.getLsbD_ushiftRight, BitVec.getLsbD_shiftLeft]
  split
  case isTrue blue => simp [blue, show 3 + i < 8 by omega, show 3 + i < 16 by omega]
  split
  case isTrue green =>
    simp [green, show 2 + (i - 5) < 8 by omega, show 3 + (2 + (i - 5)) = i by omega]
  case isFalse red =>
    simp [show i - 5 - 6 < 5 by omega, show 3 + (i - 5 - 6) < 8 by omega, show 8 + (3 + (i - 5 - 6)) = i by omega]

theorem unpack565_pack565 (r g b : Byte) : unpack565 (pack565 r g b) = (r &&& 0xF8, g &&& 0xFC, b &&& 0xF8) := by
  rw [unpack565_eq, pack565_eq_append]
  refine Prod.ext ?_ (Prod.ext ?_ ?_)
  · refine and_mask_congr getLsbD_F8 fun i hi kept => ?_
    simp only [BitVec.getLsbD_setWidth, BitVec.getLsbD_ushiftRight, getLsbD_pixelFields, BitVec.getLsbD_extractLsb']
    simp [hi, show ¬ 8 + i < 5 by omega, show ¬ 8 + i - 5 < 6 by omega, show 8 + i - 5 - 6 < 5 by omega,
      show 3 + (8 + i - 5 - 6) = i by omega]
  · refine and_mask_congr getLsbD_FC fun i hi kept => ?_
    simp only [BitVec.getLsbD_setWidth, BitVec.getLsbD_ushiftRight, getLsbD_pixelFields, BitVec.getLsbD_extractLsb']
    simp [hi, show ¬ 3 + i < 5 by omega, show 3 + i - 5 < 6 by omega, show 2 + (3 + i - 5) = i by omega]
  · refine and_mask_congr getLsbD_F8 fun i hi kept => ?_
    simp only [BitVec.getLsbD_setWidth, BitVec.getLsbD_shiftLeft, getLsbD_pixelFields, BitVec.getLsbD_extractLsb']
    simp [hi, show i < 16 by omega, show ¬ i < 3 by omega, show i - 3 < 5 by omega, show 3 + (i - 3) = i by omega]

/-- Settles O52: packing sees the kept bits only, and unpacking puts them back where packing looks for them. -/
theorem packAfterUnpackIsIdentity : Obligations.PackAfterUnpackIsIdentity := by
  refine ⟨pack565_unpack565, fun p => ?_, unpack565_pack565, fun r g b r' g' b' hr hg hb => ?_, by decide⟩
  · rw [unpack565_eq]
    exact ⟨rfl, rfl, rfl⟩
  · rw [← pack565_masked r', ← pack565_masked r, hr, hg, hb]

/-! ### The encoded stream -/

@[simp] theorem pixelBytes_length (p : Rgb) : (pixelBytes p).length = 2 := rfl

/-- A row of the rotated image, encoded. -/
theorem encodedRow_length (n : Nat) (f : Nat → Rgb) : ((List.range n).flatMap fun j => pixelBytes (f j)).length = n * 2 := by
  rw [length_flatMap_const _ _ 2 fun j _ => pixelBytes_length (f j), List.length_range]

theorem encodeImage_length (dir : RotDir) (img : List Byte) (iw ih : Nat) (k : BitVec 2) :
    (encodeImage dir img iw ih k).length = iw * ih * 2 := by
  rw [encodeImage, length_flatMap_const _ _ (rotCols k iw ih * 2) fun i _ => encodedRow_length _ _, List.length_range,
    ← Nat.mul_assoc, rotRows_mul_rotCols]

section Stream

variable (dir : RotDir) (img : List Byte) {iw ih : Nat} {k : BitVec 2} {i j : Nat}

/-- The pixel that stands at row `i` and column `j` of the rotated image (R82, R41). -/
def rotatedPixel (dir : RotDir) (img : List Byte) (iw ih : Nat) (k : BitVec 2) (i j : Nat) : Rgb :=
  imgPixel img iw (rotSource dir k iw ih i j).1 (rotSource dir k iw ih i j).2

/-- The encoded stream is row-major, two bytes a pixel. -/
theorem encodeImage_getElem? (hi : i < rotRows k iw ih) (hj : j < rotCols k iw ih) {b : Nat} (hb : b < 2) :
    (encodeImage dir img iw ih k)[2 * (i * rotCols k iw ih + j) + b]? =
      (pixelBytes (rotatedPixel dir img iw ih k i j))[b]? := by
  have place : 2 * (i * rotCols k iw ih + j) + b = i * (rotCols k iw ih * 2) + (j * 2 + b) := by ring
  rw [place, encodeImage,
    getElem?_flatMap_range _ (rotCols k iw ih * 2) _ (fun _ _ => encodedRow_length _ _) i (j * 2 + b) hi (by omega),
    getElem?_flatMap_range _ 2 _ (fun _ _ => pixelBytes_length _) j b hj hb]
  rfl

theorem take_two_drop {α : Type} {l : List α} {n : Nat} {a b : α} (ha : l[n]? = some a) (hb : l[n + 1]? = some b) :
    (l.drop n).take 2 = [a, b] := by
  obtain ⟨na, ha⟩ := List.getElem?_eq_some_iff.mp ha
  obtain ⟨nb, hb⟩ := List.getElem?_eq_some_iff.mp hb
  rw [List.drop_eq_getElem_cons na, List.drop_eq_getElem_cons nb, ha, hb]
  rfl

theorem encodeImage_take_drop (hi : i < rotRows k iw ih) (hj : j < rotCols k iw ih) :
    ((encodeImage dir img iw ih k).drop (2 * (i * rotCols k iw ih + j))).take 2 =
      pixelBytes (rotatedPixel dir img iw ih k i j) :=
  take_two_drop (encodeImage_getElem? dir img hi hj (b := 0) (by decide))
    (encodeImage_getElem? dir img hi hj (b := 1) (by decide))

end Stream

/-- Settles O54: the stream is equal rows of equal pixels, so each byte's place is a product and a sum. -/
theorem encodedFrameIsRowMajorBigEndian : Obligations.EncodedFrameIsRowMajorBigEndian := by
  refine ⟨fun p => rfl, fun dir img iw ih k => ⟨?_, encodeImage_length dir img iw ih k, fun i j hi hj => ?_,
    fun i j hi hj => encodeImage_take_drop dir img hi hj⟩, rfl, rfl, rfl, by decide⟩
  · rw [encodeImage_length, rotRows_mul_rotCols]
  · exact ⟨encodeImage_getElem? dir img hi hj (b := 0) (by decide),
      encodeImage_getElem? dir img hi hj (b := 1) (by decide)⟩

/-! ### The frame -/

theorem effW_mul_effH (w h : Word16) (k : BitVec 2) : (effW w h k).toNat * (effH w h k).toNat = w.toNat * h.toNat := by
  rw [effW_eq_ite, effH_eq_ite]
  split
  · exact Nat.mul_comm _ _
  · rfl

/-- The encoded frame of a configuration (R124). -/
def frameBytes (cfg : DisplayConfig) (img : List Byte) : List Byte :=
  encodeImage rotDir img (effW cfg.width cfg.height cfg.rot).toNat (effH cfg.width cfg.height cfg.rot).toNat cfg.rot

theorem seqFrame_eq (cfg : DisplayConfig) (img : List Byte) : seqFrame rotDir cfg img = [.dat (frameBytes cfg img)] := rfl

theorem frameBytes_length (cfg : DisplayConfig) (img : List Byte) :
    (frameBytes cfg img).length = cfg.width.toNat * cfg.height.toNat * 2 := by
  rw [frameBytes, encodeImage_length, effW_mul_effH]

theorem DisplayConfig.legal_pos {cfg : DisplayConfig} (h : cfg.legal = true) :
    1 ≤ cfg.width.toNat ∧ 1 ≤ cfg.height.toNat := by
  simp only [DisplayConfig.legal, Bool.and_eq_true, decide_eq_true_eq] at h
  omega

/-- Settles O48: the two effective dimensions are the two configured ones, whichever comes first. -/
theorem frameBurstFillsTheRectangle : Obligations.FrameBurstFillsTheRectangle := by
  intro cfg img legal
  refine ⟨_, rfl, ?_⟩
  obtain ⟨lastCol, lastRow⟩ := DisplayConfig.last_toNat legal
  obtain ⟨cols, rows⟩ := DisplayConfig.legal_pos legal
  have width : (cfg.width - 1).toNat - (0 : Word16).toNat + 1 = cfg.width.toNat := by
    rw [lastCol, show (0 : Word16).toNat = 0 from rfl]; omega
  have height : (cfg.height - 1).toNat - (0 : Word16).toNat + 1 = cfg.height.toNat := by
    rw [lastRow, show (0 : Word16).toNat = 0 from rfl]; omega
  simp only [defaultWindow, width, height]
  exact frameBytes_length cfg img

/-! ### Degrees -/

theorem quarterTurns_turns : ∀ k : BitVec 2, quarterTurns (90 * k.toNat) = some k := by decide

theorem quarterTurns_illegal {degrees : Nat} (h : degrees ∉ [0, 90, 180, 270]) : quarterTurns degrees = none := by
  rw [← quarterTurns_isSome_iff, Bool.not_eq_true, Option.isSome_eq_false_iff, Option.isNone_iff_eq_none] at h
  exact h

/-- Settles O55: `quarterTurns` answers for the four legal rotations and for no other. -/
theorem codecAloneChecksDegrees : Obligations.CodecAloneChecksDegrees := by
  intro dir img iw ih degrees
  refine ⟨fun illegal => ?_, fun k legal => ?_⟩
  · rw [encodeDegrees, quarterTurns_illegal illegal]
  · rw [encodeDegrees, legal, quarterTurns_turns]

end Sys2Proof.Machine
end

section
/-! SUPPORT. The block's invariant is kept by every step: by the advance, the failure and the hang of a micro-op, by error entry
and by the start of a sequence (R13, R16, R20, R21, R23, R74, R144). -/

namespace Sys2Proof.Machine

/-! ### What a micro-op's action does to the lines -/

theorem State.busWrite_lines (s : State) (dc : Level) (bytes : List Byte) :
    (s.busWrite dc bytes).2.rst = s.rst ∧ (s.busWrite dc bytes).2.bl = s.bl := by
  obtain ⟨n, h, _⟩ := s.busWrite_spec dc bytes
  rw [h]
  simp

/-- A line is driven only by a LINE that names it. -/
structure LinesOf (u : Instr) (s t : State) : Prop where
  rst : t.rst = s.rst ∨ ∃ level, u = .line .rst level
  bl : t.bl = s.bl ∨ ∃ level, u = .line .bl level

/-- A micro-op is an action and what follows it; only a bus write can fail (R101, R102, R104). -/
theorem exec_microOp {u : Instr} {s t : State} (micro : u.isMicroOp = true) (h : exec u s = .next t) :
    ∃ r : Progress × State, t = State.settle r ∧ Acted s r.2 ∧ LinesOf u s r.2 ∧
      (r.1 = .failed → (∃ c, u = .cmd c) ∨ ∃ bytes, u = .dat bytes) := by
  cases u with
  | line name level =>
    cases h
    refine ⟨_, rfl, Acted.setLine s name level, ?_, nofun⟩
    cases name with
    | rst => exact ⟨.inr ⟨level, rfl⟩, .inl rfl⟩
    | bl => exact ⟨.inl rfl, .inr ⟨level, rfl⟩⟩
  | wait ms =>
    cases h
    refine ⟨_, rfl, Acted.delay s ms, ⟨.inl (by simp [State.delay]), .inl (by simp [State.delay])⟩, fun failed => ?_⟩
    unfold State.delay at failed
    cases answer : s.delayAnswer <;> simp [answer] at failed
  | cmd c =>
    cases h
    obtain ⟨rst, bl⟩ := (s.select cmdLevel).busWrite_lines cmdLevel [c]
    exact ⟨_, rfl, Acted.sendCommand s c, ⟨.inl rst, .inl bl⟩, fun _ => .inl ⟨c, rfl⟩⟩
  | dat bytes =>
    cases h
    obtain ⟨rst, bl⟩ := (s.select dataLevel).busWrite_lines dataLevel bytes
    exact ⟨_, rfl, Acted.sendData s bytes, ⟨.inl rst, .inl bl⟩, fun _ => .inr ⟨bytes, rfl⟩⟩
  | _ => cases micro

/-! ### What the invariant does not look at -/

theorem Panel.hearAll_wf {p : Panel} (h : Memory.wf p.mem = true) (items : List Item) :
    Memory.wf (items.foldl Panel.hear p).mem = true := by
  induction items generalizing p with
  | nil => exact h
  | cons it items ih =>
    refine ih ?_
    cases it with
    | byte dc b => exact Panel.receive_wf h dc b
    | line name level => exact h
    | delay ms => exact h

theorem State.Inv.requests {s : State} (inv : s.Inv) (rest : List Byte) : ({ s with requests := rest } : State).Inv :=
  { inv with }

theorem State.Inv.hung {s : State} (inv : s.Inv) (v : Bool) : ({ s with hung := v } : State).Inv :=
  { inv with }

theorem State.Inv.res {s : State} (inv : s.Inv) (v : Word16) : ({ s with res := v } : State).Inv :=
  { inv with }

theorem State.Inv.losePointer {s : State} (inv : s.Inv) : s.losePointer.Inv :=
  { inv with }

theorem State.Inv.complete {s : State} (inv : s.Inv) : s.complete.Inv :=
  { inv with errors := by simp }

/-! ### A micro-op of a busy block -/

/-- The action of a micro-op in flight. -/
theorem State.Inv.acted {s t : State} {u : Instr} (inv : s.Inv) (hu : s.seq[s.seqPc]? = some u) (action : Acted s t)
    (drives : LinesOf u s t) : t.Inv where
  memory := by
    obtain ⟨items, _, heard⟩ := action.output
    rw [heard]
    exact Panel.hearAll_wf inv.memory items
  position := by rw [action.seqPc, action.seq]; exact inv.position
  microOps := by rw [action.seq]; exact inv.microOps
  lineNames := by rw [action.seq, action.cfg]; exact inv.lineNames
  errors := by rw [action.err, action.errCause]; exact inv.errors
  loaded := by rw [action.state, action.busy, action.cfg, action.win]; exact inv.loaded
  constructing := by rw [action.busy, action.state, action.seq, action.seqPc, action.cfg]; exact inv.constructing
  transient := by rw [action.state, action.busy]; exact inv.transient
  idleLines := fun _ idle => by
    rw [action.busy, State.busy_of_get hu] at idle
    cases idle
  lines := by
    have named : ∀ name level, u = .line name level → lineConfigured s.cfg name = true :=
      fun name level line => inv.lineNames name level (line ▸ List.mem_of_getElem? hu)
    rw [action.cfg]
    refine ⟨fun driven => ?_, fun driven => ?_⟩
    · rcases drives.rst with same | ⟨level, line⟩
      · exact inv.lines.1 (same ▸ driven)
      · exact named .rst level line
    · rcases drives.bl with same | ⟨level, line⟩
      · exact inv.lines.2 (same ▸ driven)
      · exact named .bl level line

theorem constructSeq_length (table : Rom) (cfg : DisplayConfig) :
    (seqBlPulse cfg).length + (seqReset cfg).length < (constructSeq table cfg).length := by
  have := seqInit_length_pos table cfg
  simp only [constructSeq, List.length_append]
  omega

/-- The advance of a block in construction keeps to the lifecycle due (R144). -/
theorem State.Inv.advance_due {s : State} (inv : s.Inv) (busy : s.busy = true) (h : s.advance.state ≠ .ready) :
    s.seq = constructSeq rom s.cfg ∧
    s.advance.state =
      lifecycleAt (seqBlPulse s.cfg).length (seqReset s.cfg).length s.seq.length (s.seqPc + 1) .uninitialized := by
  obtain ⟨_, _, _, inFlight, _⟩ := State.advance_spec s
  have lt := (State.busy_iff s).mp busy
  obtain ⟨_, next⟩ := inFlight lt
  have notReady : s.state ≠ .ready := fun ready => h (by rw [next, ready, lifecycleAt_fixed (.inl rfl)])
  obtain ⟨seq, due⟩ := inv.constructing busy notReady
  refine ⟨seq, ?_⟩
  rw [next, due]
  exact lifecycleAt_succ lt

theorem State.Inv.advance {s : State} (inv : s.Inv) (busy : s.busy = true) : s.advance.Inv := by
  obtain ⟨seq, _, _, inFlight, running, ended⟩ := State.advance_spec s
  obtain ⟨win, _, cfg, dc, rst, bl, _, panel, _⟩ := State.advance_frame s
  have lt := (State.busy_iff s).mp busy
  obtain ⟨pc, _⟩ := inFlight lt
  exact
    { memory := by rw [panel]; exact inv.memory
      position := by rw [pc, seq]; exact lt
      microOps := by rw [seq]; exact inv.microOps
      lineNames := by rw [seq, cfg]; exact inv.lineNames
      errors := by
        rcases Nat.lt_or_eq_of_le (Nat.succ_le_of_lt lt) with more | last
        · obtain ⟨err, cause⟩ := running more
          rw [err, cause]
          exact inv.errors
        · obtain ⟨err, cause⟩ := ended last
          rw [err, cause]
          decide
      loaded := fun _ => by rw [cfg, win]; exact inv.loaded (.inr busy)
      constructing := fun _ notReady => by
        rw [seq, pc, cfg]
        exact inv.advance_due busy notReady
      transient := fun transient => by
        obtain ⟨construct, due⟩ := inv.advance_due busy (by rcases transient with h | h <;> rw [h] <;> nofun)
        have length := constructSeq_length rom s.cfg
        rw [State.busy_iff, seq, pc]
        rw [due, lifecycleAt_resetting_iff, lifecycleAt_initializing_iff, construct] at transient
        rw [construct]
        omega
      idleLines := fun fresh idle => by
        obtain ⟨construct, due⟩ := inv.advance_due busy (by rw [fresh]; nofun)
        have length := constructSeq_length rom s.cfg
        rw [State.not_busy_iff, seq, pc, construct] at idle
        rw [due, lifecycleAt_uninitialized_iff] at fresh
        omega
      lines := by rw [rst, bl, cfg]; exact inv.lines }

theorem ErrorKind.code_cause (e : ErrorKind) : e.code.toNat ≤ 6 ∧ e.causeCode = if e.code = 2 then 1 else 0 := by
  cases e <;> decide

/-- Error entry, where it does not leave the block idle in a passing state, and in `Uninitialized` only if it was idle there. -/
theorem State.Inv.raise {s : State} {e : ErrorKind} (inv : s.Inv)
    (lasting : e.stateAfter s.state ≠ .resetting ∧ e.stateAfter s.state ≠ .initializing)
    (fresh : e.stateAfter s.state = .uninitialized ↔ s.state = .uninitialized ∧ s.busy = false) : (s.raise e).Inv where
  memory := inv.memory
  position := Nat.le_refl 0
  microOps := nofun
  lineNames := nofun
  errors := e.code_cause
  loaded := fun h => by
    rw [State.raise_busy, State.raise_state, Ne, fresh, not_and_or, Bool.not_eq_false] at h
    exact inv.loaded (by simpa using h)
  constructing := fun busy => by rw [State.raise_busy] at busy; cases busy
  transient := fun h => by rcases h with h | h; exacts [absurd h lasting.1, absurd h lasting.2]
  idleLines := fun h _ => by
    obtain ⟨hs, idle⟩ := fresh.mp h
    exact inv.idleLines hs idle
  lines := inv.lines

/-- An error of a request leaves STATE as it is. -/
theorem State.Inv.raise_idle {s : State} {e : ErrorKind} (inv : s.Inv) (idle : s.busy = false) (mild : e ≠ .initError) :
    (s.raise e).Inv := by
  have same : e.stateAfter s.state = s.state := by rw [e.stateAfter_eq_ite, if_neg mild]
  have passing : ¬ (s.state = .resetting ∨ s.state = .initializing) := fun h => by simpa [idle] using inv.transient h
  refine inv.raise ⟨?_, ?_⟩ ?_
  · exact same.symm ▸ fun h => passing (.inl h)
  · exact same.symm ▸ fun h => passing (.inr h)
  · simp [same, idle]

/-- The failure of a micro-op leads to `Failed` from the two passing states and changes no other (R107). -/
theorem failureKind_stateAfter (st : Lifecycle) :
    (failureKind st).stateAfter st = if st = .resetting ∨ st = .initializing then .failed else st := by
  cases st <;> rfl

/-- The failure of a micro-op, which no micro-op played in `Uninitialized` can have. -/
theorem State.Inv.failUop {s : State} (inv : s.Inv) (left : s.state ≠ .uninitialized) : s.failUop.Inv := by
  refine State.Inv.raise (s := s.losePointer) inv.losePointer ?_ ?_
  all_goals
    rw [State.losePointer_state, failureKind_stateAfter]
    split
  · exact ⟨nofun, nofun⟩
  next steady => exact not_or.mp steady
  · simp [left]
  · simp [left]

/-- A micro-op of a busy block keeps the invariant: the part of CONSTRUCT's sequence played in `Uninitialized` writes nothing
to the bus and cannot fail. -/
theorem State.Inv.exec_microOp {s t : State} {u : Instr} (inv : s.Inv) (hu : s.seq[s.seqPc]? = some u)
    (h : exec u s = .next t) : t.Inv := by
  have busy := State.busy_of_get hu
  obtain ⟨micro, _⟩ := inv.microOps u (List.mem_of_getElem? hu)
  obtain ⟨⟨progress, s1⟩, rfl, action, drives, fails⟩ := Machine.exec_microOp micro h
  have inv1 : s1.Inv := inv.acted hu action drives
  cases progress with
  | done => exact inv1.advance (by rw [action.busy, busy])
  | hung => exact inv1.hung true
  | failed =>
    refine inv1.failUop (fun fresh => ?_)
    rw [show s1.state = s.state from action.state] at fresh
    obtain ⟨seq, pulse⟩ := (inv.constructed (.inr busy)).resolve_left (not_not.mpr fresh)
    rw [seq] at hu
    obtain ⟨noCmd, noDat⟩ := constructSeq_early hu pulse
    rcases fails rfl with ⟨c, isCmd⟩ | ⟨bytes, isDat⟩
    · exact noCmd c isCmd
    · exact noDat bytes isDat

/-! ### A request of an idle block -/

/-- A sequence that is not empty is in flight as soon as it is started. -/
theorem State.start_of_ne_nil (s : State) {seq : List Instr} (h : seq ≠ []) :
    s.start seq =
      { s with
        seq := seq
        seqPc := 0
        state := lifecycleAt (seqBlPulse s.cfg).length (seqReset s.cfg).length seq.length 0 s.state } := by
  have busy : ({ s with seq := seq, seqPc := 0 } : State).busy = true := by
    simpa [State.busy, List.length_pos_iff] using h
  simp only [State.start, busy, if_true]
  rfl

theorem defaultWindow_valid {cfg : DisplayConfig} (h : cfg.legal = true) : windowValid cfg (defaultWindow cfg) = true := by
  obtain ⟨lastCol, lastRow⟩ := DisplayConfig.last_toNat h
  obtain ⟨cols, rows⟩ := DisplayConfig.legal_pos h
  obtain ⟨_, _, left, top⟩ := DisplayConfig.legal_fits h
  rw [windowValid_iff]
  simp only [defaultWindow, lastCol, lastRow]
  simp
  omega

theorem constructSeq_ne_nil (table : Rom) (cfg : DisplayConfig) : constructSeq table cfg ≠ [] := by
  have := constructSeq_length table cfg
  exact List.ne_nil_of_length_pos (by omega)

/-- A valid CONSTRUCT (R141 to R144). -/
theorem State.Inv.construct {s : State} {cfg : DisplayConfig} (inv : s.Inv) (idle : s.busy = false)
    (fresh : s.state = .uninitialized) (legal : cfg.legal = true) :
    (({ s with cfg := cfg, win := defaultWindow cfg } : State).start (constructSeq rom cfg)).Inv := by
  have playable := constructSeq_playable rom cfg
  have length := constructSeq_length rom cfg
  obtain ⟨_, rst, bl⟩ := inv.idleLines fresh idle
  rw [State.start_of_ne_nil _ (constructSeq_ne_nil rom cfg)]
  exact
    { memory := inv.memory
      position := Nat.zero_le _
      microOps := fun u hu => (playable u hu).1
      lineNames := fun name level hu => (playable _ hu).2 name level rfl
      errors := inv.errors
      loaded := fun _ => ⟨legal, defaultWindow_valid legal⟩
      constructing := fun _ _ => ⟨rfl, by dsimp only; rw [fresh]⟩
      transient := fun _ => (State.busy_iff _).mpr (Nat.zero_lt_of_lt length)
      idleLines := fun _ notBusy => by
        have := (State.not_busy_iff _).mp notBusy
        simp only at this
        omega
      lines := by simp [rst, bl] }

/-- A sequence of an operation of a `Ready` block. -/
theorem State.Inv.start_ready {s : State} {w : Window} {seq : List Instr} (inv : s.Inv) (ready : s.state = .ready)
    (valid : windowValid s.cfg w = true)
    (playable : ∀ u ∈ seq, Playable u ∧ ∀ name level, u = .line name level → lineConfigured s.cfg name = true) :
    (({ s with win := w } : State).start seq).Inv := by
  obtain ⟨legal, _⟩ := inv.loaded (.inl (by rw [ready]; nofun))
  have started : ({ s with win := w, seq := seq, seqPc := 0 } : State).Inv :=
    { memory := inv.memory
      position := Nat.zero_le _
      microOps := fun u hu => (playable u hu).1
      lineNames := fun name level hu => (playable _ hu).2 name level rfl
      errors := inv.errors
      loaded := fun _ => ⟨legal, valid⟩
      constructing := fun _ notReady => absurd ready notReady
      transient := fun h => by simp [ready] at h
      idleLines := fun h => by simp [ready] at h
      lines := inv.lines }
  rw [State.start_ready (by exact ready)]
  split
  · exact started.complete
  · exact started

theorem seqFrame_playable {cfg : DisplayConfig} (h : cfg.legal = true) (img : List Byte) :
    ∀ u ∈ seqFrame rotDir cfg img, Playable u ∧ ∀ name level, u ≠ .line name level := by
  obtain ⟨cols, rows⟩ := DisplayConfig.legal_pos h
  have pos : 0 < (frameBytes cfg img).length := by
    rw [frameBytes_length]
    positivity
  simp only [seqFrame_eq, List.mem_singleton, forall_eq]
  refine ⟨⟨rfl, ?_⟩, nofun⟩
  simpa [Instr.wellFormed] using List.ne_nil_of_length_pos pos

theorem seqBacklight_playable (cfg : DisplayConfig) (on : Level) :
    ∀ u ∈ seqBacklight cfg on, Playable u ∧ ∀ name level, u = .line name level → lineConfigured cfg name = true := by
  unfold seqBacklight
  split
  case isTrue line =>
    simp only [List.mem_singleton, forall_eq]
    refine ⟨⟨rfl, rfl⟩, fun name level same => ?_⟩
    cases same
    exact line
  case isFalse => nofun

/-- A host operation of an idle block keeps the invariant. -/
theorem State.Inv.exec_hostop {s t : State} {i : Instr} (inv : s.Inv) (host : i.format = .hostop) (h : exec i s = .next t) :
    t.Inv := by
  have noLine : ∀ {seq : List Instr}, (∀ u ∈ seq, Playable u ∧ ∀ name level, u ≠ .line name level) →
      ∀ u ∈ seq, Playable u ∧ ∀ name level, u = .line name level → lineConfigured s.cfg name = true :=
    fun playable u hu => ⟨(playable u hu).1, fun name level same => absurd same ((playable u hu).2 name level)⟩
  cases exec_shape h with
  | acted r row _ _ => exact absurd host row
  | raised e idle _ kind eq =>
    rw [eq]
    exact inv.raise_idle idle (by rcases kind with rfl | rfl | rfl | rfl <;> nofun)
  | constructed q _ idle _ fresh valid eq =>
    rw [eq]
    exact inv.construct idle fresh (loadConfig_legal q valid)
  | started w seq _ _ ready window sequence eq =>
    obtain ⟨legal, held⟩ := inv.loaded (.inl (by rw [ready]; nofun))
    have valid : windowValid s.cfg w = true := by
      rcases window with valid | rfl | rfl
      · exact valid
      · exact defaultWindow_valid legal
      · exact held
    rw [eq]
    refine inv.start_ready ready valid ?_
    rcases sequence with rfl | ⟨img, _, rfl⟩ | ⟨on, rfl⟩
    · exact noLine (seqWindow_playable rom s.cfg w)
    · refine noLine fun u hu => ?_
      rcases List.mem_append.mp hu with hu | hu
      · exact seqWindow_playable rom s.cfg w u hu
      · exact seqFrame_playable legal img u hu
    · exact seqBacklight_playable s.cfg on
  | answered v _ _ _ eq =>
    rw [eq]
    exact (inv.res v).complete

/-! ### The statements -/

/-- Settles O2: the reset state is the block reset of itself, and its memory is empty. -/
theorem resetMeetsBlockInvariant : Obligations.ResetMeetsBlockInvariant :=
  State.blockReset_inv (s := State.reset) reset_memory_wf

/-- Settles O10: a step runs the micro-op in flight, or a host operation of an idle block, or nothing. -/
theorem everyStepKeepsBlockInvariant : Obligations.EveryStepKeepsBlockInvariant := by
  intro s t inv h
  rcases step_next h with rfl | ⟨u, _, _, hu, he⟩ | ⟨i, rest, _, _, decoded, he⟩
  · exact inv
  · exact inv.exec_microOp hu he
  · exact (inv.requests rest).exec_hostop (decode_hostop_ok decoded).1 he

end Sys2Proof.Machine
end

section
/-! SUPPORT. What holds of every step: the sequencer's three ends of a micro-op (R100), the order of the lifecycle (R20, R144),
the growth of the trace (R27, R58), and block reset beside the steps (R200). -/

namespace Sys2Proof.Machine

/-! ### The sequencer -/

theorem ErrorKind.code_ne_zero (e : ErrorKind) : e.code ≠ 0 := by cases e <;> decide

/-- Settles O11: what follows a micro-op's action is the advance, the error or the hang. -/
theorem sequencerAdvancesByOneMicroOp : Obligations.SequencerAdvancesByOneMicroOp := by
  intro s t u live hu micro h
  rw [step_busy live hu] at h
  have lt := (State.busy_iff s).mp (State.busy_of_get hu)
  obtain ⟨⟨progress, s1⟩, rfl, action, _, _⟩ := exec_microOp micro h
  have live1 : s1.hung = false := action.hung.trans live
  cases progress with
  | done =>
    obtain ⟨seq, hung, _, inFlight, _⟩ := State.advance_spec s1
    rw [State.settle_done]
    refine .inl ⟨seq.trans action.seq, ?_, hung.trans live1⟩
    rw [(inFlight (by rwa [action.seq, action.seqPc])).1, action.seqPc]
  | failed => exact .inr (.inl ⟨rfl, rfl, ErrorKind.code_ne_zero _, live1⟩)
  | hung => exact .inr (.inr ⟨action.seq, action.seqPc, rfl⟩)

/-! ### The lifecycle -/

/-- The order of R20: `b` is `a` or comes later in the chain; `Failed` comes after the two passing states alone. -/
def Lifecycle.Forward (a b : Lifecycle) : Prop :=
  (a = .ready → b = .ready) ∧ (a = .failed → b = .failed) ∧ (b = .uninitialized → a = .uninitialized) ∧
  (b = .resetting → a = .uninitialized ∨ a = .resetting) ∧
  (b = .failed → a = .resetting ∨ a = .initializing ∨ a = .failed)

theorem Lifecycle.Forward.refl (a : Lifecycle) : a.Forward a := by
  unfold Lifecycle.Forward
  exact ⟨id, id, id, .inr, fun h => .inr (.inr h)⟩

/-- The transitions due at a position lead forward. -/
theorem lifecycleAt_forward (n1 n2 len pc : Nat) (st : Lifecycle) : st.Forward (lifecycleAt n1 n2 len pc st) := by
  cases st with
  | uninitialized =>
    refine ⟨nofun, nofun, fun _ => rfl, fun _ => .inl rfl, fun h => absurd h lifecycleAt_ne_failed⟩
  | resetting =>
    by_cases b : n1 + n2 ≤ pc <;> by_cases e : len ≤ pc <;> simp [Lifecycle.Forward, lifecycleAt, b, e]
  | initializing => by_cases e : len ≤ pc <;> simp [Lifecycle.Forward, lifecycleAt, e]
  | ready => rw [lifecycleAt_fixed (.inl rfl)]; exact .refl _
  | failed => rw [lifecycleAt_fixed (.inr rfl)]; exact .refl _

theorem failureKind_forward (st : Lifecycle) : st.Forward ((failureKind st).stateAfter st) := by
  rw [failureKind_stateAfter]
  split
  case isTrue passing => rcases passing with rfl | rfl <;> simp [Lifecycle.Forward]
  case isFalse => exact .refl _

theorem State.advance_forward (s : State) : s.state.Forward s.advance.state := by
  obtain ⟨_, _, atRest, inFlight, _⟩ := State.advance_spec s
  by_cases busy : s.busy = true
  · obtain ⟨_, due⟩ := inFlight ((State.busy_iff s).mp busy)
    rw [due]
    exact lifecycleAt_forward _ _ _ _ _
  · obtain ⟨_, _, _, same⟩ := atRest (by simpa using busy)
    rw [same]
    exact .refl _

theorem exec_forward {i : Instr} {s t : State} (h : exec i s = .next t) : s.state.Forward t.state := by
  cases exec_shape h with
  | acted r _ action eq =>
    rw [eq, ← action.state]
    rcases State.settle_cases r with k | k | k <;> rw [k]
    · exact State.advance_forward r.2
    · exact failureKind_forward r.2.state
    · exact .refl _
  | raised e _ _ kind eq =>
    have mild : e ≠ .initError := by rcases kind with rfl | rfl | rfl | rfl <;> nofun
    rw [eq, State.raise_state, e.stateAfter_eq_ite, if_neg mild]
    exact .refl _
  | constructed q _ _ _ _ _ eq => rw [eq, State.start_state]; exact lifecycleAt_forward _ _ _ _ _
  | started w seq _ _ _ _ _ eq => rw [eq, State.start_state]; exact lifecycleAt_forward _ _ _ _ _
  | answered v _ _ _ eq => rw [eq]; exact .refl _

/-- Settles O12: every way a step can write STATE leads forward. -/
theorem lifecycleOnlyMovesForward : Obligations.LifecycleOnlyMovesForward := by
  intro s t h
  rcases step_next h with rfl | ⟨u, _, _, _, he⟩ | ⟨i, rest, _, _, _, he⟩
  · exact Lifecycle.Forward.refl _
  · exact exec_forward he
  · have forward := exec_forward he
    exact forward

/-- A micro-op of a construction that reaches `Ready` is the last of its sequence. -/
theorem State.Inv.ready_at_end {s t : State} (inv : s.Inv) (busy : s.busy = true) (notReady : s.state ≠ .ready)
    (h : step s = .next t) (ready : t.state = .ready) : t.seq = s.seq ∧ t.seqPc = s.seq.length := by
  rcases step_next h with rfl | ⟨u, _, _, hu, he⟩ | ⟨_, _, _, idle, _⟩
  · exact absurd ready notReady
  · obtain ⟨micro, _⟩ := inv.microOps u (List.mem_of_getElem? hu)
    obtain ⟨⟨progress, s1⟩, rfl, action, _, _⟩ := Machine.exec_microOp micro he
    have lt := (State.busy_iff s).mp busy
    cases progress with
    | done =>
      obtain ⟨seq, _, _, inFlight, _⟩ := State.advance_spec s1
      obtain ⟨pc, next⟩ := inFlight (by rwa [action.seq, action.seqPc])
      obtain ⟨_, due⟩ := inv.constructing busy notReady
      rw [State.settle_done] at ready ⊢
      rw [next, action.state, action.cfg, action.seq, action.seqPc, due, lifecycleAt_succ lt, lifecycleAt_ready_iff] at ready
      refine ⟨seq.trans action.seq, ?_⟩
      rw [pc, action.seqPc]
      omega
    | failed =>
      have after : (failureKind s1.state).stateAfter s1.state = .ready := ready
      rw [show s1.state = s.state from action.state, failureKind_stateAfter] at after
      split at after
      · cases after
      · exact absurd after notReady
    | hung => exact absurd (action.state.symm.trans ready) notReady
  · rw [busy] at idle
    cases idle

/-- Settles O13: STATE is the one due at the position (R144), and the pulses are three and six micro-ops long. -/
theorem lifecycleFollowsSequencePosition : Obligations.LifecycleFollowsSequencePosition := by
  intro s inv busy notReady
  obtain ⟨_, due⟩ := inv.constructing busy notReady
  have lt := (State.busy_iff s).mp busy
  rw [seqBlPulse_length, seqReset_length] at due
  simp only
  refine ⟨?_, ?_, ?_, ?_, fun t h ready => inv.ready_at_end busy notReady h ready⟩
  · rw [due]
    exact lifecycleAt_uninitialized_iff
  · rw [due]
    exact lifecycleAt_resetting_iff
  · rw [due, lifecycleAt_initializing_iff]
    exact and_iff_left lt
  · rw [due]
    exact lifecycleAt_ne_failed

/-! ### The trace and the controller -/

/-- What a step adds to the trace, and what the controller takes in: its write index aside where the step ends a DISPLAY. -/
def Heard (s t : State) (items : List Item) : Prop :=
  t.trace = s.trace ++ items ∧
  { t.panel with index := 0 } = { items.foldl Panel.hear s.panel with index := 0 } ∧
  (s.playsDisplay = false ∨ t.seq ≠ [] → t.panel = items.foldl Panel.hear s.panel)

theorem Heard.of_panel {s t : State} {items : List Item} (trace : t.trace = s.trace ++ items)
    (panel : t.panel = items.foldl Panel.hear s.panel) : Heard s t items :=
  ⟨trace, by rw [panel], fun _ => panel⟩

/-- Nothing is sent, nothing heard. -/
theorem Heard.silent {s t : State} (trace : t.trace = s.trace) (panel : t.panel = s.panel) : Heard s t [] :=
  .of_panel (by rw [trace, List.append_nil]) panel

theorem exec_heard {i : Instr} {s t : State} (h : exec i s = .next t) : ∃ items, Heard s t items := by
  cases exec_shape h with
  | acted r _ action eq =>
    obtain ⟨items, trace, panel⟩ := action.output
    refine ⟨items, ?_⟩
    rw [eq]
    rcases State.settle_cases r with k | k | k <;> rw [k]
    · obtain ⟨_, _, _, _, _, _, sameTrace, samePanel, _⟩ := State.advance_frame r.2
      exact .of_panel (sameTrace.trans trace) (samePanel.trans panel)
    · refine ⟨trace, by rw [State.failUop_panel, panel], fun display => ?_⟩
      have notDisplay := display.resolve_right (fun nonempty => nonempty rfl)
      rw [State.failUop_panel_of_not_display (action.playsDisplay.trans notDisplay), panel]
    · exact .of_panel trace panel
  | raised e _ _ _ eq => exact ⟨[], eq ▸ .silent rfl rfl⟩
  | constructed q _ _ _ _ _ eq =>
    obtain ⟨_, _, _, _, _, _, _, _, trace, panel, _⟩ := State.start_frame
      ({ s with cfg := loadConfig q, win := defaultWindow (loadConfig q) } : State) (constructSeq rom (loadConfig q))
    exact ⟨[], eq ▸ .silent trace panel⟩
  | started w seq _ _ _ _ _ eq =>
    obtain ⟨_, _, _, _, _, _, _, _, trace, panel, _⟩ := State.start_frame ({ s with win := w } : State) seq
    exact ⟨[], eq ▸ .silent trace panel⟩
  | answered v _ _ _ eq => exact ⟨[], eq ▸ .silent rfl rfl⟩

/-- Settles O16: an action's output is what the trace gains and what the controller hears, and nothing but the failure of a
DISPLAY touches the controller besides. -/
theorem traceGrowsAndPanelHearsIt : Obligations.TraceGrowsAndPanelHearsIt := by
  intro s t h
  rcases step_next h with rfl | ⟨u, _, _, _, he⟩ | ⟨i, rest, _, _, _, he⟩
  · exact ⟨[], Heard.silent rfl rfl⟩
  · exact exec_heard he
  · have heard := exec_heard he
    exact heard

/-! ### Block reset -/

/-- A valid CONSTRUCT of an idle block in `Uninitialized` is accepted (R141). -/
theorem exec_construct_valid {q : ConstructReq} {s : State} (idle : s.busy = false) (live : s.hung = false)
    (fresh : s.state = .uninitialized) (valid : constructValid q = true) :
    exec (.construct q) s = .next
      (({ s with cfg := loadConfig q, win := defaultWindow (loadConfig q) } : State).start
        (constructSeq rom (loadConfig q))) := by
  show execConstruct q s = _
  rw [execConstruct, whenIdle_idle idle live, if_pos fresh, if_pos valid]

/-- Settles O60: the block's registers are those of the reset state, and an idle block in `Uninitialized` accepts a valid
CONSTRUCT. -/
theorem blockResetIsTheWayOutOfReadyAndFailed : Obligations.BlockResetIsTheWayOutOfReadyAndFailed := by
  intro s
  refine ⟨rfl, rfl, rfl, rfl, rfl, rfl, rfl, rfl, rfl, rfl, rfl, rfl, rfl, rfl, rfl, rfl, State.blockReset_inv,
    fun q valid => ?_⟩
  obtain ⟨seq, _, _, _, cfg, _, _, _, _, panel, _⟩ := State.start_frame
    ({ s.blockReset with cfg := loadConfig q, win := defaultWindow (loadConfig q) } : State) (constructSeq rom (loadConfig q))
  exact ⟨_, exec_construct_valid rfl rfl rfl valid, cfg, seq, panel⟩

end Sys2Proof.Machine
end

section
/-! SUPPORT. Nothing the block does depends on the controller (R26, R58): every operation of the block takes two states that
differ only in it to two such states. -/

namespace Sys2Proof.Machine

/-- The same block, with another controller. -/
def Twin (s s' : State) : Prop := ∃ p, s' = { s with panel := p }

/-- A collaborator call that ended the same way in the same block. -/
def TwinResult (r r' : Progress × State) : Prop := r.1 = r'.1 ∧ Twin r.2 r'.2

/-- The same answer of the same block. -/
def TwinOutcome : Host.Outcome State Fault Refusal → Host.Outcome State Fault Refusal → Prop
  | .next t, .next t' => Twin t t'
  | .fault f, .fault f' => f = f'
  | .refused r, .refused r' => r = r'
  | _, _ => False

section Operations

variable {s s' : State}

/-! ### Output and answers -/

theorem Twin.busy (h : Twin s s') : s'.busy = s.busy := by
  obtain ⟨p, rfl⟩ := h
  rfl

theorem Twin.busAnswer (h : Twin s s') : s'.busAnswer = s.busAnswer := by
  obtain ⟨p, rfl⟩ := h
  rfl

theorem Twin.delayAnswer (h : Twin s s') : s'.delayAnswer = s.delayAnswer := by
  obtain ⟨p, rfl⟩ := h
  rfl

theorem Twin.emit (h : Twin s s') (it : Item) : Twin (s.emit it) (s'.emit it) := by
  obtain ⟨p, rfl⟩ := h
  exact ⟨_, rfl⟩

theorem Twin.emitBytes (h : Twin s s') (dc : Level) (bytes : List Byte) :
    Twin (s.emitBytes dc bytes) (s'.emitBytes dc bytes) := by
  obtain ⟨p, rfl⟩ := h
  exact ⟨_, rfl⟩

theorem Twin.driveLine (h : Twin s s') (name : LineName) (level : Level) :
    Twin (s.driveLine name level) (s'.driveLine name level) := by
  obtain ⟨p, rfl⟩ := h
  cases name <;> exact ⟨_, rfl⟩

theorem Twin.select (h : Twin s s') (level : Level) : Twin (s.select level) (s'.select level) := by
  obtain ⟨p, rfl⟩ := h
  exact ⟨_, rfl⟩

theorem Twin.afterBusAnswer (h : Twin s s') : Twin s.afterBusAnswer s'.afterBusAnswer := by
  obtain ⟨p, rfl⟩ := h
  unfold State.afterBusAnswer
  dsimp only
  cases s.busAnswers <;> exact ⟨_, rfl⟩

theorem Twin.afterDelayAnswer (h : Twin s s') : Twin s.afterDelayAnswer s'.afterDelayAnswer := by
  obtain ⟨p, rfl⟩ := h
  unfold State.afterDelayAnswer
  dsimp only
  cases s.delayReturns <;> exact ⟨_, rfl⟩

/-! ### Actions -/

theorem TwinResult.busWrite (h : Twin s s') (dc : Level) (bytes : List Byte) :
    TwinResult (s.busWrite dc bytes) (s'.busWrite dc bytes) := by
  unfold State.busWrite
  rw [h.busAnswer]
  cases s.busAnswer with
  | ok => exact ⟨rfl, h.afterBusAnswer.emitBytes dc _⟩
  | fail sent => exact ⟨rfl, h.afterBusAnswer.emitBytes dc _⟩
  | hang sent => exact ⟨rfl, h.afterBusAnswer.emitBytes dc _⟩

theorem TwinResult.sendCommand (h : Twin s s') (c : Byte) : TwinResult (s.sendCommand c) (s'.sendCommand c) :=
  .busWrite (h.select cmdLevel) cmdLevel [c]

theorem TwinResult.sendData (h : Twin s s') (bytes : List Byte) : TwinResult (s.sendData bytes) (s'.sendData bytes) :=
  .busWrite (h.select dataLevel) dataLevel bytes

theorem TwinResult.delay (h : Twin s s') (ms : BitVec 16) : TwinResult (s.delay ms) (s'.delay ms) :=
  ⟨by rw [State.delay, State.delay, h.delayAnswer], (h.emit _).afterDelayAnswer⟩

theorem TwinResult.setLine (h : Twin s s') (name : LineName) (level : Level) :
    TwinResult (s.setLine name level) (s'.setLine name level) :=
  ⟨rfl, (h.driveLine name level).emit _⟩

theorem TwinResult.andThen {r r' : Progress × State} {f : State → Progress × State} (h : TwinResult r r')
    (hf : ∀ {t t'}, Twin t t' → TwinResult (f t) (f t')) : TwinResult (andThen r f) (andThen r' f) := by
  obtain ⟨progress, t⟩ := r
  obtain ⟨progress', t'⟩ := r'
  obtain ⟨rfl, twin⟩ : progress = progress' ∧ Twin t t' := h
  cases progress with
  | done => exact hf twin
  | failed => exact ⟨rfl, twin⟩
  | hung => exact ⟨rfl, twin⟩

theorem TwinResult.playTriple (h : Twin s s') (e : Triple) : TwinResult (s.playTriple e) (s'.playTriple e) := by
  unfold State.playTriple
  refine .andThen (.andThen (.sendCommand h _) fun {t t'} twin => ?_) fun {t t'} twin => ?_
  · split
    · exact ⟨rfl, twin⟩
    · exact .sendData twin _
  · split
    · exact ⟨rfl, twin⟩
    · exact .delay twin _

/-! ### What follows -/

theorem Twin.raise (h : Twin s s') (e : ErrorKind) : Twin (s.raise e) (s'.raise e) := by
  obtain ⟨p, rfl⟩ := h
  exact ⟨_, rfl⟩

theorem Twin.failUop (h : Twin s s') : Twin s.failUop s'.failUop := by
  obtain ⟨p, rfl⟩ := h
  exact ⟨_, rfl⟩

theorem Twin.complete (h : Twin s s') : Twin s.complete s'.complete := by
  obtain ⟨p, rfl⟩ := h
  exact ⟨_, rfl⟩

theorem Twin.lifecycle (h : Twin s s') : Twin s.lifecycle s'.lifecycle := by
  obtain ⟨p, rfl⟩ := h
  exact ⟨_, rfl⟩

/-- Both the advance and the start of a sequence end so: the transitions due, and completion where nothing is left. -/
theorem Twin.lifecycleComplete (h : Twin s s') :
    Twin (if s.busy then s.lifecycle else s.lifecycle.complete) (if s'.busy then s'.lifecycle else s'.lifecycle.complete) := by
  rw [h.busy]
  split
  · exact h.lifecycle
  · exact h.lifecycle.complete

theorem Twin.advance (h : Twin s s') : Twin s.advance s'.advance := by
  unfold State.advance
  rw [h.busy]
  split
  · obtain ⟨p, rfl⟩ := h
    exact Twin.lifecycleComplete ⟨p, rfl⟩
  · exact h

theorem Twin.start (h : Twin s s') (seq : List Instr) : Twin (s.start seq) (s'.start seq) := by
  obtain ⟨p, rfl⟩ := h
  exact Twin.lifecycleComplete ⟨p, rfl⟩

/-- A configuration and a window written by a host operation, and the sequence started with them. -/
theorem TwinOutcome.load (h : Twin s s') (cfg : DisplayConfig) (w : Window) (seq : List Instr) :
    TwinOutcome (.next (({ s with cfg := cfg, win := w } : State).start seq))
      (.next (({ s' with cfg := cfg, win := w } : State).start seq)) := by
  obtain ⟨p, rfl⟩ := h
  exact Twin.start (s := { s with cfg := cfg, win := w }) ⟨p, rfl⟩ seq

theorem TwinResult.settle {r r' : Progress × State} (h : TwinResult r r') : Twin (State.settle r) (State.settle r') := by
  obtain ⟨progress, t⟩ := r
  obtain ⟨progress', t'⟩ := r'
  obtain ⟨rfl, twin⟩ : progress = progress' ∧ Twin t t' := h
  cases progress with
  | done => exact twin.advance
  | failed => exact twin.failUop
  | hung =>
    obtain ⟨p, rfl⟩ := twin
    exact ⟨_, rfl⟩

/-! ### Instructions -/

theorem TwinOutcome.whenIdle (h : Twin s s') {answer answer' : Host.Outcome State Fault Refusal}
    (same : TwinOutcome answer answer') : TwinOutcome (whenIdle s answer) (whenIdle s' answer') := by
  obtain ⟨p, rfl⟩ := h
  unfold Machine.whenIdle
  split
  case isTrue refused => rw [if_pos (by exact refused)]; rfl
  case isFalse accepted => rw [if_neg (by exact accepted)]; exact same

theorem TwinOutcome.whenReady (h : Twin s s') {answer answer' : Host.Outcome State Fault Refusal}
    (same : TwinOutcome answer answer') : TwinOutcome (whenReady s answer) (whenReady s' answer') := by
  refine .whenIdle h ?_
  obtain ⟨p, rfl⟩ := id h
  dsimp only
  split
  · exact same
  · exact h.raise .notReady

theorem TwinOutcome.hostop (h : Twin s s') {i : Instr} (host : i.format = .hostop) : TwinOutcome (exec i s) (exec i s') := by
  obtain ⟨p, rfl⟩ := id h
  cases i
  case construct q =>
    refine .whenIdle h ?_
    dsimp only
    split
    · split
      · exact .load h _ _ _
      · exact h.raise .invalidConfig
    · exact rfl
  case setWindow q =>
    refine .whenReady h ?_
    dsimp only
    split
    · exact .load h _ _ _
    · exact h.raise .invalidWindow
  case display w ht img =>
    refine .whenReady h ?_
    dsimp only
    split
    · split
      · exact .load h _ _ _
      · exact rfl
    · exact h.raise .dimensionMismatch
  case setBacklight on => exact .whenReady h (h.start _)
  case getWidth => exact .whenReady h (Twin.complete ⟨p, rfl⟩)
  case getHeight => exact .whenReady h (Twin.complete ⟨p, rfl⟩)
  all_goals cases host

theorem TwinOutcome.exec (h : Twin s s') (i : Instr) : TwinOutcome (exec i s) (exec i s') := by
  by_cases host : i.format = .hostop
  · exact .hostop h host
  · obtain ⟨p, rfl⟩ := id h
    cases i
    case construct | setWindow | display | setBacklight | getWidth | getHeight => exact absurd rfl host
    case line name level => exact (TwinResult.setLine h name level).settle
    case wait ms => exact (TwinResult.delay h ms).settle
    case cmd c => exact (TwinResult.sendCommand h c).settle
    case dat bytes => exact (TwinResult.sendData h bytes).settle
    case rgb888 | pix565 | pixbytes | addr4 => exact (TwinResult.sendData h _).settle
    all_goals exact (TwinResult.playTriple h _).settle

theorem TwinOutcome.step (h : Twin s s') : TwinOutcome (step s) (step s') := by
  obtain ⟨p, rfl⟩ := id h
  by_cases live : s.hung = false
  swap
  · rw [step_hung (by simpa using live), step_hung (by simpa using live)]
    exact h
  rcases fetch_cases s with ⟨_, hung | ⟨idle, noRequest⟩⟩ | ⟨u, _, _, hu, _⟩ | ⟨i, rest, _, idle, decoded, _⟩ |
    ⟨e, _, idle, waiting, refused, _⟩
  · exact absurd hung (by simp [live])
  · rw [step_idle live idle noRequest, step_idle (by exact live) (by exact idle) (by exact noRequest)]
    exact h
  · rw [step_busy live hu, step_busy (by exact live) (by exact hu)]
    exact .exec h u
  · rw [step_request live idle decoded, step_request (by exact live) (by exact idle) (by exact decoded)]
    exact .exec ⟨p, rfl⟩ i
  · rw [step_refused live idle waiting refused,
      step_refused (by exact live) (by exact idle) (by exact waiting) (by exact refused)]
    exact rfl

end Operations

/-! ### The statement -/

theorem TwinOutcome.of_next {t : State} {o : Host.Outcome State Fault Refusal} (h : TwinOutcome (.next t) o) :
    ∃ t', o = .next t' ∧ { t' with panel := t.panel } = t := by
  cases o with
  | next t' =>
    obtain ⟨p, rfl⟩ : Twin t t' := h
    exact ⟨_, rfl, rfl⟩
  | fault f => exact h.elim
  | refused r => exact h.elim

theorem TwinOutcome.of_fault {f : Fault} {o : Host.Outcome State Fault Refusal} (h : TwinOutcome (.fault f) o) :
    o = .fault f := by
  cases o with
  | fault f' => exact congrArg _ (Eq.symm h)
  | next t => exact h.elim
  | refused r => exact h.elim

theorem TwinOutcome.of_refused {r : Refusal} {o : Host.Outcome State Fault Refusal} (h : TwinOutcome (.refused r) o) :
    o = .refused r := by
  cases o with
  | refused r' => exact congrArg _ (Eq.symm h)
  | next t => exact h.elim
  | fault f => exact h.elim

/-- Settles O17: instruction by instruction and step by step, the same block with another controller answers the same. -/
theorem blockNeverReadsThePanel : Obligations.BlockNeverReadsThePanel := by
  intro s p
  have twin : Twin s { s with panel := p } := ⟨p, rfl⟩
  refine ⟨fun i t h => ?_, fun i f h => ?_, fun i r h => ?_, fun t h => ?_, fun r h => ?_⟩
  · exact TwinOutcome.of_next (h ▸ TwinOutcome.exec twin i)
  · exact TwinOutcome.of_fault (h ▸ TwinOutcome.exec twin i)
  · exact TwinOutcome.of_refused (h ▸ TwinOutcome.exec twin i)
  · exact TwinOutcome.of_next (h ▸ TwinOutcome.step twin)
  · exact TwinOutcome.of_refused (h ▸ TwinOutcome.step twin)

end Sys2Proof.Machine
end

section
/-! SUPPORT. The controller's reaction to the bytes of one bus write (R58, R47): what data bytes can store, and the commands. -/

namespace Sys2Proof.Machine

/-! ### The places of a burst -/

theorem Panel.column_eq {p : Panel} {w : Nat} (width : p.xs.toNat + w = p.xe.toNat + 1) (pos : 0 < w) (n : Nat) :
    p.column n = p.xs.toNat + n % w := by
  have size : p.width = w := by
    rw [Panel.width]
    omega
  rw [Panel.column, if_pos (by omega), size]

theorem Panel.row_eq {p : Panel} {w h : Nat} (width : p.xs.toNat + w = p.xe.toNat + 1)
    (height : p.ys.toNat + h = p.ye.toNat + 1) (wpos : 0 < w) (hpos : 0 < h) (n : Nat) :
    p.row n = p.ys.toNat + n / w % h := by
  have size : p.width = w ∧ p.height = h := by
    rw [Panel.width, Panel.height]
    omega
  rw [Panel.row, if_pos (by omega), size.1, size.2]

/-! ### Data bytes of an open controller -/

/-- The second byte of a pair stores a pixel, any other is kept for later (R58). -/
theorem Panel.data_pixels {p : Panel} (opened : p.phase = .pixels) (b : Byte) :
    (∃ h, p.buf = [h] ∧ p.data b = p.storePixel h b) ∨ p.data b = { p with buf := p.buf ++ [b] } := by
  obtain ⟨xs, xe, ys, ye, index, phase, buf, mem⟩ := p
  obtain rfl : phase = .pixels := opened
  match buf with
  | [] => exact .inr rfl
  | [h] => exact .inl ⟨h, rfl, rfl⟩
  | _ :: _ :: _ => exact .inr rfl

theorem Panel.read_storePixel {p : Panel} {a : Nat} (h l : Byte)
    (high : a ≠ pixelAddr (p.column p.index) (p.row p.index))
    (low : a ≠ pixelAddr (p.column p.index) (p.row p.index) + 1) :
    Memory.read (p.storePixel h l).mem a = Memory.read p.mem a := by
  simp only [Panel.storePixel]
  rw [Memory.read_write_other _ _ _ _ low, Memory.read_write_other _ _ _ _ high]

/-- In an open controller data bytes store at most the pixels their pairs complete, from the write index on. -/
theorem Panel.read_dataAll {p : Panel} (opened : p.phase = .pixels) (bytes : List Byte) {a : Nat}
    (other : ∀ k, k < (p.buf.length + bytes.length) / 2 →
      a ≠ pixelAddr (p.column (p.index + k)) (p.row (p.index + k)) ∧
      a ≠ pixelAddr (p.column (p.index + k)) (p.row (p.index + k)) + 1) :
    Memory.read (bytes.foldl (fun q b => q.receive true b) p).mem a = Memory.read p.mem a := by
  induction bytes generalizing p with
  | nil => rfl
  | cons b bs ih =>
    simp only [List.length_cons] at other
    rw [List.foldl_cons, Panel.receive_data]
    rcases Panel.data_pixels opened b with ⟨h, pending, stores⟩ | keeps
    · rw [pending, List.length_singleton] at other
      obtain ⟨high, low⟩ := other 0 (by omega)
      rw [stores, ih (p := p.storePixel h b) opened, Panel.read_storePixel h b high low]
      intro k hk
      have next := other (k + 1) (by simp only [Panel.storePixel, List.length_nil] at hk; omega)
      rwa [Nat.add_comm k 1, ← Nat.add_assoc] at next
    · rw [keeps, ih (p := { p with buf := p.buf ++ [b] }) opened]
      intro k hk
      refine other k ?_
      simp only [List.length_append, List.length_singleton] at hk
      omega

/-- Settles O19: outside the pixel phase data bytes store nothing, in it only pairs from the write index on. -/
theorem dataBytesWriteOnlyAddressedPixels : Obligations.DataBytesWriteOnlyAddressedPixels := by
  refine ⟨fun p n w h width height wpos hpos =>
    ⟨Panel.column_eq width wpos n, Panel.row_eq width height wpos hpos n⟩, fun p bytes a other => ?_⟩
  rw [dataLevel_eq]
  by_cases opened : p.phase = .pixels
  · exact Panel.read_dataAll opened bytes other
  · rw [Panel.dataAll_closed opened]

theorem Panel.isOpen_eq_false_iff (p : Panel) : p.isOpen = false ↔ p.phase ≠ .pixels := by
  simp [Panel.isOpen]

/-! ### Commands -/

/-- Only memory-write opens the controller for pixels (R58; log entry 12). -/
theorem Panel.command_phase_ne {p : Panel} {c : Byte} (h : c ≠ rom.ramwr) : (p.command c).phase ≠ .pixels := by
  unfold Panel.command
  rw [if_neg h]
  split
  · exact nofun
  split <;> exact nofun

/-- A command R58 gives no meaning to closes the controller and does no more. -/
theorem Panel.command_other {p : Panel} {c : Byte} (h : c ∉ [rom.caset, rom.raset, rom.ramwr]) :
    p.command c = { p with phase := .closed, buf := [] } := by
  simp only [List.mem_cons, List.not_mem_nil, or_false, not_or] at h
  obtain ⟨notCaset, notRaset, notRamwr⟩ := h
  rw [Panel.command, if_neg notCaset, if_neg notRaset, if_neg notRamwr]

/-- A closed controller drops data bytes. -/
theorem Panel.dataAll_of_closed {p : Panel} (h : p.phase = .closed) (bytes : List Byte) :
    bytes.foldl (fun q b => q.receive true b) p = p := by
  induction bytes with
  | nil => rfl
  | cons b bs ih =>
    have dropped : p.data b = p := by
      unfold Panel.data
      rw [h]
    rw [List.foldl_cons, Panel.receive_data, dropped, ih]

/-- A command with its data stores nothing, if it is not memory-write with pixels after it. -/
theorem Panel.afterTriple_mem {p : Panel} {e : Triple} (h : e.command ≠ rom.ramwr ∨ e.data = []) :
    (p.afterTriple e).mem = p.mem := by
  unfold Panel.afterTriple
  rcases h with other | empty
  · rw [Panel.dataAll_closed (Panel.command_phase_ne other), Panel.command_mem]
  · rw [empty]
    exact Panel.command_mem p _

theorem Panel.afterTriple_other {p : Panel} {e : Triple} (h : e.command ∉ [rom.caset, rom.raset, rom.ramwr]) :
    p.afterTriple e = { p with phase := .closed, buf := [] } := by
  rw [Panel.afterTriple, Panel.command_other h, Panel.dataAll_of_closed rfl]

/-- An address-set command takes four data bytes and closes (R58, R122). -/
theorem Panel.afterTriple_caset (p : Panel) (first last : Word16) :
    p.afterTriple ⟨rom.caset, addr4Bytes first last, 0⟩ =
      { p with xs := first, xe := last, phase := .closed, buf := [] } := by
  have set : p.afterTriple ⟨rom.caset, addr4Bytes first last, 0⟩ =
      { p with xs := hi8 first ++ lo8 first, xe := hi8 last ++ lo8 last, phase := .closed, buf := [] } := rfl
  rw [set, hi8_append_lo8, hi8_append_lo8]

theorem Panel.afterTriple_raset (p : Panel) (first last : Word16) :
    p.afterTriple ⟨rom.raset, addr4Bytes first last, 0⟩ =
      { p with ys := first, ye := last, phase := .closed, buf := [] } := by
  have set : p.afterTriple ⟨rom.raset, addr4Bytes first last, 0⟩ =
      { p with ys := hi8 first ++ lo8 first, ye := hi8 last ++ lo8 last, phase := .closed, buf := [] } := rfl
  rw [set, hi8_append_lo8, hi8_append_lo8]

theorem Panel.afterTriple_ramwr (p : Panel) :
    p.afterTriple (ramwrTriple rom) = { p with phase := .pixels, index := 0, buf := [] } := rfl

end Sys2Proof.Machine
end

section
/-! SUPPORT. The instructions that write to the bus or the lines, when their collaborators answer (R101 to R106, R63 to R68). -/

namespace Sys2Proof.Machine

/-! ### Lines and delays -/

/-- Settles O20: the action always returns, and the advance keeps its output. -/
theorem lineDrivesTheLine : Obligations.LineDrivesTheLine := by
  intro name level s
  obtain ⟨advanced, kept, trace, panel, dc, rst, bl, bus, delays, draws⟩ :=
    State.settle_returned (r := s.setLine name level) rfl (Acted.setLine s name level)
  refine ⟨_, rfl, trace.trans (by simp), rst.trans ?_, bl.trans ?_, dc.trans (by simp), panel.trans (by simp),
    bus.trans (by simp), delays.trans (by simp), draws.trans (by simp), kept, advanced⟩
  · cases name <;> rfl
  · cases name <;> rfl

/-- Settles O21: a delay that never returns sets the flag, and a hung block is not moved by any step. -/
theorem waitAddsItsDelayOrHangs : Obligations.WaitAddsItsDelayOrHangs := by
  intro ms s more
  refine ⟨fun returns => ?_, fun hangs => ?_⟩
  · have done := State.delay_ok returns ms
    obtain ⟨advanced, kept, trace, panel, dc, rst, bl, bus, delays, draws⟩ :=
      State.settle_returned done (Acted.delay s ms)
    exact ⟨_, rfl, trace, delays, rst, bl, dc, panel, bus, draws, kept, advanced⟩
  · refine ⟨_, ?_, rfl, run_fixed (step_hung rfl)⟩
    show Host.Outcome.next (State.settle (s.delay ms)) = _
    rw [State.delay_hang hangs, State.settle_hung]

/-! ### Bus writes -/

/-- Settles O22: a command byte, whichever it is, only changes what the controller expects next. -/
theorem cmdSendsOneCommandByte : Obligations.CmdSendsOneCommandByte := by
  intro c s more answers
  obtain ⟨advanced, kept, trace, panel, dc, rst, bl, bus, delays, draws⟩ :=
    State.settle_returned (State.sendCommand_ok answers c) (Acted.sendCommand s c)
  refine ⟨_, rfl, trace, dc, rst, bl, bus, delays, draws, panel, fun a => ?_, kept, advanced⟩
  rw [panel]
  exact congrArg (Memory.read · a) (Panel.command_mem s.panel c)

/-- What data bytes that the transport takes leave behind. -/
structure SentData (s t : State) (bytes : List Byte) (more : List BusAnswer) : Prop where
  trace : t.trace = s.trace ++ bytes.map (Item.byte true)
  dc : t.dc = some true
  rst : t.rst = s.rst
  bl : t.bl = s.bl
  busAnswers : t.busAnswers = more
  delayReturns : t.delayReturns = s.delayReturns
  draws : t.draws = s.draws
  panel : t.panel = bytes.foldl (fun p b => p.receive true b) s.panel
  kept : Kept s t
  advanced : Advanced s t

theorem State.settle_sendData {s : State} {more : List BusAnswer} (answers : s.busAnswers = .ok :: more) (bytes : List Byte) :
    SentData s (State.settle (s.sendData bytes)) bytes more := by
  obtain ⟨advanced, kept, trace, panel, dc, rst, bl, bus, delays, draws⟩ :=
    State.settle_returned (State.sendData_ok answers bytes) (Acted.sendData s bytes)
  exact ⟨trace, dc, rst, bl, bus, delays, draws, panel, kept, advanced⟩

theorem SentData.read_of_closed {s t : State} {bytes : List Byte} {more : List BusAnswer} (sent : SentData s t bytes more)
    (closed : s.panel.isOpen = false) (a : Nat) : Memory.read t.panel.mem a = Memory.read s.panel.mem a := by
  rw [sent.panel, Panel.dataAll_closed ((Panel.isOpen_eq_false_iff _).mp closed)]

/-- Settles O23: what data bytes leave behind, of a DAT. -/
theorem datSendsItsBytesAsData : Obligations.DatSendsItsBytesAsData := by
  intro bytes s more answers
  have sent := State.settle_sendData answers bytes
  exact ⟨_, rfl, sent.trace, sent.dc, sent.rst, sent.bl, sent.busAnswers, sent.delayReturns, sent.draws, sent.panel,
    sent.read_of_closed, sent.kept, sent.advanced⟩

/-- Settles O29: each of the four formats is sent as a DAT of its bytes. -/
theorem dataFormatsSendTheirBytes : Obligations.DataFormatsSendTheirBytes := by
  intro s bs i bytes answers format
  have sent := State.settle_sendData answers bytes
  exact ⟨_, exec_formatBytes format, sent.trace, sent.dc, sent.rst, sent.bl, sent.busAnswers, sent.delayReturns, sent.draws,
    sent.panel, sent.read_of_closed, sent.kept, sent.advanced⟩

/-! ### Triples -/

/-- What a triple whose collaborator calls return leaves behind. -/
structure SentTriple (s t : State) (e : Triple) (bs : List BusAnswer) (ds : List Bool) : Prop where
  trace : t.trace = s.trace ++ tripleItems e
  panel : t.panel = s.panel.afterTriple e
  dc : t.dc = some (!e.data.isEmpty)
  rst : t.rst = s.rst
  bl : t.bl = s.bl
  draws : t.draws = s.draws
  busAnswers : t.busAnswers = if e.data.isEmpty then .ok :: bs else bs
  delayReturns : t.delayReturns = if e.postDelay = 0 then true :: ds else ds
  kept : Kept s t
  advanced : Advanced s t

theorem State.settle_playTriple {s : State} {bs : List BusAnswer} {ds : List Bool}
    (answers : s.busAnswers = .ok :: .ok :: bs) (returns : s.delayReturns = true :: ds) (e : Triple) :
    SentTriple s (State.settle (s.playTriple e)) e bs ds := by
  obtain ⟨advanced, kept, trace, panel, dc, rst, bl, bus, delays, draws⟩ :=
    State.settle_returned (State.playTriple_ok e answers returns) (Acted.playTriple s e)
  exact ⟨trace, panel, dc, rst, bl, draws, bus, delays, kept, advanced⟩

/-- The only command of the table that opens the controller sends no data with it, the OPEN ones aside. -/
theorem commandTable_command (cfg : DisplayConfig) (w : Window) :
    ∀ row ∈ commandTable cfg w, row.1 ≠ .pwctrA → row.1 ≠ .pwctrB → row.1 ≠ .pwctrC →
      row.2.command ≠ rom.ramwr ∨ row.2.data = [] := by
  simp [commandTable, rom]

/-- Settles O26: each command plays the triple of its entry, which stores nothing. -/
theorem controllerCommandsSendTheirEntries : Obligations.ControllerCommandsSendTheirEntries := by
  intro s i e bs ds entry answers returns
  have sent := State.settle_playTriple answers returns e
  refine ⟨_, exec_commandTable s (i, e) entry, sent.trace, ?_, sent.dc, sent.rst, sent.bl, sent.draws, sent.busAnswers,
    sent.delayReturns, fun notA notB notC a => ?_, sent.kept, sent.advanced⟩
  · rw [sent.panel, Panel.hear_tripleItems]
  · rw [sent.panel, Panel.afterTriple_mem (commandTable_command s.cfg s.win (i, e) entry notA notB notC)]

/-- The commands R58 gives no meaning to, each with the triple it plays. -/
theorem exec_commands_other (s : State) :
    ∀ i ∈ [Instr.swreset, .slpout, .frmctr, .invoff, .invon, .madctl, .colmod, .gmctrp, .gmctrn, .noron, .dispon],
      ∃ e, exec i s = .next (State.settle (s.playTriple e)) ∧ e.command ∉ [rom.caset, rom.raset, rom.ramwr] := by
  repeat' refine List.forall_mem_cons.mpr ⟨⟨_, rfl, by decide⟩, ?_⟩
  exact List.forall_mem_nil _

/-- Settles O27: the controller after each command with its data. -/
theorem controllerReactsToItsCommands : Obligations.ControllerReactsToItsCommands := by
  intro s bs ds answers returns
  have panel := fun e => (State.settle_playTriple answers returns e).panel
  refine ⟨⟨_, rfl, ?_⟩, ⟨_, rfl, ?_⟩, ⟨_, rfl, ?_⟩, fun i hi => ?_⟩
  · rw [panel, casetTriple, columnBytes, Panel.afterTriple_caset]
    exact ⟨rfl, rfl, rfl, rfl, rfl⟩
  · rw [panel, rasetTriple, rowBytes, Panel.afterTriple_raset]
    exact ⟨rfl, rfl, rfl, rfl, rfl⟩
  · rw [panel, Panel.afterTriple_ramwr]
    exact ⟨rfl, rfl⟩
  · obtain ⟨e, he, other⟩ := exec_commands_other s i hi
    refine ⟨_, he, ?_⟩
    rw [panel, Panel.afterTriple_other other]
    exact ⟨rfl, rfl, rfl, rfl, rfl⟩

/-- The micro-ops a triple expands to leave its items. -/
theorem itemsOf_expand (e : Triple) : (expand e).flatMap itemsOf = tripleItems e := by
  unfold expand tripleItems
  have data : (if e.data.isEmpty then [] else [Instr.dat e.data]).flatMap itemsOf = e.data.map (Item.byte true) := by
    split
    case isTrue empty => rw [List.isEmpty_iff.mp empty]; rfl
    case isFalse => exact List.flatMap_singleton ..
  have delay : (if e.postDelay = 0 then [] else [Instr.wait e.postDelay]).flatMap itemsOf =
      if e.postDelay = 0 then [] else [Item.delay e.postDelay] := by
    split <;> rfl
  rw [List.flatMap_append, List.flatMap_append, data, delay]
  rfl

/-- Settles O28: the items of the expansion are the items of the triple. -/
theorem tripleIsPlayedAsItsExpansion : Obligations.TripleIsPlayedAsItsExpansion := by
  intro e s bs ds answers returns
  have sent := State.settle_playTriple answers returns e
  refine ⟨_, rfl, ?_, ?_, sent.dc, sent.rst, sent.bl, sent.draws, sent.kept, sent.advanced⟩
  · rw [sent.trace, itemsOf_expand]
  · rw [sent.panel, Panel.hear_tripleItems]

end Sys2Proof.Machine
end

section
/-! SUPPORT. The bus write that does not return (R104, R107, R214): whichever write of an instruction it is, the writes before it
are out whole and of its own bytes the first ones; and which sequences are read as a DISPLAY (R26, R146). -/

namespace Sys2Proof.Machine

/-! ### One write -/

/-- The state once a write has put these bytes out and its answer is drawn. -/
def State.wrote (s : State) (w : Level × List Byte) (more : List BusAnswer) : State :=
  { s with
    dc := some w.1
    trace := s.trace ++ writeItems w
    panel := (writeItems w).foldl Panel.hear s.panel
    busAnswers := more }

theorem State.wrote_eq_emitBytes (s : State) (dc : Level) (bytes : List Byte) (more : List BusAnswer) :
    ({ s.select dc with busAnswers := more } : State).emitBytes dc bytes = s.wrote (dc, bytes) more := by
  simp only [State.wrote, writeItems, Panel.hear_bytes]
  rfl

/-- An answer that ends the operation: the write fails or is never answered, with its first `sent` bytes out. -/
def EndsWrite (a : BusAnswer) (p : Progress) (sent : Nat) : Prop :=
  a = .fail sent ∧ p = .failed ∨ a = .hang sent ∧ p = .hung

theorem EndsWrite.ne_done {a : BusAnswer} {p : Progress} {sent : Nat} (h : EndsWrite a p sent) : p ≠ .done := by
  rcases h with ⟨_, rfl⟩ | ⟨_, rfl⟩ <;> nofun

section Ending

variable {a : BusAnswer} {p : Progress} {sent : Nat} {s : State} {more : List BusAnswer}

theorem State.busWrite_ends (ends : EndsWrite a p sent) (answers : s.busAnswers = a :: more) (dc : Level) (bytes : List Byte) :
    (s.select dc).busWrite dc bytes = (p, s.wrote (dc, bytes.take sent) more) := by
  rw [← State.wrote_eq_emitBytes]
  rcases ends with ⟨rfl, rfl⟩ | ⟨rfl, rfl⟩
  · exact State.busWrite_fail (by exact answers) dc bytes
  · exact State.busWrite_hang (by exact answers) dc bytes

theorem State.sendCommand_wrote (answers : s.busAnswers = .ok :: more) (c : Byte) :
    s.sendCommand c = (.done, s.wrote (false, [c]) more) :=
  State.sendCommand_ok answers c

/-! ### The writes of an instruction -/

/-- The state after the writes that got out whole and what got out of the one that did not. -/
def State.wroteUpTo (s : State) (before : List (Level × List Byte)) (w : Level × List Byte) (more : List BusAnswer) : State :=
  { s with
    dc := some w.1
    trace := s.trace ++ before.flatMap writeItems ++ writeItems w
    panel := (before.flatMap writeItems ++ writeItems w).foldl Panel.hear s.panel
    busAnswers := more }

theorem State.wroteUpTo_nil (s : State) (w : Level × List Byte) (more : List BusAnswer) :
    s.wroteUpTo [] w more = s.wrote w more := by
  simp [State.wroteUpTo, State.wrote]

theorem State.wrote_wrote (s : State) (v w : Level × List Byte) (between more : List BusAnswer) :
    (s.wrote v between).wrote w more = s.wroteUpTo [v] w more := by
  simp [State.wroteUpTo, State.wrote, List.foldl_append]

variable {before later : List (Level × List Byte)} {dc : Level} {bytes : List Byte}

/-- An instruction with one write: nothing stands before the write that does not return. -/
theorem single_write {v : Level × List Byte} (h : [v] = before ++ (dc, bytes) :: later) : before = [] ∧ v = (dc, bytes) := by
  cases before with
  | nil => exact ⟨rfl, (List.cons_eq_cons.mp h).1⟩
  | cons x xs => simp at h

theorem State.playTriple_ends {e : Triple} (ends : EndsWrite a p sent) (writes : tripleWrites e = before ++ (dc, bytes) :: later)
    (answers : s.busAnswers = List.replicate before.length .ok ++ a :: more) :
    s.playTriple e = (p, s.wroteUpTo before (dc, bytes.take sent) more) := by
  cases before with
  | nil =>
    obtain ⟨rfl, rfl⟩ : false = dc ∧ [e.command] = bytes := by simpa using (List.cons_eq_cons.mp writes).1
    rw [State.wroteUpTo_nil]
    exact State.playTriple_first e ends.ne_done (State.busWrite_ends ends answers false [e.command])
  | cons v vs =>
    obtain ⟨rfl, rest⟩ := List.cons_eq_cons.mp writes
    by_cases empty : e.data.isEmpty = true
    · simp [empty] at rest
    · rw [if_neg empty] at rest
      obtain ⟨rfl, same⟩ := single_write rest
      cases same
      have first := State.sendCommand_wrote (s := s) answers e.command
      have second : (s.wrote (false, [e.command]) (a :: more)).sendData e.data = (p, _) :=
        State.busWrite_ends ends rfl true e.data
      rw [State.wrote_wrote] at second
      exact State.playTriple_second e ends.ne_done (by simpa using empty) first second

/-- Of every instruction that writes to the bus, the write that does not return ends the action. -/
theorem exec_write_ends {u : Instr} (ends : EndsWrite a p sent) (asks : AsksWrites s u (before ++ (dc, bytes) :: later))
    (answers : s.busAnswers = List.replicate before.length .ok ++ a :: more) :
    exec u s = .next (State.settle (p, s.wroteUpTo before (dc, bytes.take sent) more)) := by
  have sendData : ∀ data, [(true, data)] = before ++ (dc, bytes) :: later →
      s.sendData data = (p, s.wroteUpTo before (dc, bytes.take sent) more) := fun data writes => by
    obtain ⟨rfl, same⟩ := single_write writes
    cases same
    rw [State.wroteUpTo_nil]
    exact State.busWrite_ends ends answers true _
  rcases asks with ⟨c, rfl, writes⟩ | ⟨data, rfl, writes⟩ | ⟨e, plays, writes⟩ | ⟨data, format, writes⟩
  · obtain ⟨rfl, same⟩ := single_write writes.symm
    cases same
    rw [State.wroteUpTo_nil, ← State.busWrite_ends ends answers false [c]]
    rfl
  · rw [← sendData data writes.symm]
    rfl
  · rw [exec_playsTriple plays, State.playTriple_ends ends writes.symm answers]
  · rw [exec_formatBytes format, sendData data writes.symm]

end Ending

/-! ### Failure -/

/-- The error of a micro-op in the three states it can fail in (R107, R171, R172). -/
theorem failureKind_eq {st : Lifecycle} (h : st = .resetting ∨ st = .initializing ∨ st = .ready) :
    (failureKind st).code = (if st = .ready then 1 else 2) ∧ (failureKind st).causeCode = (if st = .ready then 0 else 1) ∧
    (failureKind st).stateAfter st = (if st = .ready then .ready else .failed) := by
  rcases h with rfl | rfl | rfl <;> decide

/-! ### Which sequences are a DISPLAY's -/

theorem seqWindow_length (table : Rom) (cfg : DisplayConfig) (w : Window) : (seqWindow table cfg w).length = 5 := rfl

theorem State.playsDisplay_of_length {s : State} (h : s.seq.length ≠ 6) : s.playsDisplay = false := by
  have other : s.seq.dropLast ≠ seqWindow rom s.cfg (defaultWindow s.cfg) := fun same => by
    have length := congrArg List.length same
    rw [List.length_dropLast, seqWindow_length] at length
    omega
  simp [State.playsDisplay, other]

theorem State.playsDisplay_of_display {s : State} {img : List Byte}
    (seq : s.seq = seqWindow rom s.cfg (defaultWindow s.cfg) ++ seqFrame rotDir s.cfg img) (pc : s.seqPc < 6) :
    s.playsDisplay = true := by
  have busy : s.busy = true := by
    rw [State.busy_iff, seq]
    exact pc
  have window : s.seq.dropLast = seqWindow rom s.cfg (defaultWindow s.cfg) := by
    rw [seq, seqFrame_eq, List.dropLast_concat]
  rw [State.playsDisplay, busy, window]
  simp

/-- Each of the fifteen triples is at least its command (R63, R119). -/
theorem seqInit_length_ge (table : Rom) (cfg : DisplayConfig) : 15 ≤ (seqInit table cfg).length := by
  have each : ∀ e ∈ initTriples table cfg, 1 ≤ (expand e).length := fun e _ => by simp [expand]
  calc 15 = ((initTriples table cfg).map fun e => (expand e).length).length := by simp [initTriples]
    _ ≤ ((initTriples table cfg).map fun e => (expand e).length).sum := List.length_le_sum_of_one_le _ (by simpa using each)
    _ = (seqInit table cfg).length := by rw [seqInit, List.length_flatMap]

theorem seqBacklight_length_le (cfg : DisplayConfig) (on : Level) : (seqBacklight cfg on).length ≤ 1 := by
  unfold seqBacklight
  split <;> simp

/-! ### The statements -/

/-- Settles O24: the write that fails is followed by the failure of its micro-op; a DISPLAY's sequence alone has the default
window's five micro-ops before its last. -/
theorem failedBusWriteEndsTheOperation : Obligations.FailedBusWriteEndsTheOperation := by
  refine ⟨fun u before later dc bytes sent s more asks answers live => ?_, fun s w img on pc =>
    ⟨fun h => State.playsDisplay_of_display rfl h, State.playsDisplay_of_length ?_, State.playsDisplay_of_length ?_,
      State.playsDisplay_of_length ?_, State.playsDisplay_of_not_busy⟩⟩
  · obtain ⟨err, cause, st⟩ := failureKind_eq live
    refine ⟨_, exec_write_ends (p := .failed) (.inl ⟨rfl, rfl⟩) asks answers, rfl, rfl, ⟨rfl, rfl, err, cause, st⟩, rfl, rfl,
      rfl, rfl, rfl, rfl, fun notDisplay => ?_, rfl, rfl, rfl, rfl⟩
    exact State.failUop_panel_of_not_display (s := s.wroteUpTo before (dc, bytes.take sent) more) notDisplay
  · exact (by decide : 5 ≠ 6)
  · have := seqInit_length_ge rom s.cfg
    simp only [constructSeq, List.length_append]
    omega
  · have := seqBacklight_length_le s.cfg on
    show (seqBacklight s.cfg on).length ≠ 6
    omega

/-- Settles O25: the write that is never answered is followed by the hang, and so is the delay that never returns. -/
theorem unansweredBusWriteHangs : Obligations.UnansweredBusWriteHangs := by
  refine ⟨fun u before later dc bytes sent s more asks answers =>
      exec_write_ends (p := .hung) (.inr ⟨rfl, rfl⟩) asks answers,
    fun u e s bs ds plays waits answers hangs => ?_⟩
  rw [exec_playsTriple plays, State.playTriple_delay_hang e waits answers hangs, State.settle_hung, ← Panel.hear_tripleItems]

end Sys2Proof.Machine
end

section
/-! SUPPORT. The six host operations, each with its checks passed or failed (R141 to R152, R173 to R178). -/

namespace Sys2Proof.Machine

/-! ### CONSTRUCT -/

theorem turns_legal : ∀ k : BitVec 2, 90 * k.toNat ∈ [0, 90, 180, 270] := by decide

/-- The lifecycle at the start of a construction: the pulses that are empty are skipped at once (R144). -/
theorem lifecycleAt_start {n1 n2 len : Nat} (pos : 0 < len) :
    lifecycleAt n1 n2 len 0 .uninitialized =
      if 0 < n1 then .uninitialized else if 0 < n2 then .resetting else .initializing := by
  split
  case isTrue bl => exact lifecycleAt_uninitialized_iff.mpr bl
  split
  case isTrue noBl rst => exact lifecycleAt_resetting_iff.mpr (by omega)
  case isFalse noBl noRst => exact lifecycleAt_initializing_iff.mpr (by omega)

theorem constructing_state (cfg : DisplayConfig) :
    lifecycleAt (seqBlPulse cfg).length (seqReset cfg).length (constructSeq rom cfg).length 0 .uninitialized =
      if cfg.hasBl then .uninitialized else if cfg.hasRst then .resetting else .initializing := by
  rw [lifecycleAt_start (List.length_pos_iff.mpr (constructSeq_ne_nil rom cfg)), seqBlPulse_length, seqReset_length]
  cases cfg.hasBl <;> cases cfg.hasRst <;> rfl

theorem loadConfig_rot {q : ConstructReq} {k : BitVec 2} (turns : q.rotationDeg.toNat = 90 * k.toNat) :
    (loadConfig q).rot = k := by
  simp only [loadConfig, turns, quarterTurns_turns, Option.getD_some]

/-- Settles O32: the offsets are those of `loadConfig`, and the state is the one due at the start of the sequence. -/
theorem validConstructLoadsAndStarts : Obligations.ValidConstructLoadsAndStarts := by
  intro q s k idle live fresh turns positive fits left top
  have valid : constructValid q = true :=
    (constructValid_iff q).mpr ⟨turns ▸ turns_legal k, positive, fits, left, top⟩
  refine ⟨(loadConfig q).offsetLeft, (loadConfig q).offsetTop, offsetOrCentre_toNat _ _ _ fits.1,
    offsetOrCentre_toNat _ _ _ fits.2, ?_⟩
  rw [exec_construct_valid idle live fresh valid, State.start_of_ne_nil _ (constructSeq_ne_nil rom _)]
  dsimp only
  rw [fresh, constructing_state, ← loadConfig_rot turns]
  rfl

/-- Settles O33: each way to fail contradicts a line of the validation. -/
theorem invalidConstructRaisesInvalidConfig : Obligations.InvalidConstructRaisesInvalidConfig := by
  intro q s idle live fresh fails
  have invalid : ¬ constructValid q = true := fun valid => by
    obtain ⟨turns, positive, fits, left, top⟩ := (constructValid_iff q).mp valid
    rcases fails with illegal | zero | large | ⟨o, given, outside⟩ | ⟨o, given, outside⟩
    · exact illegal turns
    · rcases zero with h | h | h | h <;> simp [h] at positive
    · omega
    · exact absurd (left o given) (by omega)
    · exact absurd (top o given) (by omega)
  show execConstruct q s = _
  rw [execConstruct, whenIdle_idle idle live, if_pos fresh, if_neg invalid]
  rfl

/-- Settles O34: the lifecycle check comes before the validation. -/
theorem secondConstructIsRefused : Obligations.SecondConstructIsRefused := by
  intro q s idle live constructed
  show execConstruct q s = _
  rw [execConstruct, whenIdle_idle idle live, if_neg constructed]

/-! ### The lifecycle check of the others -/

theorem whenReady_notReady {s : State} (idle : s.busy = false) (live : s.hung = false) (notReady : s.state ≠ .ready)
    (answer : Host.Outcome State Fault Refusal) :
    whenReady s answer = .next { s with seq := [], seqPc := 0, err := 5, errCause := 0 } := by
  rw [whenReady, whenIdle_idle idle live, if_neg notReady]
  rfl

/-- Settles O35: the check stands before every other. -/
theorem operationsOutsideReadyRaiseNotReady : Obligations.OperationsOutsideReadyRaiseNotReady := by
  intro i s host other idle live notReady
  cases i
  case construct q => exact absurd rfl (other q)
  case setWindow | display | setBacklight | getWidth | getHeight => exact whenReady_notReady idle live notReady _
  all_goals cases host

/-! ### SET_WINDOW -/

/-- Settles O36: a sequence started in `Ready` changes SEQ and SEQ_PC only. -/
theorem setWindowStartsWindowSequence : Obligations.SetWindowStartsWindowSequence := by
  rintro q s a0 b0 a1 b1 idle live ready rfl rfl rfl rfl ordered ordered' inside inside'
  have valid : windowValid s.cfg (windowOf s.cfg q) = true :=
    (windowValid_iff _ _).mpr ⟨ordered, ordered', inside, inside'⟩
  show execSetWindow q s = _
  rw [execSetWindow, whenReady_ready idle live ready]
  dsimp only
  rw [if_pos valid, State.start_ready (by exact ready)]
  rfl

/-- Settles O37: each way to break the invariant contradicts a part of it. -/
theorem badWindowRaisesInvalidWindow : Obligations.BadWindowRaisesInvalidWindow := by
  rintro q s a0 b0 a1 b1 idle live ready rfl rfl rfl rfl bad
  have invalid : ¬ windowValid s.cfg (windowOf s.cfg q) = true := fun valid => by
    obtain ⟨ordered, ordered', inside, inside'⟩ := (windowValid_iff _ _).mp valid
    simp only [windowOf] at ordered ordered' inside inside'
    omega
  show execSetWindow q s = _
  rw [execSetWindow, whenReady_ready idle live ready]
  dsimp only
  rw [if_neg invalid]
  rfl

/-! ### DISPLAY -/

/-- A DISPLAY of the effective size in `Ready` (R146). -/
theorem exec_display_ready {w h : Word16} {img : List Byte} {s : State} (idle : s.busy = false) (live : s.hung = false)
    (ready : s.state = .ready) (hw : w = effW s.cfg.width s.cfg.height s.cfg.rot)
    (hh : h = effH s.cfg.width s.cfg.height s.cfg.rot) :
    exec (.display w h img) s =
      if img.length = w.toNat * h.toNat * 3 then
        .next { s with
          win := defaultWindow s.cfg
          seq := seqWindow rom s.cfg (defaultWindow s.cfg) ++ seqFrame rotDir s.cfg img
          seqPc := 0 }
      else .fault .imageAccess := by
  show execDisplay w h img s = _
  rw [execDisplay, whenReady_ready idle live ready, if_pos ⟨hw, hh⟩]
  dsimp only
  rw [State.start_ready (by exact ready)]
  rfl

/-- Settles O38: the accepted DISPLAY with its two sequences written out. -/
theorem displayStartsWindowAndFrame : Obligations.DisplayStartsWindowAndFrame := by
  intro w h img s idle live ready hw hh size
  rw [exec_display_ready idle live ready hw hh, if_pos size, hw, hh]
  rfl

/-- Settles O39: the size is checked before the buffer is read. -/
theorem wrongImageSizeRaisesDimensionMismatch : Obligations.WrongImageSizeRaisesDimensionMismatch := by
  intro w h img s idle live ready wrong
  show execDisplay w h img s = _
  rw [execDisplay, whenReady_ready idle live ready, if_neg (not_and_or.mpr wrong)]
  rfl

/-- Settles O40: what the decoder reads is well formed, and the buffer's size is what that says of a DISPLAY. -/
theorem displayOfWrongBufferFaults : Obligations.DisplayOfWrongBufferFaults := by
  refine ⟨fun w h img s idle live ready hw hh wrong => ?_, fun bytes rest img w h decoded => ?_⟩
  · rw [exec_display_ready idle live ready hw hh, if_neg wrong]
  · simpa [Instr.wellFormed] using (decode_hostop_ok decoded).2

/-! ### SET_BACKLIGHT and the accessors -/

/-- Settles O41: without a backlight line the sequence is empty and completes at once. -/
theorem setBacklightDrivesConfiguredLine : Obligations.SetBacklightDrivesConfiguredLine := by
  intro on s idle live ready
  show execSetBacklight on s = _
  rw [execSetBacklight, whenReady_ready idle live ready, State.start_ready ready, seqBacklight]
  split <;> rfl

/-- Settles O42: the effective size in closed form, and the lifecycle check before it. -/
theorem accessorsReportEffectiveSize : Obligations.AccessorsReportEffectiveSize := by
  refine ⟨fun s idle live ready => ⟨?_, ?_⟩, fun s idle live notReady =>
    ⟨whenReady_notReady idle live notReady _, whenReady_notReady idle live notReady _⟩, by decide, by decide, by decide⟩
  · show execGetWidth s = _
    rw [execGetWidth, whenReady_ready idle live ready, effW_eq_ite]
    rfl
  · show execGetHeight s = _
    rw [execGetHeight, whenReady_ready idle live ready, effH_eq_ite]
    rfl

/-! ### The offsets a CONSTRUCT loads -/

theorem offsetOrCentre_none {logical panel : Word16} (h : logical.toNat ≤ panel.toNat) :
    (offsetOrCentre none logical panel).toNat = (panel.toNat - logical.toNat) / 2 ∧
    (offsetOrCentre none logical panel).toNat + logical.toNat ≤ panel.toNat := by
  have centre := offsetOrCentre_toNat none logical panel h
  dsimp only at centre
  omega

/-- Settles O49: each offset is `offsetOrCentre` of its own axis. -/
theorem omittedOffsetsCentreTheWindow : Obligations.OmittedOffsetsCentreTheWindow := by
  refine ⟨fun q fitsX fitsY => ⟨fun o given => ?_, fun o given => ?_, fun omitted => ?_, fun omitted => ?_⟩,
    fun q => ⟨rfl, rfl, rfl, rfl, fun k turns => loadConfig_rot turns, rfl, rfl, rfl, rfl⟩, fun q omittedX omittedY => ?_⟩
  · simp only [loadConfig, given, offsetOrCentre]
  · simp only [loadConfig, given, offsetOrCentre]
  · simp only [loadConfig, omitted]
    exact offsetOrCentre_none fitsX
  · simp only [loadConfig, omitted]
    exact offsetOrCentre_none fitsY
  · simp only [loadConfig, omittedX, omittedY]
    refine ⟨?_, ?_, ?_, ?_⟩ <;> intro panelW panelH width height <;> rw [panelW, panelH, width, height] <;> decide

end Sys2Proof.Machine
end

section
/-! SUPPORT. The command sequences: their micro-ops, lengths and delays (R117 to R126, R183). -/

namespace Sys2Proof.Machine

/-- Settles O43: each pulse is one choice by its line. -/
theorem pulsesAreEmptyWithoutTheirLine : Obligations.PulsesAreEmptyWithoutTheirLine := by
  intro cfg
  unfold seqBlPulse seqReset
  refine ⟨fun h => if_pos h, fun h => ?_, fun h => if_pos h, fun h => ?_⟩
  · rw [if_neg (by simp [h])]
  · rw [if_neg (by simp [h])]

/-- Settles O45: no sequence but the frame and no coordinate reads the rotation. -/
theorem rotationEntersOnlyTheFrame : Obligations.RotationEntersOnlyTheFrame :=
  fun _ _ _ _ _ => ⟨rfl, rfl, rfl, rfl, rfl, rfl⟩

/-! ### The init sequence -/

theorem inversionTriple_eq (table : Rom) (invert : Bool) :
    inversionTriple table invert = ⟨if invert then table.invon else table.invoff, [], 0⟩ := by
  cases invert <;> rfl

/-- The default window starts at the offsets themselves (R121, R122). -/
theorem defaultWindow_bytes (cfg : DisplayConfig) :
    columnBytes cfg (defaultWindow cfg) = addr4Bytes cfg.offsetLeft (cfg.width - 1 + cfg.offsetLeft) ∧
    rowBytes cfg (defaultWindow cfg) = addr4Bytes cfg.offsetTop (cfg.height - 1 + cfg.offsetTop) := by
  simp only [columnBytes, rowBytes, defaultWindow, zero_add, and_self]

theorem totalDelay_flatMap_expand (es : List Triple) :
    totalDelay (es.flatMap expand) = (es.map fun e => e.postDelay.toNat).sum := by
  induction es with
  | nil => rfl
  | cons e es ih => rw [List.flatMap_cons, totalDelay_append, totalDelay_expand, ih, List.map_cons, List.sum_cons]

theorem totalDelay_seqInit (table : Rom) (cfg : DisplayConfig) : totalDelay (seqInit table cfg) = 760 := by
  have delays : (initTriples table cfg).map (fun e => e.postDelay.toNat) =
      [150, 500, 0, 0, 0, 0, 0, 0, 0, 0, 0, 0, 0, 10, 100] := by
    rw [initTriples, inversionTriple_eq]
    rfl
  rw [seqInit, totalDelay_flatMap_expand, delays]
  rfl

theorem expand_length (e : Triple) :
    (expand e).length = 1 + (if e.data.isEmpty then 0 else 1) + (if e.postDelay = 0 then 0 else 1) := by
  unfold expand
  split <;> split <;> rfl

/-- Settles O44: the triples are those of the table with the default window's bytes written out. -/
theorem initSequenceIsTheFifteenTriples : Obligations.InitSequenceIsTheFifteenTriples := by
  intro table cfg
  obtain ⟨columns, rows⟩ := defaultWindow_bytes cfg
  refine ⟨?_, totalDelay_seqInit table cfg, fun frmctr pwctrA pwctrB pwctrC => ?_⟩
  · rw [seqInit, initTriples, inversionTriple_eq, casetTriple, rasetTriple, columns, rows]
    rfl
  · rw [seqInit, List.length_flatMap, initTriples, inversionTriple_eq]
    simp [expand_length, swresetTriple, slpoutTriple, frmctrTriple, pwctrATriple, pwctrBTriple, pwctrCTriple, madctlTriple,
      colmodTriple, casetTriple, rasetTriple, gmctrpTriple, gmctrnTriple, noronTriple, disponTriple, columns, rows, addr4Bytes,
      frmctr, pwctrA, pwctrB, pwctrC, tSwreset, tSlpout, tNoron, tDispon]

/-- Settles O46: the waits of a construction are those of its three parts. -/
theorem onlyConstructionWaits : Obligations.OnlyConstructionWaits := by
  intro table cfg w img on
  refine ⟨?_, rfl, ?_⟩
  · have bl : totalDelay (seqBlPulse cfg) = if cfg.hasBl then 100 else 0 := by
      unfold seqBlPulse
      split <;> rfl
    have rst : totalDelay (seqReset cfg) = if cfg.hasRst then 1500 else 0 := by
      unfold seqReset
      split <;> rfl
    rw [constructSeq, totalDelay_append, totalDelay_append, totalDelay_seqInit, bl, rst]
    omega
  · unfold seqBacklight
    split <;> rfl

end Sys2Proof.Machine
end

section
/-! SUPPORT. A sequence is played to its end when every collaborator answers (R53, R100, R108): what each micro-op leaves, and
what they leave together. -/

namespace Sys2Proof.Machine

/-! ### What a micro-op asks for and leaves -/

/-- The micro-op writes to the bus (R105, R106). -/
def writesBus : Instr → Bool
  | .cmd _ => true
  | .dat _ => true
  | _ => false

/-- The micro-op calls the Delay primitive (R102). -/
def callsDelay : Instr → Bool
  | .wait _ => true
  | _ => false

/-- The level of the select line after a micro-op (R105, R106). -/
def dcAfter (level : Option Level) : Instr → Option Level
  | .cmd _ => some false
  | .dat _ => some true
  | _ => level

/-- The level of an output line after a micro-op (R101). -/
def lineAfter (name : LineName) (level : Option Level) : Instr → Option Level
  | .line driven v => if driven = name then some v else level
  | _ => level

/-- Every call of these micro-ops is answered: what they leave in the outputs, and which answers they take. -/
structure Plays (s t : State) (us : List Instr) : Prop where
  trace : t.trace = s.trace ++ us.flatMap itemsOf
  panel : t.panel = (us.flatMap itemsOf).foldl Panel.hear s.panel
  dc : t.dc = us.foldl dcAfter s.dc
  rst : t.rst = us.foldl (lineAfter .rst) s.rst
  bl : t.bl = us.foldl (lineAfter .bl) s.bl
  busAnswers : s.busAnswers = List.replicate (us.countP writesBus) .ok ++ t.busAnswers
  delayReturns : s.delayReturns = List.replicate (us.countP callsDelay) true ++ t.delayReturns
  draws : t.draws = s.draws
  hung : t.hung = s.hung
  seq : t.seq = s.seq
  kept : Kept s t

theorem Plays.refl (s : State) : Plays s s [] :=
  ⟨by simp, rfl, rfl, rfl, rfl, rfl, rfl, rfl, rfl, rfl, rfl, rfl, rfl, rfl⟩

theorem Kept.trans {s t r : State} (h : Kept s t) (k : Kept t r) : Kept s r := by
  obtain ⟨win, res, cfg, requests⟩ := h
  obtain ⟨win', res', cfg', requests'⟩ := k
  exact ⟨win'.trans win, res'.trans res, cfg'.trans cfg, requests'.trans requests⟩

theorem Plays.trans {s t r : State} {us vs : List Instr} (h : Plays s t us) (k : Plays t r vs) : Plays s r (us ++ vs) where
  trace := by rw [k.trace, h.trace, List.flatMap_append, List.append_assoc]
  panel := by rw [k.panel, h.panel, List.flatMap_append, List.foldl_append]
  dc := by rw [k.dc, h.dc, List.foldl_append]
  rst := by rw [k.rst, h.rst, List.foldl_append]
  bl := by rw [k.bl, h.bl, List.foldl_append]
  busAnswers := by rw [h.busAnswers, k.busAnswers, List.countP_append, List.replicate_add, List.append_assoc]
  delayReturns := by rw [h.delayReturns, k.delayReturns, List.countP_append, List.replicate_add, List.append_assoc]
  draws := k.draws.trans h.draws
  hung := k.hung.trans h.hung
  seq := k.seq.trans h.seq
  kept := h.kept.trans k.kept

theorem Plays.advance {s t : State} {us : List Instr} (h : Plays s t us) : Plays s t.advance us := by
  obtain ⟨seq, _⟩ := State.advance_spec t
  obtain ⟨win, res, cfg, dc, rst, bl, trace, panel, requests, bus, delays, draws, hung⟩ := State.advance_frame t
  exact
    { trace := trace.trans h.trace
      panel := panel.trans h.panel
      dc := dc.trans h.dc
      rst := rst.trans h.rst
      bl := bl.trans h.bl
      busAnswers := by rw [bus]; exact h.busAnswers
      delayReturns := by rw [delays]; exact h.delayReturns
      draws := draws.trans h.draws
      hung := hung.trans h.hung
      seq := seq.trans h.seq
      kept := h.kept.trans ⟨win, res, cfg, requests⟩ }

theorem exec_of_done {u : Instr} {s t : State} {r : Progress × State} (h : exec u s = .next (State.settle r))
    (done : r = (.done, t)) : exec u s = .next t.advance := by
  rw [h, done, State.settle_done]

/-- A micro-op whose call is answered is done, and the sequencer moves on. -/
theorem exec_plays {u : Instr} {s : State} {bs : List BusAnswer} {ds : List Bool} (micro : u.isMicroOp = true)
    (answers : s.busAnswers = List.replicate ([u].countP writesBus) .ok ++ bs)
    (returns : s.delayReturns = List.replicate ([u].countP callsDelay) true ++ ds) :
    ∃ t, exec u s = .next t.advance ∧ Plays s t [u] ∧ Acted s t ∧ t.busAnswers = bs ∧ t.delayReturns = ds := by
  cases u with
  | line name level =>
    have action := Acted.setLine s name level
    cases name <;>
      exact ⟨_, rfl, ⟨rfl, rfl, rfl, rfl, rfl, rfl, rfl, rfl, rfl, rfl, rfl, rfl, rfl, rfl⟩, action, answers, returns⟩
  | wait ms =>
    have done := State.delay_ok returns ms
    have action := Acted.delay s ms
    rw [done] at action
    refine ⟨_, exec_of_done rfl done, ?_, action, answers, rfl⟩
    exact ⟨rfl, rfl, rfl, rfl, rfl, rfl, returns, rfl, rfl, rfl, rfl, rfl, rfl, rfl⟩
  | cmd c =>
    have done := State.sendCommand_ok answers c
    have action := Acted.sendCommand s c
    rw [done] at action
    refine ⟨_, exec_of_done rfl done, ?_, action, rfl, returns⟩
    exact ⟨rfl, rfl, rfl, rfl, rfl, answers, rfl, rfl, rfl, rfl, rfl, rfl, rfl, rfl⟩
  | dat bytes =>
    have done := State.sendData_ok answers bytes
    have action := Acted.sendData s bytes
    have heard : [Instr.dat bytes].flatMap itemsOf = bytes.map (Item.byte true) := by simp [itemsOf]
    rw [done] at action
    refine ⟨_, exec_of_done rfl done, ?_, action, rfl, returns⟩
    refine ⟨?_, ?_, rfl, rfl, rfl, answers, rfl, rfl, rfl, rfl, rfl, rfl, rfl, rfl⟩
    · rw [heard]
    · rw [heard, Panel.hear_bytes]
  | _ => cases micro

/-! ### The whole sequence -/

/-- From the two states an operation can start in, the lifecycle due at a position is due from the one before (R144). -/
theorem lifecycleAt_next {n1 n2 len pc : Nat} {st : Lifecycle} (h : st = .uninitialized ∨ st = .ready) (lt : pc < len) :
    lifecycleAt n1 n2 len (pc + 1) (lifecycleAt n1 n2 len pc st) = lifecycleAt n1 n2 len (pc + 1) st := by
  rcases h with rfl | rfl
  · exact lifecycleAt_succ lt
  · rw [lifecycleAt_fixed (st := .ready) (.inl rfl)]

/-- STATE is the one due at the position of a sequence that was started in `st`. -/
def State.DueFrom (s : State) (st : Lifecycle) : Prop :=
  s.state = lifecycleAt (seqBlPulse s.cfg).length (seqReset s.cfg).length s.seq.length s.seqPc st

theorem State.DueFrom.advance {s : State} {st : Lifecycle} (due : s.DueFrom st) (h : st = .uninitialized ∨ st = .ready)
    (busy : s.seqPc < s.seq.length) : s.advance.DueFrom st := by
  obtain ⟨seq, _, _, inFlight, _⟩ := State.advance_spec s
  obtain ⟨_, _, cfg, _⟩ := State.advance_frame s
  obtain ⟨pc, next⟩ := inFlight busy
  unfold State.DueFrom at due ⊢
  rw [next, seq, pc, cfg, due, lifecycleAt_next h busy]

/-- The micro-ops left of a sequence are played one a step; the last one completes the operation. -/
theorem run_plays {st : Lifecycle} (start : st = .uninitialized ∨ st = .ready) {bs : List BusAnswer} {ds : List Bool}
    {us : List Instr} {s : State} (live : s.hung = false) (left : s.seq.drop s.seqPc = us) (due : s.DueFrom st)
    (micro : ∀ u ∈ us, u.isMicroOp = true) (answers : s.busAnswers = List.replicate (us.countP writesBus) .ok ++ bs)
    (returns : s.delayReturns = List.replicate (us.countP callsDelay) true ++ ds) :
    ∃ t : State, core.run us.length s = .next t ∧ Plays s t us ∧ t.DueFrom st ∧ t.seqPc = s.seqPc + us.length ∧
      t.busAnswers = bs ∧ t.delayReturns = ds ∧ (us ≠ [] → t.err = 0 ∧ t.errCause = 0) := by
  induction us generalizing s with
  | nil => exact ⟨s, rfl, .refl s, due, rfl, by simpa using answers, by simpa using returns, fun h => absurd rfl h⟩
  | cons u us ih =>
    have lt : s.seqPc < s.seq.length := by
      by_contra h
      rw [List.drop_eq_nil_of_le (by omega)] at left
      cases left
    rw [List.drop_eq_getElem_cons lt] at left
    obtain ⟨hu, rest⟩ := List.cons_eq_cons.mp left
    have fetched : s.seq[s.seqPc]? = some u := by rw [List.getElem?_eq_getElem lt, hu]
    rw [← List.singleton_append, List.countP_append, List.replicate_add, List.append_assoc] at answers returns
    obtain ⟨s1, runs, plays, action, bus, delays⟩ := exec_plays (micro u (by simp)) answers returns
    have plays1 := plays.advance
    have lt1 : s1.seqPc < s1.seq.length := by rwa [action.seq, action.seqPc]
    have due1 : s1.DueFrom st := by
      unfold State.DueFrom
      rw [action.state, action.cfg, action.seq, action.seqPc]
      exact due
    obtain ⟨_, _, _, inFlight, _, ended⟩ := State.advance_spec s1
    have pc1 : s1.advance.seqPc = s.seqPc + 1 := by rw [(inFlight lt1).1, action.seqPc]
    obtain ⟨_, _, _, _, _, _, _, _, _, sameBus, sameDelays, _⟩ := State.advance_frame s1
    obtain ⟨t, run, more, dueT, pcT, busT, delaysT, clear⟩ := ih (s := s1.advance) (plays1.hung.trans live)
      (by rw [plays1.seq, pc1, rest]) (due1.advance start lt1) (fun v hv => micro v (by simp [hv])) (sameBus.trans bus)
      (sameDelays.trans delays)
    refine ⟨t, ?_, plays1.trans more, dueT, ?_, busT, delaysT, fun _ => ?_⟩
    · rw [List.length_cons, run_succ ((step_busy live fetched).trans runs), run]
    · rw [pcT, pc1, List.length_cons]
      omega
    · by_cases last : us = []
      · subst last
        obtain rfl : s1.advance = t := by cases run; rfl
        refine ended ?_
        rw [action.seqPc, action.seq]
        have := List.length_drop (i := s.seqPc + 1) (l := s.seq)
        rw [rest, List.length_nil] at this
        omega
      · exact clear last

theorem eq_replicate_append_drop {α : Type} {l : List α} {x : α} {k : Nat} (enough : k ≤ l.length)
    (all : ∀ a ∈ l, a = x) : l = List.replicate k x ++ l.drop k := by
  have taken : l.take k = List.replicate k x := by
    rw [List.eq_replicate_iff]
    exact ⟨List.length_take_of_le enough, fun a ha => all a (List.mem_of_mem_take ha)⟩
  rw [← taken, List.take_append_drop]

/-- Settles O56: of the micro-ops left none asks for more than one answer. -/
theorem sequenceIsPlayedInOrder : Obligations.SequenceIsPlayedInOrder := by
  intro s n live ready left pos micro ⟨enoughBus, allOk⟩ ⟨enoughDelays, allReturn⟩
  have length : (s.seq.drop s.seqPc).length = n := by
    rw [List.length_drop]
    omega
  have answers := eq_replicate_append_drop (k := (s.seq.drop s.seqPc).countP writesBus)
    ((List.countP_le_length.trans length.le).trans enoughBus) allOk
  have returns := eq_replicate_append_drop (k := (s.seq.drop s.seqPc).countP callsDelay)
    ((List.countP_le_length.trans length.le).trans enoughDelays) allReturn
  have due : s.DueFrom .ready := by rw [State.DueFrom, lifecycleAt_fixed (.inl rfl), ready]
  obtain ⟨t, run, plays, dueT, pc, _, _, clear⟩ := run_plays (.inr rfl) live rfl due
    (fun u hu => micro u (List.mem_of_mem_drop hu)) answers returns
  obtain ⟨err, cause⟩ := clear (List.ne_nil_of_length_pos (by omega))
  rw [length] at run pc
  refine ⟨t, run, plays.trace, plays.panel, plays.seq, pc.trans left, ?_, err, cause, plays.hung.trans live, plays.kept⟩
  rw [dueT, lifecycleAt_fixed (.inl rfl)]

/-! ### A construction -/

theorem foldl_lineAfter_of_noLine (name : LineName) {us : List Instr} (noLine : ∀ u ∈ us, ∀ name level, u ≠ .line name level)
    (level : Option Level) : us.foldl (lineAfter name) level = level := by
  induction us with
  | nil => rfl
  | cons u us ih =>
    have same : lineAfter name level u = level := by
      cases u with
      | line driven v => exact absurd rfl (noLine _ (by simp) driven v)
      | _ => rfl
    rw [List.foldl_cons, same]
    exact ih fun v hv => noLine v (by simp [hv])

/-- No micro-op of a triple drives a line. -/
theorem lineAfter_seqInit (name : LineName) (table : Rom) (cfg : DisplayConfig) (level : Option Level) :
    (seqInit table cfg).foldl (lineAfter name) level = level :=
  foldl_lineAfter_of_noLine name (fun u hu => (seqInit_playable table cfg u hu).2) level

theorem lineAfter_constructSeq_rst (table : Rom) (cfg : DisplayConfig) (level : Option Level) :
    (constructSeq table cfg).foldl (lineAfter .rst) level = if cfg.hasRst then some true else level := by
  rw [constructSeq, List.foldl_append, List.foldl_append, lineAfter_seqInit, seqBlPulse, seqReset]
  cases cfg.hasBl <;> cases cfg.hasRst <;> rfl

theorem lineAfter_constructSeq_bl (table : Rom) (cfg : DisplayConfig) (level : Option Level) :
    (constructSeq table cfg).foldl (lineAfter .bl) level = if cfg.hasBl then some true else level := by
  rw [constructSeq, List.foldl_append, List.foldl_append, lineAfter_seqInit, seqBlPulse, seqReset]
  cases cfg.hasBl <;> cases cfg.hasRst <;> rfl

/-- The last write of a construction is the command display-on (R119). -/
theorem dcAfter_constructSeq (table : Rom) (cfg : DisplayConfig) (level : Option Level) :
    (constructSeq table cfg).foldl dcAfter level = some false := by
  have last : seqInit table cfg =
      (initTriples table cfg).dropLast.flatMap expand ++ [.cmd table.dispon, .wait tDispon] := by
    have split : initTriples table cfg = (initTriples table cfg).dropLast ++ [disponTriple table] := rfl
    rw [seqInit]
    conv_lhs => rw [split]
    rw [List.flatMap_append]
    rfl
  rw [constructSeq, last, ← List.append_assoc, List.foldl_append]
  rfl

theorem constructSeq_length_le (table : Rom) (cfg : DisplayConfig) : (constructSeq table cfg).length ≤ 60 := by
  have each : ((initTriples table cfg).map fun e => (expand e).length).sum ≤ 15 * 3 :=
    List.sum_le_card_nsmul _ 3 (by simpa using fun e _ => expand_length_le e)
  have bl := seqBlPulse_length cfg
  have rst := seqReset_length cfg
  rw [constructSeq, List.length_append, List.length_append, seqInit, List.length_flatMap, bl, rst]
  split <;> split <;> omega

/-- The block right after it has accepted a valid CONSTRUCT. -/
def State.withConstruct (s : State) (q : ConstructReq) : State :=
  { s with
    cfg := loadConfig q
    win := defaultWindow (loadConfig q)
    seq := constructSeq rom (loadConfig q)
    seqPc := 0
    state := lifecycleAt (seqBlPulse (loadConfig q)).length (seqReset (loadConfig q)).length
      (constructSeq rom (loadConfig q)).length 0 .uninitialized }

theorem exec_construct_starts {q : ConstructReq} {s : State} (idle : s.busy = false) (live : s.hung = false)
    (fresh : s.state = .uninitialized) (valid : constructValid q = true) :
    exec (.construct q) s = .next (s.withConstruct q) := by
  rw [exec_construct_valid idle live fresh valid, State.start_of_ne_nil _ (constructSeq_ne_nil rom _), State.withConstruct,
    ← fresh]

/-- Settles O57: the request is read back and accepted, and its sequence is played from `Uninitialized` to the end. -/
theorem constructRunReachesReady : Obligations.ConstructRunReachesReady := by
  intro s q rest idle live fresh requests valid ⟨enoughBus, allOk⟩ ⟨enoughDelays, allReturn⟩
  have decoded : decode rom .hostop s.requests = .ok (.construct q, rest) := by
    rw [requests]
    exact decode_encode_of_not_dcs (i := .construct q) nofun rfl rom rest
  have accepted := (step_request live idle decoded).trans
    (exec_construct_starts (s := { s with requests := rest }) idle live fresh valid)
  have few := constructSeq_length_le rom (loadConfig q)
  have nonempty := constructSeq_ne_nil rom (loadConfig q)
  obtain ⟨t, run, plays, due, pc, _, _, clear⟩ := run_plays (us := constructSeq rom (loadConfig q)) (.inl rfl)
    (s := ({ s with requests := rest } : State).withConstruct q) live rfl rfl
    (fun u hu => (constructSeq_playable rom (loadConfig q) u hu).1.1)
    (eq_replicate_append_drop ((List.countP_le_length.trans few).trans enoughBus) allOk)
    (eq_replicate_append_drop ((List.countP_le_length.trans few).trans enoughDelays) allReturn)
  obtain ⟨err, cause⟩ := clear nonempty
  obtain ⟨win, res, cfg, requests'⟩ := plays.kept
  have length := constructSeq_length rom (loadConfig q)
  have seq : t.seq = constructSeq rom (loadConfig q) := plays.seq
  have pcEnd : t.seqPc = (constructSeq rom (loadConfig q)).length := pc.trans (Nat.zero_add _)
  refine ⟨t, ?_, ?_, plays.trace, cfg, win, err, cause, ?_, ?_, ?_, ?_, res, requests'⟩
  · rw [Nat.add_comm, run_succ accepted, run]
  · rw [due, lifecycleAt_ready_iff, seq, pcEnd, cfg]
    exact ⟨length.le, le_refl _⟩
  · rw [State.not_busy_iff, seq, pcEnd]
  · rw [plays.dc, dcAfter_constructSeq]
  · rw [plays.rst, lineAfter_constructSeq_rst]
    rfl
  · rw [plays.bl, lineAfter_constructSeq_bl]
    rfl

end Sys2Proof.Machine
end

section
/-! SUPPORT. A DISPLAY from its request to the filled panel (R58, R146, R123, R124): the run of its six micro-ops, and what a
burst of pixels leaves in the controller's memory. -/

namespace Sys2Proof.Machine

/-! ### The run -/

/-- The sequence of a DISPLAY: the default window, then the frame (R123, R124). -/
def displaySeq (cfg : DisplayConfig) (img : List Byte) : List Instr :=
  seqWindow rom cfg (defaultWindow cfg) ++ seqFrame rotDir cfg img

/-- The block right after it has accepted a DISPLAY of the effective size. -/
def State.withDisplay (s : State) (img : List Byte) : State :=
  { s with win := defaultWindow s.cfg, seq := displaySeq s.cfg img, seqPc := 0 }

/-- The bytes of the window and of the frame as trace items. -/
theorem itemsOf_displaySeq (cfg : DisplayConfig) (img : List Byte) :
    (displaySeq cfg img).flatMap itemsOf =
      ([.byte false 0x2A] : List Item) ++ (addr4Bytes cfg.offsetLeft (cfg.width - 1 + cfg.offsetLeft)).map (Item.byte true) ++
      [.byte false 0x2B] ++ (addr4Bytes cfg.offsetTop (cfg.height - 1 + cfg.offsetTop)).map (Item.byte true) ++
      [.byte false 0x2C] ++ (frameBytes cfg img).map (Item.byte true) := by
  obtain ⟨columns, rows⟩ := defaultWindow_bytes cfg
  rw [displaySeq, seqWindow, seqFrame_eq, columns, rows]
  simp only [List.flatMap_append, List.flatMap_cons, List.flatMap_nil, List.append_nil, List.append_assoc]
  rfl

/-- Seven steps take a DISPLAY from its request to its end. -/
theorem run_display {s : State} {w h : Word16} {img rest : List Byte} {more : List BusAnswer} (idle : s.busy = false)
    (live : s.hung = false) (ready : s.state = .ready) (hw : w = effW s.cfg.width s.cfg.height s.cfg.rot)
    (hh : h = effH s.cfg.width s.cfg.height s.cfg.rot) (size : img.length = w.toNat * h.toNat * 3)
    (requests : s.requests = encode rom (.display w h img) ++ rest)
    (answers : s.busAnswers = List.replicate 6 .ok ++ more) :
    ∃ t : State, core.run 7 s = .next t ∧
      Plays (({ s with requests := rest } : State).withDisplay img) t (displaySeq s.cfg img) ∧
      t.state = .ready ∧ t.busy = false ∧ t.err = 0 ∧ t.errCause = 0 ∧ t.busAnswers = more ∧
      t.delayReturns = s.delayReturns := by
  have decoded : decode rom .hostop s.requests = .ok (.display w h img, rest) := by
    rw [requests]
    exact decode_encode_of_not_dcs (i := .display w h img) nofun (by simpa [Instr.wellFormed] using size) rom rest
  have accepted : step s = .next (({ s with requests := rest } : State).withDisplay img) := by
    have runs := exec_display_ready (s := { s with requests := rest }) (img := img) idle live ready hw hh
    rw [if_pos size] at runs
    exact (step_request live idle decoded).trans runs
  have due : (({ s with requests := rest } : State).withDisplay img).DueFrom .ready := by
    rw [State.DueFrom, lifecycleAt_fixed (.inl rfl)]
    exact ready
  have micro : ∀ u ∈ displaySeq s.cfg img, u.isMicroOp = true := by
    simp [displaySeq, seqWindow, seqFrame_eq, Instr.isMicroOp]
  obtain ⟨t, run, plays, dueT, pc, bus, delays, clear⟩ := run_plays (.inr rfl)
    (s := ({ s with requests := rest } : State).withDisplay img) (us := displaySeq s.cfg img) live rfl due micro answers rfl
  obtain ⟨err, cause⟩ := clear nofun
  refine ⟨t, (run_succ accepted 6).trans run, plays, ?_, ?_, err, cause, bus, delays⟩
  · rw [dueT, lifecycleAt_fixed (.inl rfl)]
  · rw [State.not_busy_iff, pc, plays.seq]
    exact Nat.le_refl 6

/-- Settles O58: the trace of the run is that of its six micro-ops. -/
theorem displayRunSendsWindowThenFrame : Obligations.DisplayRunSendsWindowThenFrame := by
  intro s w h img rest more idle live ready hw hh size requests answers
  obtain ⟨t, run, plays, readyT, idleT, err, cause, bus, delays⟩ :=
    run_display idle live ready hw hh size requests answers
  obtain ⟨win, res, cfg, requestsT⟩ := plays.kept
  refine ⟨t, run, ?_, win, plays.dc, err, cause, readyT, idleT, plays.hung.trans live, cfg, res, plays.rst, plays.bl, requestsT,
    bus, delays, plays.draws⟩
  rw [plays.trace, itemsOf_displaySeq, frameBytes, ← hw, ← hh]
  simp only [List.append_assoc]
  rfl

/-! ### A burst of pixels -/

/-- The address of pixel `n` of a burst (R58). -/
def Panel.place (p : Panel) (n : Nat) : Nat := pixelAddr (p.column n) (p.row n)

/-- The cells of two pixels are the same pair or have none in common. -/
theorem pixelAddr_ne_succ (col row col' row' : Nat) : pixelAddr col row ≠ pixelAddr col' row' + 1 := by
  simp only [pixelAddr]
  omega

theorem pixelAddr_inj {col row col' row' : Nat} (h : col < 65536) (h' : col' < 65536)
    (same : pixelAddr col row = pixelAddr col' row') : col = col' ∧ row = row' := by
  simp only [pixelAddr] at same
  omega

theorem Panel.read_storePixel_own (p : Panel) (h l : Byte) :
    Memory.read (p.storePixel h l).mem (p.place p.index) = some h ∧
    Memory.read (p.storePixel h l).mem (p.place p.index + 1) = some l := by
  simp only [Panel.storePixel, Panel.place]
  refine ⟨?_, Memory.read_write_same _ _ _⟩
  rw [Memory.read_write_other _ _ _ _ (by omega), Memory.read_write_same]

/-- Two data bytes of an open controller with no byte pending store a pixel. -/
theorem Panel.data_data {p : Panel} (opened : p.phase = .pixels) (empty : p.buf = []) (h l : Byte) :
    (p.receive true h).receive true l = p.storePixel h l := by
  obtain ⟨xs, xe, ys, ye, index, phase, buf, mem⟩ := p
  obtain rfl : phase = .pixels := opened
  obtain rfl : buf = [] := empty
  rfl

/-- The first pixel of a burst stands where it was stored, if no later one goes there. -/
theorem Panel.read_burst_first {p : Panel} (opened : p.phase = .pixels) (h l : Byte) (bs : List Byte)
    (last : ∀ j, j < bs.length / 2 → p.place (p.index + 1 + j) ≠ p.place p.index) :
    Memory.read (bs.foldl (fun q b => q.receive true b) (p.storePixel h l)).mem (p.place p.index) = some h ∧
    Memory.read (bs.foldl (fun q b => q.receive true b) (p.storePixel h l)).mem (p.place p.index + 1) = some l := by
  obtain ⟨own, own'⟩ := p.read_storePixel_own h l
  have later : ∀ j, j < (([] : List Byte).length + bs.length) / 2 → p.place (p.index + 1 + j) ≠ p.place p.index :=
    fun j hj => last j (by simpa using hj)
  constructor
  · refine (Panel.read_dataAll (p := p.storePixel h l) opened bs fun j hj => ?_).trans own
    exact ⟨(later j hj).symm, pixelAddr_ne_succ _ _ _ _⟩
  · refine (Panel.read_dataAll (p := p.storePixel h l) opened bs fun j hj => ?_).trans own'
    exact ⟨(pixelAddr_ne_succ _ _ _ _).symm, fun same => later j hj (Nat.succ.inj same).symm⟩

/-- A burst that starts with no byte pending: each pair of bytes stands at its pixel's place, if no later pixel goes there. -/
theorem Panel.read_burst {p : Panel} (opened : p.phase = .pixels) (empty : p.buf = []) {bytes : List Byte} {k : Nat}
    (inside : 2 * k + 1 < bytes.length)
    (last : ∀ j, k < j → j < bytes.length / 2 → p.place (p.index + j) ≠ p.place (p.index + k)) :
    Memory.read (bytes.foldl (fun q b => q.receive true b) p).mem (p.place (p.index + k)) = bytes[2 * k]? ∧
    Memory.read (bytes.foldl (fun q b => q.receive true b) p).mem (p.place (p.index + k) + 1) = bytes[2 * k + 1]? := by
  induction bytes using List.twoStepInduction generalizing p k with
  | nil => simp at inside
  | singleton b => simp at inside
  | cons_cons h l bs ih _ =>
    simp only [List.foldl_cons, Panel.data_data opened empty]
    simp only [List.length_cons] at inside last
    have shift : ∀ j, p.index + (j + 1) = p.index + 1 + j := fun j => by omega
    cases k with
    | zero =>
      refine Panel.read_burst_first opened h l bs fun j hj => ?_
      rw [← shift j]
      exact last (j + 1) (by omega) (by omega)
    | succ k =>
      have rest := ih (p := p.storePixel h l) opened rfl (k := k) (by omega) fun j lo hi => by
        have := last (j + 1) (by omega) (by omega)
        rwa [shift j, shift k] at this
      rw [shift k]
      exact rest

/-- A burst of whole pixels moves the write index by their number. -/
theorem Panel.index_burst {p : Panel} (opened : p.phase = .pixels) (empty : p.buf = []) (bytes : List Byte) :
    (bytes.foldl (fun q b => q.receive true b) p).index = p.index + bytes.length / 2 := by
  induction bytes using List.twoStepInduction generalizing p with
  | nil => rfl
  | singleton b =>
    rcases Panel.data_pixels opened b with ⟨h, pending, _⟩ | keeps
    · simp [empty] at pending
    · rw [List.foldl_cons, Panel.receive_data, keeps]
      simp
  | cons_cons h l bs ih _ =>
    rw [List.foldl_cons, List.foldl_cons, Panel.data_data opened empty, ih (p := p.storePixel h l) opened rfl]
    simp only [Panel.storePixel, List.length_cons]
    omega

/-! ### The rectangle of a DISPLAY -/

/-- The controller after the window sequence of the default window: open, at the rectangle's start, its memory untouched. -/
def Panel.atRectangle (p : Panel) (cfg : DisplayConfig) : Panel :=
  { p with
    xs := cfg.offsetLeft
    xe := cfg.width - 1 + cfg.offsetLeft
    ys := cfg.offsetTop
    ye := cfg.height - 1 + cfg.offsetTop
    index := 0
    phase := .pixels
    buf := [] }

/-- What the controller hears of a DISPLAY is the frame's burst from the rectangle's start on. -/
theorem Panel.hear_display (p : Panel) (cfg : DisplayConfig) (img : List Byte) :
    ((displaySeq cfg img).flatMap itemsOf).foldl Panel.hear p =
      (frameBytes cfg img).foldl (fun q b => q.receive true b) (p.atRectangle cfg) := by
  have window : ((p.afterTriple ⟨rom.caset, addr4Bytes cfg.offsetLeft (cfg.width - 1 + cfg.offsetLeft), 0⟩).afterTriple
        ⟨rom.raset, addr4Bytes cfg.offsetTop (cfg.height - 1 + cfg.offsetTop), 0⟩).afterTriple (ramwrTriple rom) =
      p.atRectangle cfg := by
    rw [Panel.afterTriple_caset, Panel.afterTriple_raset, Panel.afterTriple_ramwr, Panel.atRectangle]
  rw [itemsOf_displaySeq, List.foldl_append, Panel.hear_bytes, ← window]
  rfl

theorem Panel.atRectangle_index_add (p : Panel) (cfg : DisplayConfig) (n : Nat) : (p.atRectangle cfg).index + n = n :=
  Nat.zero_add n

section Rectangle

variable {cfg : DisplayConfig} (legal : cfg.legal = true) (p : Panel)

include legal

theorem Panel.atRectangle_size :
    (p.atRectangle cfg).xs.toNat + cfg.width.toNat = (p.atRectangle cfg).xe.toNat + 1 ∧
    (p.atRectangle cfg).ys.toNat + cfg.height.toNat = (p.atRectangle cfg).ye.toNat + 1 := by
  obtain ⟨orderedX, orderedY, insideX, insideY⟩ := (windowValid_iff _ _).mp (defaultWindow_valid legal)
  obtain ⟨_, lastX⟩ := toNat_translated orderedX insideX
  obtain ⟨_, lastY⟩ := toNat_translated orderedY insideY
  obtain ⟨lastCol, lastRow⟩ := DisplayConfig.last_toNat legal
  obtain ⟨cols, rows⟩ := DisplayConfig.legal_pos legal
  simp only [defaultWindow] at lastX lastY
  simp only [Panel.atRectangle, lastX, lastY, lastCol, lastRow]
  omega

theorem Panel.atRectangle_column (n : Nat) :
    (p.atRectangle cfg).column n = cfg.offsetLeft.toNat + n % cfg.width.toNat := by
  obtain ⟨cols, _⟩ := DisplayConfig.legal_pos legal
  exact Panel.column_eq (Panel.atRectangle_size legal p).1 cols n

theorem Panel.atRectangle_row {n : Nat} (inside : n < cfg.width.toNat * cfg.height.toNat) :
    (p.atRectangle cfg).row n = cfg.offsetTop.toNat + n / cfg.width.toNat := by
  obtain ⟨cols, rows⟩ := DisplayConfig.legal_pos legal
  obtain ⟨width, height⟩ := Panel.atRectangle_size legal p
  rw [Panel.row_eq width height cols rows n, Nat.mod_eq_of_lt (Nat.div_lt_of_lt_mul inside)]
  rfl

/-- The columns of the rectangle are columns of the panel. -/
theorem Panel.atRectangle_column_lt (n : Nat) : (p.atRectangle cfg).column n < 65536 := by
  obtain ⟨cols, _⟩ := DisplayConfig.legal_pos legal
  obtain ⟨_, _, left, _⟩ := DisplayConfig.legal_fits legal
  have inRow := Nat.mod_lt n cols
  have panel := cfg.panelW.isLt
  rw [Panel.atRectangle_column legal]
  omega

/-- No two pixels of the rectangle go to one place. -/
theorem Panel.atRectangle_place_ne {n n' : Nat} (inside : n < cfg.width.toNat * cfg.height.toNat)
    (inside' : n' < cfg.width.toNat * cfg.height.toNat) (differ : n ≠ n') :
    (p.atRectangle cfg).place n ≠ (p.atRectangle cfg).place n' := fun same => by
  obtain ⟨col, row⟩ := pixelAddr_inj (Panel.atRectangle_column_lt legal p n) (Panel.atRectangle_column_lt legal p n') same
  rw [Panel.atRectangle_column legal, Panel.atRectangle_column legal] at col
  rw [Panel.atRectangle_row legal p inside, Panel.atRectangle_row legal p inside'] at row
  have quotient : n / cfg.width.toNat = n' / cfg.width.toNat := by omega
  have whole := Nat.div_add_mod n cfg.width.toNat
  have whole' := Nat.div_add_mod n' cfg.width.toNat
  rw [quotient] at whole
  omega

/-- A cell that is none of the rectangle's reads as before the burst. -/
theorem Panel.read_display_other (img : List Byte) {a : Nat}
    (other : ∀ i j, i < cfg.height.toNat → j < cfg.width.toNat →
      a ≠ pixelAddr (cfg.offsetLeft.toNat + j) (cfg.offsetTop.toNat + i) ∧
      a ≠ pixelAddr (cfg.offsetLeft.toNat + j) (cfg.offsetTop.toNat + i) + 1) :
    Memory.read ((frameBytes cfg img).foldl (fun q b => q.receive true b) (p.atRectangle cfg)).mem a =
      Memory.read p.mem a := by
  obtain ⟨cols, _⟩ := DisplayConfig.legal_pos legal
  refine Panel.read_dataAll (p := p.atRectangle cfg) rfl (frameBytes cfg img) fun k hk => ?_
  have inside : k < cfg.width.toNat * cfg.height.toNat := by
    have empty : (p.atRectangle cfg).buf.length = 0 := rfl
    rw [frameBytes_length, empty] at hk
    omega
  rw [Panel.atRectangle_index_add, Panel.atRectangle_column legal,
    Panel.atRectangle_row legal p inside]
  exact other _ _ (Nat.div_lt_of_lt_mul inside) (Nat.mod_lt k cols)

end Rectangle

/-- The rotated image of the effective size has the configured shape, at every rotation (R87). -/
theorem rotShape_effective (cfg : DisplayConfig) :
    rotRows cfg.rot (effW cfg.width cfg.height cfg.rot).toNat (effH cfg.width cfg.height cfg.rot).toNat = cfg.height.toNat ∧
    rotCols cfg.rot (effW cfg.width cfg.height cfg.rot).toNat (effH cfg.width cfg.height cfg.rot).toNat = cfg.width.toNat := by
  unfold rotRows rotCols effW effH
  split <;> exact ⟨rfl, rfl⟩

theorem Panel.pixel_eq_some {p : Panel} {col row : Nat} {h l : Byte} (high : Memory.read p.mem (pixelAddr col row) = some h)
    (low : Memory.read p.mem (pixelAddr col row + 1) = some l) : p.pixel col row = some (h ++ l) := by
  rw [Panel.pixel, high, low]

theorem Panel.pixel_congr {p q : Panel} {col row : Nat}
    (high : Memory.read p.mem (pixelAddr col row) = Memory.read q.mem (pixelAddr col row))
    (low : Memory.read p.mem (pixelAddr col row + 1) = Memory.read q.mem (pixelAddr col row + 1)) :
    p.pixel col row = q.pixel col row := by
  rw [Panel.pixel, Panel.pixel, high, low]

/-- Each pixel of the rotated image stands packed at its place in the rectangle. -/
theorem Panel.pixel_display {cfg : DisplayConfig} (legal : cfg.legal = true) (p : Panel) (img : List Byte) {i j : Nat}
    (hi : i < cfg.height.toNat) (hj : j < cfg.width.toNat) :
    ((frameBytes cfg img).foldl (fun q b => q.receive true b) (p.atRectangle cfg)).pixel (cfg.offsetLeft.toNat + j)
        (cfg.offsetTop.toNat + i) =
      let pixel := rotatedPixel rotDir img (effW cfg.width cfg.height cfg.rot).toNat
        (effH cfg.width cfg.height cfg.rot).toNat cfg.rot i j
      some (pack565 pixel.1 pixel.2.1 pixel.2.2) := by
  obtain ⟨rows, cols⟩ := rotShape_effective cfg
  have length := frameBytes_length cfg img
  have inside : i * cfg.width.toNat + j < cfg.width.toNat * cfg.height.toNat := by
    calc i * cfg.width.toNat + j < (i + 1) * cfg.width.toNat := by rw [Nat.add_mul]; omega
      _ ≤ cfg.height.toNat * cfg.width.toNat := Nat.mul_le_mul_right _ hi
      _ = cfg.width.toNat * cfg.height.toNat := Nat.mul_comm _ _
  have place : (p.atRectangle cfg).place ((p.atRectangle cfg).index + (i * cfg.width.toNat + j)) =
      pixelAddr (cfg.offsetLeft.toNat + j) (cfg.offsetTop.toNat + i) := by
    have column : (i * cfg.width.toNat + j) % cfg.width.toNat = j := by
      rw [Nat.mul_comm, Nat.mul_add_mod, Nat.mod_eq_of_lt hj]
    have row : (i * cfg.width.toNat + j) / cfg.width.toNat = i := by
      rw [Nat.mul_comm, Nat.mul_add_div (by omega), Nat.div_eq_of_lt hj, Nat.add_zero]
    rw [Panel.atRectangle_index_add, Panel.place,
      Panel.atRectangle_column legal, Panel.atRectangle_row legal p inside, column, row]
  obtain ⟨high, low⟩ := Panel.read_burst (p := p.atRectangle cfg) rfl rfl (bytes := frameBytes cfg img)
    (k := i * cfg.width.toNat + j) (by omega) fun n lo hi => by
      rw [Panel.atRectangle_index_add, Panel.atRectangle_index_add]
      exact Panel.atRectangle_place_ne legal p (by omega) inside (by omega)
  have high' := encodeImage_getElem? rotDir img (by rwa [rows]) (by rwa [cols]) (b := 0) (by decide)
  have low' := encodeImage_getElem? rotDir img (by rwa [rows]) (by rwa [cols]) (b := 1) (by decide)
  rw [cols] at high' low'
  rw [place] at high low
  refine (Panel.pixel_eq_some (high.trans high') (low.trans low')).trans ?_
  rw [hi8_append_lo8]

/-- Settles O59: the burst of the frame starts at the rectangle's start and visits each of its pixels once. -/
theorem displayRunFillsThePanel : Obligations.DisplayRunFillsThePanel := by
  intro s w h img rest more idle live ready legal hw hh size requests answers
  obtain ⟨t, run, plays, _⟩ := run_display idle live ready hw hh size requests answers
  have panel : t.panel = _ := plays.panel.trans (Panel.hear_display s.panel s.cfg img)
  refine ⟨t, run, fun i j hi hj => ?_, fun col row inPanel outside => ?_, fun a other => ?_, ?_⟩
  · rw [panel, hw, hh]
    exact Panel.pixel_display legal s.panel img hi hj
  · rw [panel]
    have other : ∀ i j, i < s.cfg.height.toNat → j < s.cfg.width.toNat →
        pixelAddr col row ≠ pixelAddr (s.cfg.offsetLeft.toNat + j) (s.cfg.offsetTop.toNat + i) := fun i j hi hj same => by
      obtain ⟨_, _, left, _⟩ := DisplayConfig.legal_fits legal
      have width := s.cfg.panelW.isLt
      obtain ⟨rfl, rfl⟩ := pixelAddr_inj inPanel (by omega) same
      omega
    refine Panel.pixel_congr ?_ ?_
    · exact Panel.read_display_other legal s.panel img fun i j hi hj => ⟨other i j hi hj, pixelAddr_ne_succ _ _ _ _⟩
    · exact Panel.read_display_other legal s.panel img fun i j hi hj =>
        ⟨(pixelAddr_ne_succ _ _ _ _).symm, fun same => other i j hi hj (Nat.succ.inj same)⟩
  · rw [panel]
    exact Panel.read_display_other legal s.panel img other
  · rw [panel, Panel.index_burst rfl rfl, frameBytes_length, Nat.mul_div_cancel _ (by decide)]
    rw [Panel.atRectangle_index_add, Nat.mod_self]

end Sys2Proof.Machine
end
